-- ==== Sys2Proof/Config.lean ====
section
/-! DEFINITION. What one implementation fixes (the parameters of spec 00_scope.md R7 and of 93 part 2)
and the one source of free values. -/

namespace Sys2Proof

/-- `PLATFORM_MAP` (R73) where it puts both buffers into one storage: the addresses of `IN[0]` and `OUT[0]` there. -/
structure Placement where
  inBase : Nat
  outBase : Nat
deriving DecidableEq, Repr

/-- The parameters of one engine instance (R7, R41). They are fixed when the instance is built: no step changes
them, and the model's claims hold for every value (log entry 3). `platform = none`: the two buffers share no
storage (log entry 4). -/
structure Params where
  hdrBytes : Nat
  addrW : Nat
  verW : Nat
  platform : Option Placement
deriving DecidableEq, Repr

/-- The defaults of R7: `HDR_BYTES = 4`, `ADDR_W = 32`, `VER_W = 32`. -/
def Params.standard : Params := { hdrBytes := 4, addrW := 32, verW := 32, platform := none }

/-- The legal values of the parameters (R7, 93 part 2). -/
abbrev Params.Legal (p : Params) : Prop := 1 ≤ p.hdrBytes ∧ p.hdrBytes ≤ 8 ∧ 2 ≤ p.verW

/-- `LEN_W = 8 * HDR_BYTES` (R7): the width of `L`, `POS` and `RESULT_LEN`. -/
def Params.lenW (p : Params) : Nat := 8 * p.hdrBytes

/-- The `k`-th free value, `w` bits wide. It has no body: nothing is known of it but its width. Every value the
spec calls unspecified or 'any value' is one of these, each drawn with a fresh `k` (log entry 6). -/
opaque Config.freeBits (w k : Nat) : BitVec w

end Sys2Proof
end

