-- ==== Sys2Proof/Word.lean ====
section
/-! DEFINITION. The byte: the only unit of memory access of the engine (spec 20_memory.md R71). -/

namespace Sys2Proof

/-- A stream byte, a literal byte or an output byte: 8 bits, bit 0 the least significant (R11). -/
abbrev Byte := BitVec 8

end Sys2Proof
end

