-- ==== Sys2Proof/Machine/Memory.lean ====
section
/-! DEFINITION. One byte-indexed memory space (spec 20_memory.md R60, R61, R71): a list of cells in one canonical form,
indices strictly rising, no cell equal to what an unlisted index reads as. -/

namespace Sys2Proof.Machine

/-- A memory space. -/
abbrev Memory := List Host.Cell

/-- What an index that no cell lists reads as (log entry 2, DESIGN CHOICE: R42 leaves the contents at power-on
unspecified). -/
def unlisted : Byte := 0#8

/-- One byte (R71). -/
def Memory.read : Memory → Nat → Byte
  | [], _ => unlisted
  | (a, b) :: m, x => if a = x then b else Memory.read m x

/-- The memory without any cell at an index. -/
def Memory.erase : Memory → Nat → Memory
  | [], _ => []
  | (a, b) :: m, x => if a = x then Memory.erase m x else (a, b) :: Memory.erase m x

/-- A cell put before the first cell with a larger index. -/
def Memory.insert : Memory → Nat → Byte → Memory
  | [], x, v => [(x, v)]
  | (a, b) :: m, x, v => if x < a then (x, v) :: (a, b) :: m else (a, b) :: Memory.insert m x v

/-- A write of one byte (R71, R72: it changes that byte only), in canonical form. -/
def Memory.write (m : Memory) (x : Nat) (v : Byte) : Memory :=
  if v = unlisted then m.erase x else (m.erase x).insert x v

/-- Bytes written at `x, x+1, ...`. -/
def Memory.writeBytes (m : Memory) (x : Nat) : List Byte → Memory
  | [] => m
  | v :: vs => Memory.writeBytes (m.write x v) (x + 1) vs

/-- The canonical form. -/
abbrev Memory.wf (m : Memory) : Prop :=
  m.Pairwise (fun c d => c.1 < d.1) ∧ ∀ c ∈ m, c.2 ≠ unlisted

end Sys2Proof.Machine
end

