-- ==== Sys2Proof/Machine/State.lean ====
section
/-! DEFINITION. The state of one engine instance (spec 10_state.md R20: this table and no other), the parameters it was
built with, and the model's own fields; the reasons a step can stop; the state after reset (R42). -/

namespace Sys2Proof.Machine

/-- The four values of `STATUS` (R35). -/
inductive Status where
  | idle
  | busy
  | done
  | fault
deriving DecidableEq, Repr

/-- The five values of `ERR_CODE` that are ever produced (R36, R210). -/
inductive ErrCode where
  | none
  | truncatedInput
  | capacityExceeded
  | invalidBackReference
  | formatVersionUnsupported
deriving DecidableEq, Repr

/-- Indices of `OUT` whose content a fault has left unspecified for the host (R222, 93 U1): from `lo` up to, not including,
`hi`. The host finds the free value number `key + i` at index `i`. -/
structure LostRange where
  lo : Nat
  hi : Nat
  key : Nat
deriving DecidableEq, Repr

/-- What the host does at one step (R38, R190, R251, R253). -/
inductive HostAction where
  /-- Nothing: the engine moves. -/
  | pass
  /-- Writes `IN_LEN` (R21). -/
  | writeInLen (n : Nat)
  /-- Writes `OUT_CAP` (R21). -/
  | writeOutCap (n : Nat)
  /-- Writes `FMT_VER` (R21). -/
  | writeFmtVer (v : Int)
  /-- Writes byte `a` of `IN` (R38). -/
  | writeIn (a : Nat) (b : Byte)
  /-- Writes byte `a` of `OUT` (R38, R254). -/
  | writeOut (a : Nat) (b : Byte)
  /-- Reads `STATUS` (R38). -/
  | readStatus
  /-- Reads `ERR_CODE` (R38). -/
  | readErrCode
  /-- Reads `RESULT_LEN` (R38). -/
  | readResultLen
  /-- Reads byte `a` of `OUT` (R253, step 7). -/
  | readOut (a : Nat)
  /-- Gives `START` (R190). -/
  | start
  /-- Hardware reset (R250, R251). -/
  | reset
deriving DecidableEq, Repr

/-- The state. Registers whose width the spec fixes are bit vectors; those whose width is a parameter are numbers (R10),
kept in range by an invariant that every step keeps (Safety.lean). -/
structure State where
  /-- The parameters of the instance (R7, R41); no step writes them (log entry 3). -/
  params : Params
  /-- `IN_LEN` (R21), `ADDR_W` bits. -/
  inLen : Nat
  /-- `OUT_CAP` (R21), `ADDR_W` bits. -/
  outCap : Nat
  /-- `FMT_VER` (R21), `VER_W` bits, signed. -/
  fmtVer : Int
  /-- `BYTEIDX` (R22), `ADDR_W` bits. -/
  byteIdx : Nat
  /-- `BITSAVAIL` (R23). -/
  bitsAvail : BitVec 4
  /-- `L` (R26), `LEN_W` bits. -/
  len : Nat
  /-- `POS` (R27), `LEN_W` bits. -/
  pos : Nat
  /-- `MWS` (R28). -/
  mws : BitVec 14
  /-- `FLAG` (R29). -/
  flag : BitVec 1
  /-- `OFFW` (R30). -/
  offw : BitVec 5
  /-- `OFFSET` (R31). -/
  offset : BitVec 16
  /-- `LENGTH` (R32). -/
  matchLen : BitVec 8
  /-- `CNT` (R33). -/
  cnt : BitVec 8
  /-- `ACC` (R34). -/
  acc : BitVec 16
  /-- `SHIFT` (R34). -/
  shift : BitVec 5
  /-- `REM` (R34). -/
  rem : BitVec 5
  /-- `STATUS` (R35). -/
  status : Status
  /-- `ERR_CODE` (R36). -/
  errCode : ErrCode
  /-- `RESULT_LEN` (R37), `LEN_W` bits. -/
  resultLen : Nat
  /-- The `IN` space (R60). -/
  inMem : Memory
  /-- The `OUT` space (R61). -/
  outMem : Memory
  /-- The model's own: where the content of `OUT` is unspecified for the host after a fault, the latest first (log entry
  15). -/
  outLost : List LostRange
  /-- The model's own: the host's pending actions, next first; with none pending the engine moves (log entry 5). -/
  hostQueue : List HostAction
  /-- The model's own: what the host's last read returned (log entry 15). -/
  hostRead : Nat
  /-- The model's own: how many free values have been drawn (log entry 6). -/
  freeCtr : Nat
deriving DecidableEq, Repr

/-- Why the machine stops although nothing was refused. The spec's own errors are no such stop: they are next states
with `STATUS = FAULT` (R222). -/
inductive Fault where
  /-- Raised by an `OUT` write at an index `>= OUT_CAP`. R61 and R79 say the engine never issues one; only states that no
  run reaches raise it. Safe (log entry 17). -/
  | outWriteOutside (index : Nat)
  /-- Raised by an `OUT` read at an index `>= OUT_CAP`. R61 and R79 say the engine never issues one; only states that no
  run reaches raise it. Safe (log entry 17). -/
  | outReadOutside (index : Nat)
deriving DecidableEq, Repr

/-- Why a step has no meaning. -/
inductive Refusal where
  /-- Raised by the dispatch for an instruction that has no meaning yet: none in this model. Safe. -/
  | notModelled (mnemonic : String)
  /-- Raised by `READ(n)` as a function for `n` outside 1 to 16 (R125, U5); the engine never asks for one. Safe. -/
  | readWidth (n : Nat)
  /-- Raised by the fetch if the bits at the cursor decode to nothing; the fetch never lets that happen
  (Laws/Fetch.lean). Safe. -/
  | undecodable
  /-- Raised by the host's `START` while `BUSY` (R263, U4). Safe. -/
  | startWhileBusy
  /-- Raised by a host write of a configuration register, of `IN` or of `OUT` while `BUSY` (R262, U3). Safe. -/
  | hostWriteWhileBusy
  /-- Raised by a host read of `OUT` while `BUSY` (R262, U3). Safe. -/
  | hostReadWhileBusy
  /-- Raised by the host's `START` when `IN` and `OUT` share storage (R77, R264, U3). Safe. -/
  | overlappingBuffers
  /-- Raised by a host write of a value its register cannot hold, or a host access at an index that does not exist
  (log entry 14). Safe. -/
  | hostOutOfRange
deriving DecidableEq, Repr

/-- The machine with parameters `p` right after reset (R42, R250): `STATUS = IDLE`, `ERR_CODE = 0`, `RESULT_LEN = 0`.
The spec leaves every other register and both memories unspecified; the values here are the model's (log entries 1
and 2, DESIGN CHOICE). -/
def State.resetWith (p : Params) : State :=
  { params := p
    inLen := 0
    outCap := 0
    fmtVer := 0
    byteIdx := 0
    bitsAvail := 8#4
    len := 0
    pos := 0
    mws := 0#14
    flag := 0#1
    offw := 0#5
    offset := 0#16
    matchLen := 0#8
    cnt := 0#8
    acc := 0#16
    shift := 0#5
    rem := 0#5
    status := .idle
    errCode := .none
    resultLen := 0
    inMem := []
    outMem := []
    outLost := []
    hostQueue := []
    hostRead := 0
    freeCtr := 0 }

/-- The machine with the spec's default parameters right after reset. -/
def State.reset : State := State.resetWith Params.standard

end Sys2Proof.Machine
end

