-- ==== Sys2Proof/Machine/Flags.lean ====
section
/-! DEFINITION. The only status bits of the hardware, `STATUS` and `ERR_CODE`, as the numbers the host reads. There are no
condition codes and no arithmetic flags (spec 10_state.md R39). -/

namespace Sys2Proof.Machine

/-- `STATUS` as a number (R35). -/
def Status.code : Status → Nat
  | .idle => 0
  | .busy => 1
  | .done => 2
  | .fault => 3

/-- `ERR_CODE` as a number (R36, R210). -/
def ErrCode.code : ErrCode → Nat
  | .none => 0
  | .truncatedInput => 1
  | .capacityExceeded => 2
  | .invalidBackReference => 3
  | .formatVersionUnsupported => 4

end Sys2Proof.Machine
end

