-- ==== Sys2Proof/Machine/Operands.lean ====
section
/-! DEFINITION. The constants of the wire format and the operands that are computed, not read from the stream:
the window size (spec 00_scope.md R8), the Width Calculator (41_width_calculator.md), the literal count, the offset
width and the copy count (30_encoding.md R96, R97; 44_match_token.md R175). -/

namespace Sys2Proof

/-- `FLAG_BITS` (R7): width of a token's flag. -/
def flagBits : Nat := 1

/-- `BYTE_BITS` (R7): bits in a header byte and in a literal byte. -/
def byteBits : Nat := 8

/-- `LEN_BITS` (R7): width of a match token's length field. -/
def lenBits : Nat := 8

/-- `LIT_MAX` (R7): most literal bytes in one literal token. -/
def litMax : Nat := 3

/-- `READ_MAX` (R7): most bits of one `READ`. -/
def readMax : Nat := 16

/-- `MWS(v)` for a recognised version (R8): 8192 for version 0, 8191 for every version above 0. -/
def matchWindowSize (fmtVer : Int) : BitVec 14 := if fmtVer = 0 then 8192#14 else 8191#14

/-- `BITSREQ(n)` (R140): 1 for 0, else one more than the position of the highest set bit. The type is the
contract's 'unsigned 16-bit quantity' (R143). -/
def bitsReq (n : BitVec 16) : Nat := if n.toNat = 0 then 1 else Nat.log2 n.toNat + 1

/-- `k = min(3, L - POS)` (R97, R161), the number of bytes of a `LIT`. -/
def litCount (len pos : Nat) : Nat := min litMax (len - pos)

/-- `windowCap = min(POS, MWS)` (R171), as the 16-bit operand of the Width Calculator. -/
def windowCap (pos : Nat) (mws : BitVec 14) : BitVec 16 := BitVec.ofNat 16 (min pos mws.toNat)

/-- `OFFW = BITSREQ(min(POS, MWS))` (R96, R172), the width of a match token's offset field. -/
def offWidth (pos : Nat) (mws : BitVec 14) : Nat := bitsReq (windowCap pos mws)

/-- `c = min(LENGTH, L - POS)` (R175), the number of bytes a `MATCH` copies. -/
def copyCount (matchLen : Byte) (len pos : Nat) : Nat := min matchLen.toNat (len - pos)

/-- The offsets R174 accepts: `1 <= OFFSET <= POS`. -/
def offsetLegal (offset : BitVec 16) (pos : Nat) : Bool := 1 ≤ offset.toNat && offset.toNat ≤ pos

/-- Byte `i` of a header value: its bits `8i+7 : 8i` (R66, R92). -/
def headerByte (len i : Nat) : Nat := (len >>> (byteBits * i)) % 2 ^ byteBits

end Sys2Proof
end

