-- ==== Sys2Proof/Machine/Ops.lean ====
section
/-! DEFINITION. The shared operations: the cursor (spec 10_state.md R24), free values, raising an error (60_exceptions.md
R222) and the only ways out of it (R224: `START`, reset), taking a field from the stream (40_bit_cursor.md R120, R122),
the `OUT` accesses (20_memory.md R61), `DONE` (45_orchestrator.md R194). -/

namespace Sys2Proof.Machine

/-- What a machine step answers. -/
abbrev Answer := Host.Outcome State Fault Refusal

/-- An instruction in the middle of its execution: it goes on in a state, or it has its answer. -/
inductive Flow where
  | go (s : State)
  | stop (o : Answer)
deriving Repr

/-- The next part of an instruction, if the part before it let it go on. -/
def Flow.andThen (f : Flow) (g : State → Flow) : Flow :=
  match f with
  | .go s => g s
  | .stop o => .stop o

/-- The answer of an instruction whose last part has run. -/
def Flow.finish (f : Flow) : Answer :=
  match f with
  | .go s => .next s
  | .stop o => o

/-! ### The cursor -/

/-- `bitpos` (R24): the number of stream bits consumed since `START`. -/
def State.bitpos (s : State) : Nat := 8 * s.byteIdx + (8 - s.bitsAvail.toNat)

/-- `bitpos <- p` (R12): the cursor in its normalised form (R23). -/
def State.setBitpos (s : State) (p : Nat) : State :=
  { s with byteIdx := p / 8, bitsAvail := BitVec.ofNat 4 (8 - p % 8) }

/-- Stream bit `k` (R11, R65): bit `k mod 8` of byte `k div 8` of `IN`. -/
def State.streamBit (s : State) (k : Nat) : Bool := (s.inMem.read (k / 8)).getLsbD (k % 8)

/-! ### Free values -/

/-- The `j`-th free value after those drawn so far, `w` bits (log entry 6). -/
def State.fresh (s : State) (w j : Nat) : BitVec w := Config.freeBits w (s.freeCtr + j)

/-- The cursor and the temporaries of `READ` become unspecified (R126): five free values. -/
def State.loseCursor (s : State) : State :=
  { s with
    byteIdx := (s.fresh s.params.addrW 0).toNat
    bitsAvail := s.fresh 4 1
    acc := s.fresh 16 2
    shift := s.fresh 5 3
    rem := s.fresh 5 4
    freeCtr := s.freeCtr + 5 }

/-- The token registers and the temporaries of `READ` become unspecified (R43): eight free values. -/
def State.loseToken (s : State) : State :=
  { s with
    flag := s.fresh 1 0
    offw := s.fresh 5 1
    offset := s.fresh 16 2
    matchLen := s.fresh 8 3
    cnt := s.fresh 8 4
    acc := s.fresh 16 5
    shift := s.fresh 5 6
    rem := s.fresh 5 7
    freeCtr := s.freeCtr + 8 }

/-- Configuration, cursor and decoder registers become unspecified (R42): eight free values. -/
def State.loseRun (s : State) : State :=
  { s with
    inLen := (s.fresh s.params.addrW 0).toNat
    outCap := (s.fresh s.params.addrW 1).toNat
    fmtVer := (s.fresh s.params.verW 2).toInt
    byteIdx := (s.fresh s.params.addrW 3).toNat
    bitsAvail := s.fresh 4 4
    len := (s.fresh s.params.lenW 5).toNat
    pos := (s.fresh s.params.lenW 6).toNat
    mws := s.fresh 14 7
    freeCtr := s.freeCtr + 8 }

/-- The first `n` bytes of a memory become free values, the `k`-th and the following ones. -/
def Memory.lose (m : Memory) (k : Nat) : Nat → Memory
  | 0 => m
  | n + 1 => (Memory.lose m k n).write n (Config.freeBits 8 (k + n))

/-! ### What the host may rely on -/

/-- The part of a lost range below an index; none if it is empty. -/
def LostRange.below (x : Nat) (r : LostRange) : List LostRange :=
  if r.lo < min r.hi x then [{ r with hi := min r.hi x }] else []

/-- The part of a lost range from an index on; none if it is empty. -/
def LostRange.from (x : Nat) (r : LostRange) : List LostRange :=
  if max r.lo x < r.hi then [{ r with lo := max r.lo x }] else []

/-- The free value the host finds at a lost index; none at an index that is not lost. -/
def lostByte : List LostRange → Nat → Option Byte
  | [], _ => none
  | r :: rs, a => if r.lo ≤ a ∧ a < r.hi then some (Config.freeBits 8 (r.key + a)) else lostByte rs a

/-- The indices below `x` are no longer lost: a run has written them. -/
def recoverBelow (x : Nat) (rs : List LostRange) : List LostRange := rs.flatMap (LostRange.from x)

/-- The index `x` is no longer lost: the host has written it. -/
def recoverAt (x : Nat) (rs : List LostRange) : List LostRange :=
  rs.flatMap fun r => r.below x ++ r.from (x + 1)

/-- A byte of `OUT` as the host may rely on it (R222, 93 U1): a free value where a fault has left it unspecified and nothing
has been written since, else the byte of the memory. -/
def State.hostOut (s : State) (a : Nat) : Byte := (lostByte s.outLost a).getD (s.outMem.read a)

/-- Every byte of `OUT` becomes unspecified (R251, U2), for the engine and for the host alike: `OUT_CAP` free values drawn now,
and what an earlier fault left at these indices is forgotten (log entry 16). -/
def State.loseOut (s : State) : State :=
  { s with
    outMem := s.outMem.lose s.freeCtr s.outCap
    outLost := recoverBelow s.outCap s.outLost
    freeCtr := s.freeCtr + s.outCap }

/-! ### Errors -/

/-- `raise E` (R222): the code is recorded, the result length is 0, the engine stops in `FAULT`. `POS` and the engine's own
`OUT` stay; for the host the bytes before `POS` are those the run wrote, and every byte of the buffer from `POS` on is
unspecified from now on: `OUT_CAP` free values are set aside for them (log entry 15). -/
def raise (e : ErrCode) (s : State) : State :=
  { s with
    errCode := e
    resultLen := 0
    status := .fault
    outLost := LostRange.from s.pos { lo := 0, hi := s.outCap, key := s.freeCtr } ++ recoverBelow s.pos s.outLost
    freeCtr := s.freeCtr + s.outCap }

/-- `raise TruncatedInput` out of a `READ` (R122, R126): the cursor and its temporaries are lost. -/
def raiseTruncated (s : State) : State := raise .truncatedInput s.loseCursor

/-! ### Fields of the stream -/

/-- `READ(n)` returns `v` (R120, R121): the cursor is `n` bits on, the temporaries are as the loop leaves them (log
entry 9). -/
def State.consume (s : State) (n v : Nat) : State :=
  { s.setBitpos (s.bitpos + n) with
    acc := BitVec.ofNat 16 v
    shift := BitVec.ofNat 5 n
    rem := 0#5 }

/-- The `READ(n)` by which an instruction takes its field of value `v`, which the fetch has decoded (log entry 10):
`TruncatedInput` exactly when fewer than `n` unread bits are left (R122). -/
def readField (n v : Nat) (s : State) : Flow :=
  if s.bitpos + n ≤ 8 * s.inLen then .go (s.consume n v) else .stop (.next (raiseTruncated s))

/-- The flag of a token (R93, R193): `FLAG <- READ(1)`. -/
def readFlag (f : BitVec 1) (s : State) : Flow :=
  (readField flagBits f.toNat s).andThen fun t => .go { t with flag := f }

/-! ### The OUT space -/

/-- `MemWrite(OUT:POS, 1, b)`, then `POS <- POS + 1`, `CNT <- CNT - 1` (R162, R170). An index outside the space stops
(R61: never issued). -/
def emitByte (b : Byte) (s : State) : Flow :=
  if s.pos < s.outCap then
    .go { s with outMem := s.outMem.write s.pos b, pos := s.pos + 1, cnt := s.cnt - 1 }
  else .stop (.fault (.outWriteOutside s.pos))

/-- One step of the copy of a `MATCH` (R176): the byte at `POS - OFFSET`, read after every write before it (R74), is
written at `POS`. An index outside the space stops (R61: never issued). -/
def copyByte (s : State) : Flow :=
  if s.pos - s.offset.toNat < s.outCap then
    emitByte (s.outMem.read (s.pos - s.offset.toNat)) s
  else .stop (.fault (.outReadOutside (s.pos - s.offset.toNat)))

/-- The copy of a `MATCH`, byte by byte (R176). -/
def copyBytes : Nat → State → Flow
  | 0, s => .go s
  | n + 1, s => (copyByte s).andThen (copyBytes n)

/-! ### Start, completion, reset -/

/-- The buffers of a launch share storage (R77, R264): both are in one storage and their index ranges there meet. -/
def State.buffersOverlap (s : State) : Bool :=
  match s.params.platform with
  | none => false
  | some p => decide (max p.inBase p.outBase < min (p.inBase + s.inLen) (p.outBase + s.outCap))

/-- `START` (R190, R43, R252): the results are cleared, the cursor is at stream bit 0, `L` and `POS` are 0, the token
registers are unspecified; a negative version raises `FormatVersionUnsupported` (R191), otherwise `MWS` is set. -/
def start (s : State) : State :=
  let t : State :=
    { s.loseToken.setBitpos 0 with
      status := .busy
      errCode := .none
      resultLen := 0
      len := 0
      pos := 0 }
  if t.fmtVer < 0 then raise .formatVersionUnsupported t
  else { t with mws := matchWindowSize t.fmtVer }

/-- The `DONE` transition (R194). The bytes below `POS` have been written by the run: none of them is lost any more. -/
def complete (s : State) : State :=
  { s with resultLen := s.pos, status := .done, outLost := recoverBelow s.pos s.outLost }

/-- Hardware reset (R42, R250, R251): `IDLE`, results cleared, every other register unspecified; the memories are not
touched, but a run that was going on leaves all of `OUT` unspecified. -/
def hardwareReset (s : State) : State :=
  let t : State := if s.status = .busy then s.loseOut else s
  { t.loseToken.loseRun with status := .idle, errCode := .none, resultLen := 0 }

end Sys2Proof.Machine
end

