-- ==== Sys2Proof/Machine/Backref.lean ====
section
/-! DEFINITION. The match token `MATCH` (spec 44_match_token.md). -/

namespace Sys2Proof.Machine

/-- `OFFW <- BITSREQ(min(POS, MWS))`; `OFFSET <- READ(OFFW)`; `LENGTH <- READ(8)` (R172, R173). -/
def matchFields (offset : BitVec 16) (length : Byte) (s : State) : Flow :=
  (readField (offWidth s.pos s.mws) offset.toNat
      { s with offw := BitVec.ofNat 5 (offWidth s.pos s.mws) }).andThen fun t =>
    (readField lenBits length.toNat { t with offset := offset }).andThen fun u =>
      .go { u with matchLen := length }

/-- The check of the back-reference (R174), then `CNT <- min(LENGTH, L - POS)` (R175) and the copy (R176). -/
def matchCopy (s : State) : Flow :=
  if offsetLegal s.offset s.pos then
    copyBytes (copyCount s.matchLen s.len s.pos)
      { s with cnt := BitVec.ofNat 8 (copyCount s.matchLen s.len s.pos) }
  else .stop (.next (raise .invalidBackReference s))

/-- `MATCH` (R170), its flag included (R193; log entry 11). -/
def execMatch (offset : BitVec 16) (length : Byte) (s : State) : Answer :=
  (((readFlag 1#1 s).andThen (matchFields offset length)).andThen matchCopy).finish

end Sys2Proof.Machine
end

