-- ==== Sys2Proof/Machine/Header.lean ====
section
/-! DEFINITION. The header instruction `HDR` (spec 42_header.md). -/

namespace Sys2Proof.Machine

/-- The loop of R150: from byte `i` on, `n` header bytes are read and put into `L`, byte `i` at bits `8i+7 : 8i`
(R151). -/
def headerBytes (len : Nat) : Nat → Nat → State → Flow
  | 0, _, s => .go s
  | n + 1, i, s =>
    (readField byteBits (headerByte len i) s).andThen fun t =>
      headerBytes len n (i + 1) { t with len := t.len ||| (headerByte len i <<< (byteBits * i)) }

/-- `HDR` (R150): the header bytes, then the capacity check (R152). A header cut off by the end of the stream leaves the
bytes read so far in `L` (R153). -/
def execHdr (len : Nat) (s : State) : Answer :=
  ((headerBytes len s.params.hdrBytes 0 { s with len := 0 }).andThen fun t =>
    if t.outCap < t.len then .stop (.next (raise .capacityExceeded t)) else .go t).finish

end Sys2Proof.Machine
end

