-- ==== Sys2Proof/Machine/Literal.lean ====
section
/-! DEFINITION. The literal token `LIT` (spec 43_literal_token.md). -/

namespace Sys2Proof.Machine

/-- The loop of R162: each byte is read from the stream, then written to `OUT`. A read that fails leaves the bytes before
it written (R163). -/
def literalBytes : List Byte → State → Flow
  | [], s => .go s
  | b :: bs, s => ((readField byteBits b.toNat s).andThen (emitByte b)).andThen (literalBytes bs)

/-- `LIT` (R160, R162), its flag included (R193; log entry 11): `CNT <- min(3, L - POS)`, then that many bytes. -/
def execLit (b0 b1 b2 : Byte) (s : State) : Answer :=
  ((readFlag 0#1 s).andThen fun t =>
    literalBytes ([b0, b1, b2].take (litCount t.len t.pos))
      { t with cnt := BitVec.ofNat 8 (litCount t.len t.pos) }).finish

end Sys2Proof.Machine
end

