-- ==== Sys2Proof/Syntax.lean ====
section
/-! DEFINITION. The instructions of the wire format (spec 30_encoding.md R100): one constructor per row of
opcode_table.json, and the two situations an instruction is decoded in. -/

namespace Sys2Proof

/-- A stream element with its fields. The absent bytes of a short `LIT` (R94) are written as zeros. -/
inductive Instr where
  /-- `HDR`, format `H` (R92): the field `L`, `8 * HDR_BYTES` bits. -/
  | hdr (len : Nat)
  /-- `LIT`, format `T0` (R94): flag 0 and the literal bytes `B0`, and `B1`, `B2` when present. -/
  | lit (b0 b1 b2 : Byte)
  /-- `MATCH`, format `T1` (R95): flag 1, the offset (`OFFW` bits) and the length (8 bits). -/
  | matchTok (offset : BitVec 16) (length : Byte)
deriving DecidableEq, Repr

/-- What the length of an instruction depends on besides its own bits (R91, R99). -/
inductive Shape where
  /-- The first thing in the stream: a header of `hdrBytes` bytes (R92). -/
  | header (hdrBytes : Nat)
  /-- A token boundary at which a `LIT` has `k` bytes and a `MATCH` an offset of `offw` bits (R94, R95). -/
  | token (k offw : Nat)
deriving DecidableEq, Repr

end Sys2Proof
end

