-- ==== Sys2Proof/Machine/Dispatch.lean ====
section
/-! DEFINITION. Every instruction of the wire format (spec 30_encoding.md R100) and its meaning. -/

namespace Sys2Proof.Machine

def exec (i : Instr) (s : State) : Host.Outcome State Fault Refusal :=
  match i with
  | .hdr len => Sys2Proof.Machine.execHdr len s
  | .lit b0 b1 b2 => Sys2Proof.Machine.execLit b0 b1 b2 s
  | .matchTok offset length => Sys2Proof.Machine.execMatch offset length s

end Sys2Proof.Machine
end

