-- ==== Sys2Proof/WellFormed.lean ====
section
/-! DEFINITION. Which operand values a shape's encoding admits (spec 30_encoding.md R92, R94, R95). -/

namespace Sys2Proof

/-- A shape the decoder can meet: a header of 1 to 8 bytes (R7), or a token with `k` in 1 to 3 and an offset field
that fits one `READ` (R94, R95; the decoder itself meets widths 1 to 14). -/
def Shape.wf : Shape → Bool
  | .header n => 1 ≤ n && n ≤ 8
  | .token k offw => 1 ≤ k && k ≤ 3 && 1 ≤ offw && offw ≤ 16

/-- The instruction can stand in the stream where the decoder expects this shape: a header at stream bit 0 only
(R92), each field below two to its width, the bytes a short `LIT` does not have (R94) zero. -/
def Instr.wf : Shape → Instr → Bool
  | .header n, .hdr len => len < 2 ^ (8 * n)
  | .header _, .lit _ _ _ => false
  | .header _, .matchTok _ _ => false
  | .token _ _, .hdr _ => false
  | .token k _, .lit _ b1 b2 => (2 ≤ k || b1 == 0) && (3 ≤ k || b2 == 0)
  | .token _ offw, .matchTok offset _ => offset.toNat < 2 ^ offw

end Sys2Proof
end

