-- ==== Sys2Proof/Decode.lean ====
section
/-! DEFINITION. From stream bits to an instruction and back (spec 30_encoding.md R90 to R99, R107). The bits of an
instruction are a list, first stream bit first (token bit 0 of R91 at the head). The decoder is total: a list that ends
inside a field is rejected with the name of that field. -/

namespace Sys2Proof

/-! ### Fields as bits -/

/-- The value of a field: its first stream bit is its bit 0 (R65). -/
def bitsToNat : List Bool → Nat
  | [] => 0
  | b :: bs => b.toNat + 2 * bitsToNat bs

/-- The low `n` bits of a value, bit 0 first (R65). -/
def natToBits : Nat → Nat → List Bool
  | 0, _ => []
  | n + 1, v => (v % 2 == 1) :: natToBits n (v / 2)

/-- The next `n` bits as a field, and the bits after it; none where fewer are left. -/
def takeField (n : Nat) (bits : List Bool) : Option (Nat × List Bool) :=
  if n ≤ bits.length then some (bitsToNat (bits.take n), bits.drop n) else none

/-! ### The decoder -/

/-- Why a list of bits is no instruction: it ends before the named field is complete (R102 (e)). No other list is
rejected: both flags are assigned (R93) and no field has a reserved value (R104). -/
inductive DecodeError where
  | truncatedHeader
  | truncatedFlag
  | truncatedLiteral
  | truncatedOffset
  | truncatedLength
deriving DecidableEq, Repr

/-- `n` literal bytes in stream order (R94). -/
def decodeBytes : Nat → List Bool → Option (List Byte × List Bool)
  | 0, bits => some ([], bits)
  | n + 1, bits =>
    match takeField byteBits bits with
    | none => none
    | some (v, rest) =>
      match decodeBytes n rest with
      | none => none
      | some (bs, rest') => some (BitVec.ofNat 8 v :: bs, rest')

/-- Format `T0` after its flag (R94): `k` bytes; the absent ones are zeros. -/
def decodeLit (k : Nat) (bits : List Bool) : Except DecodeError (Instr × List Bool) :=
  match decodeBytes k bits with
  | none => .error .truncatedLiteral
  | some (bs, rest) => .ok (.lit (bs.getD 0 0) (bs.getD 1 0) (bs.getD 2 0), rest)

/-- Format `T1` after its flag (R95): the offset in `offw` bits, then the length in 8. -/
def decodeMatch (offw : Nat) (bits : List Bool) : Except DecodeError (Instr × List Bool) :=
  match takeField offw bits with
  | none => .error .truncatedOffset
  | some (offset, rest) =>
    match takeField lenBits rest with
    | none => .error .truncatedLength
    | some (length, rest') => .ok (.matchTok (BitVec.ofNat 16 offset) (BitVec.ofNat 8 length), rest')

/-- The instruction the bits begin with, and the bits after it. A header is selected by position (R92), a token by its
flag (R93). -/
def decode (sh : Shape) (bits : List Bool) : Except DecodeError (Instr × List Bool) :=
  match sh with
  | .header n =>
    match takeField (byteBits * n) bits with
    | none => .error .truncatedHeader
    | some (len, rest) => .ok (.hdr len, rest)
  | .token k offw =>
    match bits with
    | [] => .error .truncatedFlag
    | false :: rest => decodeLit k rest
    | true :: rest => decodeMatch offw rest

/-! ### The encoder -/

/-- How many stream bits an instruction has (R99, R100); 0 where the shape cannot hold it. -/
def Instr.bitLength : Shape → Instr → Nat
  | .header n, .hdr _ => byteBits * n
  | .header _, .lit _ _ _ => 0
  | .header _, .matchTok _ _ => 0
  | .token _ _, .hdr _ => 0
  | .token k _, .lit _ _ _ => flagBits + byteBits * min litMax k
  | .token _ offw, .matchTok _ _ => flagBits + offw + lenBits

/-- The bits of an instruction, first stream bit first (R92, R94, R95); none where the shape cannot hold it. -/
def encode : Shape → Instr → List Bool
  | .header n, .hdr len => natToBits (byteBits * n) len
  | .header _, .lit _ _ _ => []
  | .header _, .matchTok _ _ => []
  | .token _ _, .hdr _ => []
  | .token k _, .lit b0 b1 b2 =>
    false :: (([b0, b1, b2].take k).map (fun b => natToBits byteBits b.toNat)).flatten
  | .token _ offw, .matchTok offset length =>
    true :: (natToBits offw offset.toNat ++ natToBits lenBits length.toNat)

/-! ### Bytes of the stream -/

/-- The stream bits of one byte: bit 0 first (R64). -/
def byteToBits (b : Byte) : List Bool := natToBits byteBits b.toNat

/-- The stream bits of a byte array (R64, R90). -/
def bytesToBits (bs : List Byte) : List Bool := (bs.map byteToBits).flatten

/-- `n` bytes made of stream bits, the missing bits zero (R107: stream byte `j` holds bits `8j .. 8j+7`). -/
def packBytes : Nat → List Bool → List Byte
  | 0, _ => []
  | n + 1, bits => BitVec.ofNat 8 (bitsToNat (bits.take 8)) :: packBytes n (bits.drop 8)

/-- The tokens of a listing as bits, from output position `pos` (R107). -/
def assembleTokens (len : Nat) (mws : BitVec 14) : Nat → List Instr → List Bool
  | _, [] => []
  | pos, i :: is =>
    encode (.token (litCount len pos) (offWidth pos mws)) i ++
      assembleTokens len mws
        (match i with
          | .hdr _ => pos
          | .lit _ _ _ => pos + litCount len pos
          | .matchTok _ length => pos + copyCount length len pos) is

/-- A listing (`.hdrbytes`, `hdr len`, then the tokens) assembled to stream bytes (R106, R107), padded with zeros. -/
def assemble (hdrBytes len : Nat) (fmtVer : Int) (tokens : List Instr) : List Byte :=
  let bits := encode (.header hdrBytes) (.hdr len) ++ assembleTokens len (matchWindowSize fmtVer) 0 tokens
  packBytes ((bits.length + 7) / 8) bits

/-! ### The opcode table's words -/

/-- The shape in which a word of the opcode table is read (log entry 19). The table gives no shape with a word: `LIT`
and `MATCH` are read as their rows write them out, with `k = 3` and `OFFW = 14`; a word wider than any token (or with
no bits at all: the row of `HDR` has no opcode bits, R108) can only be a header. -/
def tableShape (nbits : Nat) : Option Shape :=
  if nbits = 0 then some (.header 4)
  else if nbits ≤ 32 then some (.token 3 14)
  else if nbits ≤ 64 then some (.header ((nbits + 7) / 8))
  else none

/-- The bytes of a word of the table as the stream holds them: its bit 0 is stream bit 0 (R108). -/
def tableBytes (nbits w : Nat) : List Byte :=
  packBytes (max 4 ((nbits + 7) / 8)) (natToBits nbits w)

/-- The instruction the decoder reads from a word of the opcode table. -/
def decodeTableWord (nbits w : Nat) : Option Instr :=
  match tableShape nbits with
  | none => none
  | some sh =>
    match decode sh (bytesToBits (tableBytes nbits w)) with
    | .ok (i, _) => some i
    | .error _ => none

end Sys2Proof
end

