-- ==== Sys2Proof/Machine/Fetch.lean ====
section
/-! DEFINITION. What the engine fetches at the cursor (spec 45_orchestrator.md R192, R193), and where the table's words are
placed. -/

namespace Sys2Proof.Machine

/-- Bit `k` of the stream for the fetch: no byte at or beyond `IN_LEN` is read (R60). A bit beyond the end is given as
zero and no instruction uses it: the field it belongs to raises `TruncatedInput` (log entry 10). -/
def State.fetchBit (s : State) (k : Nat) : Bool := if k / 8 < s.inLen then s.streamBit k else false

/-- The next `n` stream bits. -/
def State.fetchBits (s : State) (n : Nat) : List Bool :=
  (List.range n).map fun j => s.fetchBit (s.bitpos + j)

/-- The next instruction is the header (R92: it is recognised by position, being the first thing in the stream). -/
def State.atHeader (s : State) : Bool := s.bitpos == 0

/-- What the engine expects at the cursor (R99): the header, or a token whose length follows from `L`, `POS`, `MWS`. -/
def State.shape (s : State) : Shape :=
  if s.atHeader then .header s.params.hdrBytes
  else .token (litCount s.len s.pos) (offWidth s.pos s.mws)

/-- As many bits as the longest instruction of a shape has (R99). -/
def fetchLength : Shape → Nat
  | .header n => byteBits * n
  | .token k offw => flagBits + max (byteBits * k) (offw + lenBits)

/-- The instruction at the cursor. -/
def State.fetch (s : State) : Except DecodeError (Instr × List Bool) :=
  decode s.shape (s.fetchBits (fetchLength s.shape))

/-- The state with bytes in `IN` from an index on, the stream ending after them, the cursor at their first bit, the
engine running and no host action pending. -/
def State.withStreamAt (s : State) (a : Nat) (bytes : List Byte) : State :=
  { s.setBitpos (8 * a) with
    inMem := s.inMem.writeBytes a bytes
    inLen := a + bytes.length
    status := .busy
    hostQueue := [] }

/-- The word of the table, placed where the next step fetches it (log entry 18): a header at the first byte of the
stream; a token behind a header, at the position its row is written for: `k = 3` and `OFFW = 14`, so three bytes are
wanted at `POS = MWS = 8192`. -/
def State.placeTableWord (s : State) (nbits w : Nat) : State :=
  match tableShape nbits with
  | some (.header n) =>
    { s.withStreamAt 0 ((tableBytes nbits w).take n) with params := { s.params with hdrBytes := n } }
  | some (.token _ _) =>
    { s.withStreamAt (max 1 s.params.hdrBytes) (tableBytes nbits w) with
      pos := 8192
      mws := 8192#14
      len := 8192 + 3
      outCap := max s.outCap (8192 + 3) }
  | none => s

end Sys2Proof.Machine
end

