-- ==== Sys2Proof/Machine/Engine.lean ====
section
/-! DEFINITION. One architectural step of the engine (spec 00_scope.md R19, 45_orchestrator.md R192) and one action of the
host (10_state.md R38, 70_reset_and_hazards.md R253, R262). -/

namespace Sys2Proof.Machine

/-- The instruction at the cursor is fetched, decoded and executed. -/
def runFetched (s : State) : Answer :=
  match s.fetch with
  | .ok (i, _) => exec i s
  | .error _ => .refused .undecodable

/-- The engine's step while `BUSY`: the header at stream bit 0 (R192); a token while `POS < L`, unless its flag is cut off
(R193); else the `DONE` transition (R194). -/
def busyStep (s : State) : Answer :=
  if s.atHeader then runFetched s
  else if s.pos < s.len then
    if s.bitpos + flagBits ≤ 8 * s.inLen then runFetched s else .next (raiseTruncated s)
  else .next (complete s)

/-- The engine's step: it works while `BUSY` and waits for `START` otherwise (R192, R75 (c); log entry 13). -/
def engineStep (s : State) : Answer :=
  match s.status with
  | .busy => busyStep s
  | .idle => .next s
  | .done => .next s
  | .fault => .next s

/-- A host write, allowed while the engine is not `BUSY` (R38, R262) and where the register can hold the value. -/
def hostWrite (fits : Bool) (s t : State) : Answer :=
  if s.status = .busy then .refused .hostWriteWhileBusy
  else if fits then .next t
  else .refused .hostOutOfRange

/-- A host read of `OUT` (R38, R253): refused while `BUSY` (R262) and outside the buffer. It returns the byte as the host may
rely on it (R222, U1). -/
def hostReadOut (a : Nat) (s : State) : Answer :=
  if s.status = .busy then .refused .hostReadWhileBusy
  else if a < s.outCap then .next { s with hostRead := (s.hostOut a).toNat }
  else .refused .hostOutOfRange

/-- The host's `START` (R190): refused while `BUSY` (R263) and with overlapping buffers (R264). -/
def hostStart (s : State) : Answer :=
  if s.status = .busy then .refused .startWhileBusy
  else if s.buffersOverlap then .refused .overlappingBuffers
  else .next (start s)

/-- One action of the host. -/
def hostStep (a : HostAction) (s : State) : Answer :=
  match a with
  | .pass => engineStep s
  | .writeInLen n => hostWrite (n < 2 ^ s.params.addrW) s { s with inLen := n }
  | .writeOutCap n => hostWrite (n < 2 ^ s.params.addrW) s { s with outCap := n }
  | .writeFmtVer v =>
    hostWrite (-(2 ^ (s.params.verW - 1) : Int) ≤ v && v < 2 ^ (s.params.verW - 1)) s { s with fmtVer := v }
  | .writeIn x b => hostWrite (x < 2 ^ s.params.addrW) s { s with inMem := s.inMem.write x b }
  | .writeOut x b =>
    hostWrite (x < 2 ^ s.params.addrW) s
      { s with outMem := s.outMem.write x b, outLost := recoverAt x s.outLost }
  | .readStatus => .next { s with hostRead := s.status.code }
  | .readErrCode => .next { s with hostRead := s.errCode.code }
  | .readResultLen => .next { s with hostRead := s.resultLen }
  | .readOut x => hostReadOut x s
  | .start => hostStart s
  | .reset => .next (hardwareReset s)

/-- The next move of the machine: the host's pending action, or, with none pending, the engine's step (log entry 5). -/
def nextMove (s : State) : Answer :=
  match s.hostQueue with
  | [] => engineStep s
  | a :: rest => hostStep a { s with hostQueue := rest }

end Sys2Proof.Machine
end

