-- ==== Sys2Proof/Machine/Step.lean ====
section
/-! DEFINITION. The step of the machine and the placing of a table word. -/

namespace Sys2Proof.Machine

/-- One step (Machine/Engine.lean). -/
def step (s : State) : Host.Outcome State Fault Refusal := nextMove s

/-- The state in which the next step fetches and runs a word of the opcode table (Machine/Fetch.lean). -/
def State.withFetchWord (s : State) (nbits w : Nat) : State := s.placeTableWord nbits w

end Sys2Proof.Machine
end

