-- ==== Sys2Proof/Machine/Cursor.lean ====
section
/-! DEFINITION. The primitive `READ(n)` in the two forms the spec gives it (40_bit_cursor.md R120, R121). The instructions
take their fields by `readField` (Machine/Ops.lean), whose value the fetch has decoded; that this is `READ(n)` is an
obligation. -/

namespace Sys2Proof.Machine

/-- What a `READ(n)` answers: a value and the state after it, `TruncatedInput`, or a refusal (R125: `n` outside the
contract). -/
inductive ReadResult where
  | value (v : Nat) (s : State)
  | truncated (s : State)
  | refused (n : Nat)
deriving DecidableEq, Repr

/-- One pass of the loop of R121 on the byte at `BYTEIDX`: the next `take` unread bits go into `ACC`, and a byte that is
used up is left at once (R23). -/
def readPass (s : State) : State :=
  let take := min s.rem.toNat s.bitsAvail.toNat
  let chunk := ((s.inMem.read s.byteIdx).toNat >>> (8 - s.bitsAvail.toNat)) % 2 ^ take
  let t : State :=
    { s with
      acc := s.acc ||| (BitVec.ofNat 16 chunk <<< s.shift.toNat)
      shift := s.shift + BitVec.ofNat 5 take
      rem := s.rem - BitVec.ofNat 5 take
      bitsAvail := s.bitsAvail - BitVec.ofNat 4 take }
  if t.bitsAvail = 0 then { t with byteIdx := t.byteIdx + 1, bitsAvail := 8 } else t

/-- The loop of R121, with at most so many passes; `n` is the width asked for. -/
def readLoop (n : Nat) : Nat → State → ReadResult
  | 0, _ => .refused n
  | passes + 1, s =>
    if s.inLen ≤ s.byteIdx then .truncated s
    else if (readPass s).rem = 0 then .value ((readPass s).acc.toNat % 2 ^ n) (readPass s)
    else readLoop n passes (readPass s)

/-- `READ(n)`, operational form (R121). Every pass on a normalised cursor takes a bit, so `n` passes are enough. -/
def readBits (n : Nat) (s : State) : ReadResult :=
  if 1 ≤ n ∧ n ≤ readMax then
    readLoop n n { s with acc := 0#16, shift := 0#5, rem := BitVec.ofNat 5 n }
  else .refused n

/-- The value of the `n`-bit field that starts at stream bit `p` (R65). -/
def State.fieldAt (s : State) (p n : Nat) : Nat :=
  ((List.range n).map fun i => (s.streamBit (p + i)).toNat * 2 ^ i).sum

/-- Reads in a row: their values, and the state after the last; none if one of them does not return. -/
def readAll : List Nat → State → Option (List Nat × State)
  | [], s => some ([], s)
  | n :: ns, s =>
    match readBits n s with
    | .value v t =>
      match readAll ns t with
      | some (vs, u) => some (v :: vs, u)
      | none => none
    | .truncated _ => none
    | .refused _ => none

/-- Fields of the given widths put together, the first lowest (R68): `r1 | r2 << n1 | r3 << (n1 + n2) | ...`. -/
def joinFields : List Nat → List Nat → Nat
  | n :: ns, v :: vs => v ||| (joinFields ns vs <<< n)
  | _, _ => 0

end Sys2Proof.Machine
end

