-- ==== Sys2Proof/Machine/Reference.lean ====
section
/-! DEFINITION. The run as the spec's pseudocode writes it, beside the machine: the engine's step with every field taken by
`READ(n)` (spec R150, R162, R170, R193), and the whole run as one function of its inputs (45_orchestrator.md R196). That the
machine does the same is an obligation; the machine does not use this file. -/

namespace Sys2Proof.Machine

/-! ### The step by READs -/

/-- `v <- READ(n)`, then the rest; a `READ` that fails raises `TruncatedInput` (R122, R126). -/
def readThen (n : Nat) (s : State) (k : Nat → State → Flow) : Flow :=
  match readBits n s with
  | .value v t => k v t
  | .truncated t => .stop (.next (raiseTruncated t))
  | .refused m => .stop (.refused (.readWidth m))

/-- The header's loop (R150). -/
def headerLoopByReads : Nat → Nat → State → Flow
  | 0, _, s => .go s
  | n + 1, i, s =>
    readThen 8 s fun v t => headerLoopByReads n (i + 1) { t with len := t.len ||| (v <<< (8 * i)) }

/-- `HDR` (R150). -/
def headerByReads (s : State) : Answer :=
  ((headerLoopByReads s.params.hdrBytes 0 { s with len := 0 }).andThen fun t =>
    if t.len > t.outCap then .stop (.next (raise .capacityExceeded t)) else .go t).finish

/-- The literal's loop (R162). -/
def literalLoopByReads : Nat → State → Flow
  | 0, s => .go s
  | n + 1, s =>
    readThen 8 s fun v t => (emitByte (BitVec.ofNat 8 v) t).andThen (literalLoopByReads n)

/-- `LIT`, its flag read (R162). -/
def literalByReads (s : State) : Flow :=
  literalLoopByReads (min 3 (s.len - s.pos)) { s with cnt := BitVec.ofNat 8 (min 3 (s.len - s.pos)) }

/-- `MATCH`, its flag read (R170). -/
def matchByReads (s : State) : Flow :=
  let w := bitsReq (BitVec.ofNat 16 (min s.pos s.mws.toNat))
  readThen w { s with offw := BitVec.ofNat 5 w } fun o t =>
    readThen 8 { t with offset := BitVec.ofNat 16 o } fun l u =>
      let x : State := { u with matchLen := BitVec.ofNat 8 l }
      if x.offset.toNat = 0 ∨ x.offset.toNat > x.pos then .stop (.next (raise .invalidBackReference x))
      else
        let c := min x.matchLen.toNat (x.len - x.pos)
        copyBytes c { x with cnt := BitVec.ofNat 8 c }

/-- One token: the flag, then `LIT` or `MATCH` (R193). -/
def tokenByReads (s : State) : Answer :=
  (readThen 1 s fun f t =>
    let x : State := { t with flag := BitVec.ofNat 1 f }
    if f = 0 then literalByReads x else matchByReads x).finish

/-- The engine's step while `BUSY` (R192 to R194). -/
def busyByReads (s : State) : Answer :=
  if s.bitpos = 0 then headerByReads s
  else if s.pos < s.len then tokenByReads s
  else .next (complete s)

/-! ### The whole run -/

/-- The copy of a `MATCH` on the bytes produced so far (R176). -/
def copyFrom (offset : Nat) : Nat → List Byte → List Byte
  | 0, out => out
  | n + 1, out => copyFrom offset n (out ++ [out.getD (out.length - offset) 0])

/-- The token loop of R196 on the stream bits that are left and the bytes produced so far, with at most so many tokens. -/
def decompressTokens (len : Nat) (mws : BitVec 14) : Nat → List Bool → List Byte → Except ErrCode (List Byte)
  | 0, _, out => if out.length < len then .error .truncatedInput else .ok out
  | n + 1, bits, out =>
    if out.length < len then
      match decode (.token (litCount len out.length) (offWidth out.length mws)) bits with
      | .error _ => .error .truncatedInput
      | .ok (.hdr _, _) => .error .truncatedInput
      | .ok (.lit b0 b1 b2, rest) =>
        decompressTokens len mws n rest (out ++ [b0, b1, b2].take (litCount len out.length))
      | .ok (.matchTok offset length, rest) =>
        if offsetLegal offset out.length then
          decompressTokens len mws n rest (copyFrom offset.toNat (copyCount length len out.length) out)
        else .error .invalidBackReference
    else .ok out

/-- `decompress` (R196): the bytes produced, or the error. `bits` are the stream bits of `IN[0 .. IN_LEN-1]`; a token has at
least one bit, so as many tokens as bits are enough (R198). -/
def decompress (hdrBytes : Nat) (bits : List Bool) (outCap : Nat) (fmtVer : Int) : Except ErrCode (List Byte) :=
  if fmtVer < 0 then .error .formatVersionUnsupported
  else
    match decode (.header hdrBytes) bits with
    | .error _ => .error .truncatedInput
    | .ok (.lit _ _ _, _) => .error .truncatedInput
    | .ok (.matchTok _ _, _) => .error .truncatedInput
    | .ok (.hdr len, rest) =>
      if len > outCap then .error .capacityExceeded
      else decompressTokens len (matchWindowSize fmtVer) rest.length rest []

/-- The bytes a listing denotes (R106, R200), from the bytes produced so far; none where the listing is not well-formed
(each token fits its position, the tokens stop exactly when `POS = L`) or has an illegal offset. -/
def listingOutput (len : Nat) (mws : BitVec 14) : List Instr → List Byte → Option (List Byte)
  | [], out => if out.length = len then some out else none
  | i :: is, out =>
    if out.length < len ∧ i.wf (.token (litCount len out.length) (offWidth out.length mws)) = true then
      match i with
      | .hdr _ => none
      | .lit b0 b1 b2 => listingOutput len mws is (out ++ [b0, b1, b2].take (litCount len out.length))
      | .matchTok offset length =>
        if offsetLegal offset out.length then
          listingOutput len mws is (copyFrom offset.toNat (copyCount length len out.length) out)
        else none
    else none

/-- The stream bits of `IN[0 .. IN_LEN-1]` (R90). -/
def State.streamBits (s : State) : List Bool := (List.range (8 * s.inLen)).map s.streamBit

end Sys2Proof.Machine
end

