-- ==== Sys2Proof/Safety.lean ====
section
/-! DEFINITION. The invariant of the machine (spec 10_state.md R44, 00_scope.md R13, 20_memory.md R79) and what counts as a
safe answer, in the terms the obligations use. -/

namespace Sys2Proof.Machine

/-- Every register whose width is a parameter is in range (R10, R20). -/
abbrev State.InWidths (s : State) : Prop :=
  s.inLen < 2 ^ s.params.addrW ∧ s.outCap < 2 ^ s.params.addrW ∧ s.byteIdx < 2 ^ s.params.addrW ∧
  s.len < 2 ^ s.params.lenW ∧ s.pos < 2 ^ s.params.lenW ∧ s.resultLen < 2 ^ s.params.lenW ∧
  -(2 ^ (s.params.verW - 1) : Int) ≤ s.fmtVer ∧ s.fmtVer < 2 ^ (s.params.verW - 1)

/-- The cursor is in its normalised form (R23, R44 (a)). -/
abbrev State.CursorNormal (s : State) : Prop := 1 ≤ s.bitsAvail.toNat ∧ s.bitsAvail.toNat ≤ 8

/-- What holds at every instruction boundary while `BUSY` (R44): the cursor is normal and inside the stream, the version
was recognised and `MWS` is its window, `L` and `POS` are 0 until the header has been read, `POS <= L <= OUT_CAP`. -/
abbrev State.Running (s : State) : Prop :=
  s.CursorNormal ∧ s.bitpos ≤ 8 * s.inLen ∧
  0 ≤ s.fmtVer ∧ s.mws = matchWindowSize s.fmtVer ∧
  (s.bitpos = 0 → s.len = 0 ∧ s.pos = 0) ∧
  s.pos ≤ s.len ∧ s.len ≤ s.outCap

/-- What holds after a successful run (R44 (g), R37). -/
abbrev State.Finished (s : State) : Prop := s.CursorNormal ∧ s.pos = s.len ∧ s.resultLen = s.len

/-- The record of lost bytes is sound: no range is empty, and the free values of each have been drawn (log entries 6, 15). -/
abbrev State.LostSound (s : State) : Prop := ∀ r ∈ s.outLost, r.lo < r.hi ∧ r.key + r.hi ≤ s.freeCtr

/-- The invariant of the machine. -/
abbrev State.Inv (s : State) : Prop :=
  s.params.Legal ∧ s.InWidths ∧ s.inMem.wf ∧ s.outMem.wf ∧ s.LostSound ∧
  (s.errCode = .none ↔ s.status ≠ .fault) ∧
  (s.status ≠ .done → s.resultLen = 0) ∧
  (s.status = .busy → s.Running) ∧
  (s.status = .done → s.Finished)

/-- Two states the engine cannot tell apart (R199): everything is equal but `OUT`, and `OUT` is equal where this run has
written. -/
def State.SameRun (s t : State) : Prop :=
  t = { s with outMem := t.outMem } ∧ ∀ a, a < s.pos → s.outMem.read a = t.outMem.read a

end Sys2Proof.Machine
end

