-- ==== Sys2Proof/Certificates/Slice0/Obligations.lean ====
section
/-! DEFINITION. The statements for the provers. Each docstring names the rule or section of spec/ it formalises. -/

open Sys2Proof Sys2Proof.Machine

/-! ### The wire format -/

/-- Every well-formed instruction, with every operand its encoding admits, is decoded from its own bits, and the bits after
it are left (30_encoding.md R92 to R98). -/
def Obligations.DecodeEncode : Prop :=
  ∀ (sh : Shape) (i : Instr) (rest : List Bool), sh.wf = true → i.wf sh = true →
    decode sh (encode sh i ++ rest) = .ok (i, rest)

/-- Whatever is decoded is well-formed, and its encoding is the bits it was decoded from: no word has two readings. -/
def Obligations.EncodeDecode : Prop :=
  ∀ (sh : Shape) (i : Instr) (bits rest : List Bool), sh.wf = true → decode sh bits = .ok (i, rest) →
    i.wf sh = true ∧ encode sh i ++ rest = bits

/-- The decoder rejects exactly the lists of bits that end inside the instruction (30_encoding.md section 8). -/
def Obligations.DecodeAnswersWhenComplete : Prop :=
  ∀ (sh : Shape) (bits : List Bool),
    (∃ i rest, decode sh bits = .ok (i, rest)) ↔
      match sh with
      | .header n => 8 * n ≤ bits.length
      | .token k offw =>
        match bits with
        | [] => False
        | false :: rest => 8 * k ≤ rest.length
        | true :: rest => offw + 8 ≤ rest.length

/-- Words written out bit by bit in stream order from R92, R94, R95: `HDR` with `L = 5` in one byte, `LIT` of `0x44`,
`0x45`, and `MATCH` with offset 1 (two bits) and length 4. -/
def Obligations.DecodeSampleWords : Prop :=
  decode (.header 1) [true, false, true, false, false, false, false, false] = .ok (.hdr 5, []) ∧
  decode (.token 2 2)
      [false, false, false, true, false, false, false, true, false, true, false, true, false, false, false, true, false] =
    .ok (.lit 0x44#8 0x45#8 0#8, []) ∧
  decode (.token 3 2) [true, true, false, false, false, true, false, false, false, false, false] =
    .ok (.matchTok 1#16 4#8, [])

/-- Packing bits into enough bytes and reading the bytes' bits in stream order gives the bits back, padded with zeros
(30_encoding.md R107). -/
def Obligations.PackBytesKeepsBits : Prop :=
  ∀ (n : Nat) (bits : List Bool), bits.length ≤ 8 * n →
    bytesToBits (packBytes n bits) = bits ++ List.replicate (8 * n - bits.length) false

/-- A word of the opcode table, placed by the model's `withFetchWord`, is the instruction the next step runs (log entries
18 and 19). -/
def Obligations.TableWordRuns : Prop :=
  ∀ nbits w : Nat, nbits ≤ 64 →
    ∃ i, decodeTableWord nbits w = some i ∧
      step (State.reset.withFetchWord nbits w) = exec i (State.reset.withFetchWord nbits w)

/-! ### The primitives -/

/-- `READ(n)` (R120): with `n` in 1 to 16 and enough bits left, the operational loop of R121 returns the value of the next
`n` stream bits, below `2^n`, and ends `n` bits further; with too few bits it raises `TruncatedInput`; any other `n` is
refused. -/
def Obligations.ReadReturnsNextBits : Prop :=
  ∀ (s : State) (n : Nat), s.CursorNormal →
    (1 ≤ n → n ≤ 16 → s.bitpos + n ≤ 8 * s.inLen →
      readBits n s = .value (s.fieldAt s.bitpos n) (s.consume n (s.fieldAt s.bitpos n)) ∧
      (s.consume n (s.fieldAt s.bitpos n)).bitpos = s.bitpos + n ∧ s.fieldAt s.bitpos n < 2 ^ n) ∧
    (1 ≤ n → n ≤ 16 → 8 * s.inLen < s.bitpos + n → ∃ t, readBits n s = .truncated t) ∧
    ((n = 0 ∨ 16 < n) → readBits n s = .refused n)

/-- Several reads in a row are one read (R68, R123 (c)): if reads of widths `n1, ..., nm` return, one read of their sum, at
most 16, returns `r1 | r2 << n1 | ...` and leaves the same cursor; and one faults when the others do. -/
def Obligations.ReadsJoin : Prop :=
  ∀ (s : State) (ns : List Nat), s.CursorNormal → (∀ n ∈ ns, 1 ≤ n) → 1 ≤ ns.sum → ns.sum ≤ 16 →
    (∀ vs t, readAll ns s = some (vs, t) →
      ∃ u, readBits ns.sum s = .value (joinFields ns vs) u ∧ u.byteIdx = t.byteIdx ∧ u.bitsAvail = t.bitsAvail) ∧
    (readAll ns s = none ↔ ∃ u, readBits ns.sum s = .truncated u)

/-- `BITSREQ(n)` (R140): 1 for 0; else one more than the position of the highest set bit, the unique `w` with
`2^(w-1) <= n < 2^w`; always in 1 to 16. -/
def Obligations.BitsReqIsMinimalWidth : Prop :=
  ∀ n : BitVec 16,
    (n = 0 → bitsReq n = 1) ∧
    (n ≠ 0 → n.getLsbD (bitsReq n - 1) = true ∧ (∀ i, bitsReq n ≤ i → n.getLsbD i = false) ∧
      ∀ w, 1 ≤ w → ((2 ^ (w - 1) ≤ n.toNat ∧ n.toNat < 2 ^ w) ↔ w = bitsReq n)) ∧
    1 ≤ bitsReq n ∧ bitsReq n ≤ 16

/-- The values of `BITSREQ` (R142): the document's five, the whole table, and that it does not decrease. -/
def Obligations.BitsReqTable : Prop :=
  bitsReq 0 = 1 ∧ bitsReq 1 = 1 ∧ bitsReq 255 = 8 ∧ bitsReq 256 = 9 ∧ bitsReq 65535 = 16 ∧
  (∀ (n : BitVec 16) (k : Nat), 1 ≤ k → 2 ^ (k - 1) ≤ n.toNat → n.toNat < 2 ^ k → bitsReq n = k) ∧
  (∀ n m : BitVec 16, n.toNat ≤ m.toNat → bitsReq n ≤ bitsReq m)

/-- The offset width (R96): `BITSREQ(min(POS, MWS))`, and its value for every `POS` and version. -/
def Obligations.OffsetWidthTable : Prop :=
  (∀ pos mws, offWidth pos mws = bitsReq (BitVec.ofNat 16 (min pos mws.toNat))) ∧
  ∀ v : Int, 0 ≤ v →
    offWidth 0 (matchWindowSize v) = 1 ∧
    (∀ pos k, 1 ≤ k → k ≤ 13 → 2 ^ (k - 1) ≤ pos → pos < 2 ^ k → offWidth pos (matchWindowSize v) = k) ∧
    (∀ pos, 8192 ≤ pos → offWidth pos (matchWindowSize v) = if v = 0 then 14 else 13)

/-- `MWS(v)` (R8): 8192 for version 0, 8191 for every version above 0; for a negative version `START` raises
`FormatVersionUnsupported` and `MWS` is not set: it keeps its value (R190 and R28 as the model reads them, log entry 22). -/
def Obligations.WindowSizeByVersion : Prop :=
  matchWindowSize 0 = 8192#14 ∧ (∀ v : Int, 0 < v → matchWindowSize v = 8191#14) ∧
  ∀ s : State, s.fmtVer < 0 →
    (start s).status = .fault ∧ (start s).errCode = .formatVersionUnsupported ∧ (start s).mws = s.mws

/-! ### HDR -/

/-- `HDR` with its bits there and `L <= OUT_CAP` (R150, R151): `L` is the header's value, the cursor is `8 * HDR_BYTES` bits
on, and nothing else changes but the temporaries of `READ`. `ACC`, `SHIFT`, `REM` are as the loop of R121 leaves them, which is
the model's reading (log entry 9; R34 gives them no meaning). -/
def Obligations.HdrCompletes : Prop :=
  ∀ (s : State) (len : Nat), 1 ≤ s.params.hdrBytes → s.bitpos + 8 * s.params.hdrBytes ≤ 8 * s.inLen →
    len < 2 ^ (8 * s.params.hdrBytes) → len ≤ s.outCap →
    exec (.hdr len) s = .next { s.setBitpos (s.bitpos + 8 * s.params.hdrBytes) with
      len := len
      acc := BitVec.ofNat 16 (headerByte len (s.params.hdrBytes - 1))
      shift := 8#5
      rem := 0#5 }

/-- `HDR` with its bits there and `L > OUT_CAP` (R152): `CapacityExceeded` is raised (R222) after the whole header is read, in
the state the reading leaves; no memory is touched. `ACC`, `SHIFT`, `REM` are as the loop of R121 leaves them, which is the
model's reading (log entry 9). -/
def Obligations.HdrTooLong : Prop :=
  ∀ (s : State) (len : Nat), 1 ≤ s.params.hdrBytes → s.bitpos + 8 * s.params.hdrBytes ≤ 8 * s.inLen →
    len < 2 ^ (8 * s.params.hdrBytes) → s.outCap < len →
    exec (.hdr len) s = .next (raise .capacityExceeded { s.setBitpos (s.bitpos + 8 * s.params.hdrBytes) with
      len := len
      acc := BitVec.ofNat 16 (headerByte len (s.params.hdrBytes - 1))
      shift := 8#5
      rem := 0#5 })

/-- `HDR` cut off by the end of the stream (R153): `TruncatedInput` is raised whatever `OUT_CAP` is, and `L` holds the bytes
read so far in its low part. The cursor and the temporaries of `READ` are unspecified (R126); nothing else changes: that
`FLAG`, `OFFW`, `OFFSET`, `LENGTH`, `CNT` keep their values is the model's reading of R126 against 93 U7 (log entry 8). -/
def Obligations.HdrTruncated : Prop :=
  ∀ (s : State) (len : Nat), 1 ≤ s.params.hdrBytes → 8 * s.inLen < s.bitpos + 8 * s.params.hdrBytes →
    ∃ u, exec (.hdr len) s = .next (raise .truncatedInput u) ∧
      u = { s with
        byteIdx := u.byteIdx, bitsAvail := u.bitsAvail, acc := u.acc, shift := u.shift, rem := u.rem
        freeCtr := u.freeCtr
        len := len % 2 ^ (8 * ((8 * s.inLen - s.bitpos) / 8)) }

/-- The header at stream bit 0 (R66, R155): the fetched `L` is `sum of IN[i] * 2^(8i)`, a function of the first `HDR_BYTES`
bytes alone. -/
def Obligations.HeaderValueFromItsBytes : Prop :=
  ∀ s : State, s.bitpos = 0 → s.params.hdrBytes ≤ s.inLen →
    s.fetch = .ok (.hdr (((List.range s.params.hdrBytes).map fun i => (s.inMem.read i).toNat * 2 ^ (8 * i)).sum), [])

/-! ### LIT -/

/-- `LIT` with its bits there, in a state where a token may stand (R162): the `k = min(3, L - POS)` bytes are written from
`POS` on, `POS` and the cursor advance, `CNT` has counted down to 0; nothing else changes but `FLAG` and the temporaries of
`READ`. `ACC`, `SHIFT`, `REM` are as the loop of R121 leaves them, which is the model's reading (log entry 9). -/
def Obligations.LitCompletes : Prop :=
  ∀ (s : State) (b0 b1 b2 : Byte), s.pos < s.len → s.len ≤ s.outCap →
    s.bitpos + (1 + 8 * litCount s.len s.pos) ≤ 8 * s.inLen →
    exec (.lit b0 b1 b2) s = .next { s.setBitpos (s.bitpos + (1 + 8 * litCount s.len s.pos)) with
      flag := 0#1
      cnt := 0#8
      acc := BitVec.ofNat 16 ([b0, b1, b2].getD (litCount s.len s.pos - 1) 0).toNat
      shift := 8#5
      rem := 0#5
      pos := s.pos + litCount s.len s.pos
      outMem := s.outMem.writeBytes s.pos ([b0, b1, b2].take (litCount s.len s.pos)) }

/-- What `OUT` holds after a `LIT` (R162): the literal bytes from `POS` on, `B0` at the lowest index, and every other byte as
before. -/
def Obligations.LitWritesItsBytes : Prop :=
  ∀ (s t : State) (b0 b1 b2 : Byte), s.pos < s.len → s.len ≤ s.outCap →
    s.bitpos + (1 + 8 * litCount s.len s.pos) ≤ 8 * s.inLen → exec (.lit b0 b1 b2) s = .next t →
    ∀ a, t.outMem.read a =
      if s.pos ≤ a ∧ a < s.pos + litCount s.len s.pos then [b0, b1, b2].getD (a - s.pos) 0 else s.outMem.read a

/-- `LIT` cut off in its bytes (R163): the `j` bytes before the one that could not be read are written, `POS` counts them,
and `TruncatedInput` is raised (R222). The cursor and the temporaries of `READ` are unspecified (R126). That `FLAG` is the flag
read, `CNT` counts the bytes not yet written, and the other token registers keep their values is the model's reading of R126
against 93 U7 (log entry 8). -/
def Obligations.LitTruncatedPartialState : Prop :=
  ∀ (s : State) (b0 b1 b2 : Byte), s.len ≤ s.outCap → s.bitpos + 1 ≤ 8 * s.inLen →
    8 * s.inLen < s.bitpos + (1 + 8 * litCount s.len s.pos) →
    ∃ u j, j = (8 * s.inLen - (s.bitpos + 1)) / 8 ∧ j < litCount s.len s.pos ∧
      exec (.lit b0 b1 b2) s = .next (raise .truncatedInput u) ∧
      u = { s with
        byteIdx := u.byteIdx, bitsAvail := u.bitsAvail, acc := u.acc, shift := u.shift, rem := u.rem
        freeCtr := u.freeCtr
        flag := 0#1
        cnt := BitVec.ofNat 8 (litCount s.len s.pos - j)
        pos := s.pos + j
        outMem := s.outMem.writeBytes s.pos ([b0, b1, b2].take j) }

/-! ### MATCH -/

/-- `MATCH` with its bits there and a legal offset (R170, R175 to R177): `c = min(LENGTH, L - POS)` bytes are appended, byte
`j` being the old byte at `POS - OFFSET + (j mod OFFSET)`, overlap or not; every other byte of `OUT` is as before; `POS`, the
cursor and the token registers are as the rules say and nothing else changes but the temporaries of `READ`. `ACC`, `SHIFT`,
`REM` are as the loop of R121 leaves them, which is the model's reading (log entry 9). -/
def Obligations.MatchCompletes : Prop :=
  ∀ (s : State) (offset : BitVec 16) (length : Byte), s.pos ≤ s.len → s.len ≤ s.outCap →
    1 ≤ offset.toNat → offset.toNat ≤ s.pos → s.bitpos + (9 + offWidth s.pos s.mws) ≤ 8 * s.inLen →
    ∃ m : Memory,
      exec (.matchTok offset length) s = .next { s.setBitpos (s.bitpos + (9 + offWidth s.pos s.mws)) with
        flag := 1#1
        offw := BitVec.ofNat 5 (offWidth s.pos s.mws)
        offset := offset
        matchLen := length
        cnt := 0#8
        acc := BitVec.ofNat 16 length.toNat
        shift := 8#5
        rem := 0#5
        pos := s.pos + copyCount length s.len s.pos
        outMem := m } ∧
      (∀ j, j < copyCount length s.len s.pos →
        m.read (s.pos + j) = s.outMem.read (s.pos - offset.toNat + j % offset.toNat)) ∧
      (∀ a, a < s.pos ∨ s.pos + copyCount length s.len s.pos ≤ a → m.read a = s.outMem.read a)

/-- The check of the back-reference (R174): with both fields there, an offset that is 0 or exceeds `POS` raises
`InvalidBackReference` (R222) whatever the length is, with nothing copied; an offset from 1 to `POS` raises no error. `ACC`,
`SHIFT`, `REM` are as the loop of R121 leaves them, which is the model's reading (log entry 9). -/
def Obligations.MatchChecksOffset : Prop :=
  ∀ (s : State) (offset : BitVec 16) (length : Byte), s.bitpos + (9 + offWidth s.pos s.mws) ≤ 8 * s.inLen →
    ((offset.toNat = 0 ∨ s.pos < offset.toNat) →
      exec (.matchTok offset length) s =
        .next (raise .invalidBackReference { s.setBitpos (s.bitpos + (9 + offWidth s.pos s.mws)) with
          flag := 1#1
          offw := BitVec.ofNat 5 (offWidth s.pos s.mws)
          offset := offset
          matchLen := length
          acc := BitVec.ofNat 16 length.toNat
          shift := 8#5
          rem := 0#5 })) ∧
    (1 ≤ offset.toNat → offset.toNat ≤ s.pos → s.pos ≤ s.len → s.len ≤ s.outCap →
      s.pos - offset.toNat ≤ s.pos - 1 ∧
      ∃ t, exec (.matchTok offset length) s = .next t ∧ t.status = s.status ∧ t.errCode = s.errCode)

/-- `MATCH` cut off in its offset or its length (R173, R179): `TruncatedInput` is raised even if the offset is bad, no byte of
`OUT` written, `POS` unchanged. The cursor and the temporaries of `READ` are unspecified (R126). That `FLAG`, `OFFW` and an
`OFFSET` read before the cut hold what was read, and `LENGTH`, `CNT` and an `OFFSET` not read keep their values, is the
model's reading of R126 against 93 U7 (log entry 8). -/
def Obligations.MatchTruncated : Prop :=
  ∀ (s : State) (offset : BitVec 16) (length : Byte), s.bitpos + 1 ≤ 8 * s.inLen →
    8 * s.inLen < s.bitpos + (9 + offWidth s.pos s.mws) →
    ∃ u, exec (.matchTok offset length) s = .next (raise .truncatedInput u) ∧
      u = { s with
        byteIdx := u.byteIdx, bitsAvail := u.bitsAvail, acc := u.acc, shift := u.shift, rem := u.rem
        freeCtr := u.freeCtr
        flag := 1#1
        offw := BitVec.ofNat 5 (offWidth s.pos s.mws)
        offset := if s.bitpos + (1 + offWidth s.pos s.mws) ≤ 8 * s.inLen then offset else s.offset }

/-- A `MATCH` of length 0 with a legal offset (R178): nothing is written, `POS` stays, `9 + OFFW` bits are consumed. `ACC`,
`SHIFT`, `REM` are as the loop of R121 leaves them, which is the model's reading (log entry 9). -/
def Obligations.MatchOfLengthZero : Prop :=
  ∀ (s : State) (offset : BitVec 16), 1 ≤ offset.toNat → offset.toNat ≤ s.pos →
    s.bitpos + (9 + offWidth s.pos s.mws) ≤ 8 * s.inLen →
    exec (.matchTok offset 0#8) s = .next { s.setBitpos (s.bitpos + (9 + offWidth s.pos s.mws)) with
      flag := 1#1
      offw := BitVec.ofNat 5 (offWidth s.pos s.mws)
      offset := offset
      matchLen := 0#8
      cnt := 0#8
      acc := 0#16
      shift := 8#5
      rem := 0#5 }

/-- A `MATCH` at `POS = 0` (R180): `OFFW = 1`, and it faults with `InvalidBackReference` if its 10 bits are there, else with
`TruncatedInput`. -/
def Obligations.MatchCannotComeFirst : Prop :=
  ∀ (s : State) (offset : BitVec 16) (length : Byte), s.pos = 0 →
    offWidth s.pos s.mws = 1 ∧
    ∃ t, exec (.matchTok offset length) s = .next t ∧ t.status = .fault ∧ t.outMem = s.outMem ∧
      t.errCode = if s.bitpos + 10 ≤ 8 * s.inLen then .invalidBackReference else .truncatedInput

/-- A token whose flag is cut off (R193, R211): `TruncatedInput`, whichever token it was to be, and the engine's step says the
same without an instruction. -/
def Obligations.FlagTruncated : Prop :=
  ∀ s : State, 8 * s.inLen < s.bitpos + 1 →
    (∀ b0 b1 b2, exec (.lit b0 b1 b2) s = .next (raiseTruncated s)) ∧
    (∀ offset length, exec (.matchTok offset length) s = .next (raiseTruncated s)) ∧
    (s.hostQueue = [] → s.status = .busy → s.bitpos ≠ 0 → s.pos < s.len → step s = .next (raiseTruncated s))

/-! ### The engine's step -/

/-- The step executes the decoded instruction: with no host action pending, the engine `BUSY`, and the header or a token with
its flag at the cursor, `step` is `exec` of what the fetch decodes, and nothing is added around it (R192, R193). -/
def Obligations.StepRunsDecoded : Prop :=
  ∀ (s : State) (i : Instr) (rest : List Bool), s.hostQueue = [] → s.status = .busy →
    (s.bitpos = 0 ∨ (s.pos < s.len ∧ s.bitpos + 1 ≤ 8 * s.inLen)) → s.fetch = .ok (i, rest) →
    step s = exec i s

/-- What the engine fetches where an instruction may stand is well-formed there (R90 to R97). -/
def Obligations.FetchIsWellFormed : Prop :=
  ∀ s : State, s.params.Legal → (s.bitpos = 0 ∨ s.pos < s.len) →
    ∃ i rest, s.fetch = .ok (i, rest) ∧ s.shape.wf = true ∧ i.wf s.shape = true

/-- The `DONE` transition (R194): when the loop test finds `POS = L`, `RESULT_LEN <- POS`, `STATUS <- DONE`, and nothing else;
the model's own record of lost bytes is left open here (log entry 15). -/
def Obligations.DoneTransition : Prop :=
  ∀ s : State, s.hostQueue = [] → s.status = .busy → s.bitpos ≠ 0 → s.pos = s.len →
    ∃ l, step s = .next { s with resultLen := s.pos, status := .done, outLost := l }

/-- The engine does nothing while it is not `BUSY` (R192, R75 (c)). -/
def Obligations.EngineWaits : Prop :=
  ∀ s : State, s.hostQueue = [] → s.status ≠ .busy → step s = .next s

/-- Every instruction that completes advances the cursor by exactly its length, inside the stream, and `START` sets it to 0
(R25). That a `START` which faults on a negative version has set the cursor to 0 too is the model's reading of R190 and R252
(log entry 22). -/
def Obligations.CursorAdvances : Prop :=
  (∀ (i : Instr) (s t : State), 1 ≤ s.params.hdrBytes → s.status = .busy → exec i s = .next t → t.status = .busy →
    t.bitpos = s.bitpos + (match i with
      | .hdr _ => 8 * s.params.hdrBytes
      | .lit _ _ _ => 1 + 8 * litCount s.len s.pos
      | .matchTok _ _ => 1 + offWidth s.pos s.mws + 8) ∧
    t.bitpos ≤ 8 * s.inLen) ∧
  ∀ s : State, (start s).bitpos = 0

/-- The engine never writes the configuration, the parameters or the stream, and leaves the host's part alone (R21, R60). -/
def Obligations.EngineNeverWritesInputs : Prop :=
  ∀ s t : State, engineStep s = .next t →
    t.params = s.params ∧ t.inLen = s.inLen ∧ t.outCap = s.outCap ∧ t.fmtVer = s.fmtVer ∧ t.inMem = s.inMem ∧
    t.hostQueue = s.hostQueue ∧ t.hostRead = s.hostRead

/-- `OUT` is written at the indices from the old `POS` up to the new one only, never at or beyond `L` (R79, R197). -/
def Obligations.OutWritesBounded : Prop :=
  ∀ s t : State, s.status = .busy → s.Running → engineStep s = .next t →
    s.pos ≤ t.pos ∧ t.pos ≤ t.len ∧ (s.pos < t.pos → t.len ≤ s.outCap) ∧
    ∀ a, a < s.pos ∨ t.pos ≤ a → t.outMem.read a = s.outMem.read a

/-- Nothing of `IN` at or beyond `IN_LEN` reaches the engine (R60, R70): a step with other bytes there is the same step. -/
def Obligations.StreamEndsAtItsLength : Prop :=
  ∀ (s : State) (m : Memory), (∀ a, a < s.inLen → m.read a = s.inMem.read a) →
    engineStep { s with inMem := m } =
      match engineStep s with
      | .next t => .next { t with inMem := m }
      | .fault f => .fault f
      | .refused r => .refused r

/-- The step of the machine is the spec's pseudocode with every field taken by `READ(n)` (R150, R162, R170, R193, R194). -/
def Obligations.StepIsPseudocode : Prop :=
  ∀ s : State, s.CursorNormal → busyStep s = busyByReads s

/-! ### Start, errors, status, the host -/

/-- The state after `START` with a recognised version (R43): cursor at bit 0, `POS = 0`, `L = 0`, `MWS = MWS(FMT_VER)`,
`BUSY`, results cleared. Whatever the version, `START` leaves the configuration, the parameters of the instance (log entry 3)
and the memories as they are, and of the model's own fields the host's pending actions and its last read (log entries 5 and
15). Nothing is said of the registers R43 leaves unspecified. With a recognised version the host may rely on the same bytes of
`OUT` as before (log entry 15). -/
def Obligations.StartState : Prop :=
  ∀ s : State,
    ((start s).params = s.params ∧ (start s).inLen = s.inLen ∧ (start s).outCap = s.outCap ∧
      (start s).fmtVer = s.fmtVer ∧ (start s).inMem = s.inMem ∧ (start s).outMem = s.outMem ∧
      (start s).hostQueue = s.hostQueue ∧ (start s).hostRead = s.hostRead) ∧
    (0 ≤ s.fmtVer →
      (start s).byteIdx = 0 ∧ (start s).bitsAvail = 8 ∧ (start s).bitpos = 0 ∧ (start s).pos = 0 ∧ (start s).len = 0 ∧
      (start s).mws = matchWindowSize s.fmtVer ∧ (start s).status = .busy ∧ (start s).errCode = .none ∧
      (start s).resultLen = 0 ∧ ∀ a, (start s).hostOut a = s.hostOut a)

/-- `START` with a negative version (R191, R214): `FormatVersionUnsupported`, before any memory access. -/
def Obligations.StartRefusesNegativeVersion : Prop :=
  ∀ s : State, s.fmtVer < 0 →
    (start s).status = .fault ∧ (start s).errCode = .formatVersionUnsupported ∧ (start s).resultLen = 0 ∧
    (start s).pos = 0 ∧ (start s).inMem = s.inMem ∧ (start s).outMem = s.outMem

/-- The host's `START` as a step (R190, R263, R264): accepted while not `BUSY` with disjoint buffers, else refused. -/
def Obligations.HostStart : Prop :=
  ∀ (s : State) (q : List HostAction), s.hostQueue = .start :: q →
    (s.status ≠ .busy → s.buffersOverlap = false → step s = .next (start { s with hostQueue := q })) ∧
    (s.status = .busy → step s = .refused .startWhileBusy) ∧
    (s.status ≠ .busy → s.buffersOverlap = true → step s = .refused .overlappingBuffers)

/-- Two buffers in one storage overlap exactly when some index of `IN` and some index of `OUT` are one address (R264). -/
def Obligations.OverlapMeansSharedByte : Prop :=
  ∀ (s : State) (p : Placement), s.params.platform = some p →
    (s.buffersOverlap = true ↔ ∃ i o, i < s.inLen ∧ o < s.outCap ∧ p.inBase + i = p.outBase + o)

/-- What `raise E` does (R222): `ERR_CODE` is the code, `RESULT_LEN` is 0, `STATUS` is `FAULT`; `POS`, `OUT` and all else are
as the sequential execution left them. Of the model's own fields the record of lost bytes and the count of free values change
(log entries 6 and 15). -/
def Obligations.RaiseRecordsTheError : Prop :=
  ∀ (e : ErrCode) (s : State),
    (∃ l k, raise e s = { s with errCode := e, resultLen := 0, status := .fault, outLost := l, freeCtr := k }) ∧
    (raiseTruncated s).errCode = .truncatedInput ∧ (raiseTruncated s).resultLen = 0 ∧
    (raiseTruncated s).status = .fault ∧ (raiseTruncated s).pos = s.pos ∧ (raiseTruncated s).outMem = s.outMem

/-- What the host may rely on after a fault (R222, 93 U1): a byte of `OUT` below `POS` is the one the run left there; each
byte of the buffer from `POS` on is a free value that nothing has used before the fault; beyond both nothing changes for the
host. (How the model says "unspecified" is its own choice, log entries 6 and 15.) -/
def Obligations.FaultLosesTail : Prop :=
  ∀ (e : ErrCode) (s : State) (a : Nat),
    (a < s.pos → (raise e s).hostOut a = s.outMem.read a) ∧
    (s.pos ≤ a → a < s.outCap →
      ∃ k, s.freeCtr ≤ k ∧ k < (raise e s).freeCtr ∧ (raise e s).hostOut a = Config.freeBits 8 k) ∧
    (s.pos ≤ a → s.outCap ≤ a → (raise e s).hostOut a = s.hostOut a)

/-- Between runs what the host may rely on in `OUT` stays (R222, R250, R254): no step from a state that is not `BUSY` changes
it at any index, hardware reset and a `START` with a recognised version included, but for a host write and a `START` that
faults. So what a fault has left unspecified stays so until the host or a run writes it, or a reset during a run
makes it unspecified anew (log entries 15 and 16). -/
def Obligations.HostViewPersists : Prop :=
  ∀ s t : State, s.status ≠ .busy → (∀ x b, s.hostQueue.head? ≠ some (.writeOut x b)) →
    (s.hostQueue.head? = some .start → 0 ≤ s.fmtVer) → step s = .next t → ∀ a, t.hostOut a = s.hostOut a

/-- The numbers of `STATUS` and `ERR_CODE` (R35, R36). -/
def Obligations.StatusAndErrorCodes : Prop :=
  Status.code .idle = 0 ∧ Status.code .busy = 1 ∧ Status.code .done = 2 ∧ Status.code .fault = 3 ∧
  ErrCode.code .none = 0 ∧ ErrCode.code .truncatedInput = 1 ∧ ErrCode.code .capacityExceeded = 2 ∧
  ErrCode.code .invalidBackReference = 3 ∧ ErrCode.code .formatVersionUnsupported = 4 ∧
  ∀ e : ErrCode, e.code ≤ 4

/-- The only changes of `STATUS` (R35): from `BUSY` to `DONE` or `FAULT` when the engine moves; from a state that is not `BUSY`,
by `START`, to `BUSY` with a recognised version and to `FAULT` with a negative one; to `IDLE` by reset. -/
def Obligations.StatusTransitions : Prop :=
  ∀ s t : State, step s = .next t →
    t.status = s.status ∨
    (s.status = .busy ∧ (s.hostQueue.head? = none ∨ s.hostQueue.head? = some .pass) ∧
      (t.status = .done ∨ t.status = .fault)) ∨
    (s.status ≠ .busy ∧ s.hostQueue.head? = some .start ∧
      ((0 ≤ s.fmtVer ∧ t.status = .busy) ∨ (s.fmtVer < 0 ∧ t.status = .fault))) ∨
    (s.hostQueue.head? = some .reset ∧ t.status = .idle)

/-- A completed run's result stays until `START` or reset (R224): no other host action and no step of the waiting engine
changes `STATUS`, `ERR_CODE` or `RESULT_LEN`. -/
def Obligations.ResultPersists : Prop :=
  ∀ (s t : State), s.status ≠ .busy → s.hostQueue.head? ≠ some .start → s.hostQueue.head? ≠ some .reset →
    step s = .next t → t.status = s.status ∧ t.errCode = s.errCode ∧ t.resultLen = s.resultLen

/-- While `BUSY` every host write, every host access to `OUT` and `START` are refused, and the result registers can be read
(R38, R262, R263). -/
def Obligations.HostQuiescence : Prop :=
  ∀ s : State, s.status = .busy →
    (∀ n, hostStep (.writeInLen n) s = .refused .hostWriteWhileBusy) ∧
    (∀ n, hostStep (.writeOutCap n) s = .refused .hostWriteWhileBusy) ∧
    (∀ v, hostStep (.writeFmtVer v) s = .refused .hostWriteWhileBusy) ∧
    (∀ a b, hostStep (.writeIn a b) s = .refused .hostWriteWhileBusy) ∧
    (∀ a b, hostStep (.writeOut a b) s = .refused .hostWriteWhileBusy) ∧
    (∀ a, hostStep (.readOut a) s = .refused .hostReadWhileBusy) ∧
    hostStep .start s = .refused .startWhileBusy ∧
    hostStep .readStatus s = .next { s with hostRead := 1 } ∧
    hostStep .readErrCode s = .next { s with hostRead := s.errCode.code } ∧
    hostStep .readResultLen s = .next { s with hostRead := s.resultLen }

/-- The host reads `STATUS`, `ERR_CODE` and `RESULT_LEN` at any time, whatever the status is (R38, R262), and gets their
values; nothing changes but what its last read returned (log entry 15). -/
def Obligations.HostReadsResults : Prop :=
  ∀ (s : State) (q : List HostAction),
    (s.hostQueue = .readStatus :: q → step s = .next { s with hostQueue := q, hostRead := s.status.code }) ∧
    (s.hostQueue = .readErrCode :: q → step s = .next { s with hostQueue := q, hostRead := s.errCode.code }) ∧
    (s.hostQueue = .readResultLen :: q → step s = .next { s with hostQueue := q, hostRead := s.resultLen })

/-- While not `BUSY` the host's writes take effect where the register can hold the value or the index exists, and only there
(R21, R38): elsewhere they are refused (log entry 14). `IN` and `OUT` take writes at every index `ADDR_W` bits can name, whatever
`IN_LEN` and `OUT_CAP` hold (log entry 23). A byte of `OUT` the host has written is the one it may rely on (log entry 15). -/
def Obligations.HostWritesTakeEffect : Prop :=
  ∀ s : State, s.status ≠ .busy →
    (∀ n, hostStep (.writeInLen n) s =
      if n < 2 ^ s.params.addrW then .next { s with inLen := n } else .refused .hostOutOfRange) ∧
    (∀ n, hostStep (.writeOutCap n) s =
      if n < 2 ^ s.params.addrW then .next { s with outCap := n } else .refused .hostOutOfRange) ∧
    (∀ v, hostStep (.writeFmtVer v) s =
      if -(2 ^ (s.params.verW - 1) : Int) ≤ v ∧ v < 2 ^ (s.params.verW - 1) then .next { s with fmtVer := v }
      else .refused .hostOutOfRange) ∧
    (∀ a b, a < 2 ^ s.params.addrW → ∃ m : Memory, hostStep (.writeIn a b) s = .next { s with inMem := m } ∧
      ∀ x, m.read x = if x = a then b else s.inMem.read x) ∧
    (∀ a b, 2 ^ s.params.addrW ≤ a → hostStep (.writeIn a b) s = .refused .hostOutOfRange) ∧
    (∀ a b, a < 2 ^ s.params.addrW → ∃ (m : Memory) (l : List LostRange),
      hostStep (.writeOut a b) s = .next { s with outMem := m, outLost := l } ∧
      (∀ x, m.read x = if x = a then b else s.outMem.read x) ∧
      ∀ x, { s with outMem := m, outLost := l }.hostOut x = if x = a then b else s.hostOut x) ∧
    (∀ a b, 2 ^ s.params.addrW ≤ a → hostStep (.writeOut a b) s = .refused .hostOutOfRange)

/-- The host's read of `OUT` while not `BUSY` (R38, R253): inside the buffer it returns the byte as the host may rely on it
(R222; log entry 15) and changes nothing else; outside it is refused (log entry 14). -/
def Obligations.HostReadsOut : Prop :=
  ∀ (s : State) (a : Nat), s.status ≠ .busy →
    (a < s.outCap → hostStep (.readOut a) s = .next { s with hostRead := (s.hostOut a).toNat }) ∧
    (s.outCap ≤ a → hostStep (.readOut a) s = .refused .hostOutOfRange)

/-- Hardware reset at any time (R250, R251): `IDLE`, no error, `RESULT_LEN = 0`; `IN` is not touched, `OUT` only if a run was
going on, and never at or beyond `OUT_CAP`. If a run was going on, every byte of the buffer, in the memory and for the host, is
a free value that nothing has used before the reset, whatever an earlier fault left there (93 U2; log entries 6 and 16);
elsewhere the host may rely on the same bytes as before. -/
def Obligations.HardwareReset : Prop :=
  ∀ (s : State) (q : List HostAction), s.hostQueue = .reset :: q →
    ∃ t, step s = .next t ∧ t.status = .idle ∧ t.errCode = .none ∧ t.resultLen = 0 ∧ t.params = s.params ∧
      t.inMem = s.inMem ∧ (s.status ≠ .busy → t.outMem = s.outMem) ∧
      (s.status = .busy → ∀ a, a < s.outCap → ∃ k, s.freeCtr ≤ k ∧ k < t.freeCtr ∧
        t.outMem.read a = Config.freeBits 8 k ∧ t.hostOut a = Config.freeBits 8 k) ∧
      (∀ a, s.outCap ≤ a → t.outMem.read a = s.outMem.read a) ∧
      ∀ a, (s.status ≠ .busy ∨ s.outCap ≤ a) → t.hostOut a = s.hostOut a

/-- No step, of the engine or of the host, hardware reset and `START` included, changes the parameters of the instance
(00_scope.md R7, R41; R266 as to `HDR_BYTES`; log entry 3). -/
def Obligations.ParametersNeverChange : Prop :=
  ∀ s t : State, step s = .next t → t.params = s.params

/-! ### The whole machine -/

/-- After reset, with any legal parameters, the invariant holds; `STATUS`, `ERR_CODE`, `RESULT_LEN` are as R42 says. (The
other registers' values at reset are the model's choice, log entry 1.) -/
def Obligations.ResetHasInvariant : Prop :=
  ∀ p : Params, p.Legal →
    (State.resetWith p).Inv ∧ (State.resetWith p).status = .idle ∧ (State.resetWith p).errCode = .none ∧
    (State.resetWith p).resultLen = 0

/-- Every step, of the engine or of the host, keeps the invariant (R44, R13): the cursor normal and inside the stream,
`POS <= L <= OUT_CAP`, every register within its width, the memories in canonical form, `POS = L = RESULT_LEN` at `DONE`; and the
model's own record of lost bytes uses free values already drawn only (log entry 15). -/
def Obligations.StepKeepsInvariant : Prop :=
  ∀ s t : State, s.Inv → step s = .next t → t.Inv

/-- From every state with the invariant no step ends in a fault of the model, that is in an `OUT` access outside the buffer
(R79), and with no host action pending the step has a next state. -/
def Obligations.EngineNeverStops : Prop :=
  ∀ s : State, s.Inv → (∀ f, step s ≠ .fault f) ∧ (s.hostQueue = [] → ∃ t, step s = .next t)

/-- Every run ends (R198): with no host action pending the engine leaves `BUSY` within one step for every eight unread bits
and one more. -/
def Obligations.RunEnds : Prop :=
  ∀ s : State, s.Inv → s.hostQueue = [] →
    ∃ n t, n ≤ (8 * s.inLen - s.bitpos) / 8 + 1 ∧ Host.Core.run Sys2Proof.core n s = .next t ∧ t.status ≠ .busy

/-- The engine reads no byte of `OUT` that its run has not written (R199): states that differ only in `OUT` from `POS` on
step to states that differ only there. -/
def Obligations.OldOutputHasNoInfluence : Prop :=
  ∀ s t s' : State, s.status = .busy → s.Running → s.SameRun t → engineStep s = .next s' →
    ∃ t', engineStep t = .next t' ∧ s'.SameRun t'

/-- A run of the machine is `decompress` of R196: from any state that is not `BUSY`, `START` leads to `DONE` with the bytes of
`decompress` in `OUT[0 .. RESULT_LEN-1]` and every other byte as the host left it (R197), or to `FAULT` with its error. On
success the same holds of what the host may rely on in `OUT`, whatever earlier runs left (log entry 15). -/
def Obligations.RunIsDecompress : Prop :=
  ∀ s : State, s.Inv → s.status ≠ .busy → s.hostQueue = [.start] → s.buffersOverlap = false →
    ∃ n t, Host.Core.run Sys2Proof.core n s = .next t ∧ t.hostQueue = [] ∧
      match decompress s.params.hdrBytes s.streamBits s.outCap s.fmtVer with
      | .ok out =>
        t.status = .done ∧ t.errCode = .none ∧ t.resultLen = out.length ∧
        ∀ a, t.outMem.read a = (if a < out.length then out.getD a 0 else s.outMem.read a) ∧
          t.hostOut a = if a < out.length then out.getD a 0 else s.hostOut a
      | .error e => t.status = .fault ∧ t.errCode = e ∧ t.resultLen = 0

/-- Input after the last token is ignored (R70): more bits behind a stream that decodes change nothing. -/
def Obligations.TrailingInputIgnored : Prop :=
  ∀ (hdrBytes outCap : Nat) (v : Int) (bits more : List Bool) (out : List Byte),
    decompress hdrBytes bits outCap v = .ok out → decompress hdrBytes (bits ++ more) outCap v = .ok out

/-- A stream that decodes, cut anywhere, decodes to the same bytes or is reported as truncated, never anything else
(95_test_vectors.md section 4). -/
def Obligations.CutStreamIsTruncated : Prop :=
  ∀ (hdrBytes outCap : Nat) (v : Int) (bits : List Bool) (n : Nat) (out : List Byte),
    decompress hdrBytes bits outCap v = .ok out →
    decompress hdrBytes (bits.take n) outCap v = .ok out ∨
    decompress hdrBytes (bits.take n) outCap v = .error .truncatedInput

/-- The assembling procedure is a conformant encoder (R200): the stream assembled from a well-formed listing whose offsets
are all legal decodes, with enough capacity, to the bytes the listing denotes. -/
def Obligations.AssembledListingDecodes : Prop :=
  ∀ (hdrBytes len outCap : Nat) (v : Int) (tokens : List Instr) (out : List Byte),
    1 ≤ hdrBytes → hdrBytes ≤ 8 → len < 2 ^ (8 * hdrBytes) → len ≤ outCap → 0 ≤ v →
    listingOutput len (matchWindowSize v) tokens [] = some out →
    out.length = len ∧
    decompress hdrBytes (bytesToBits (assemble hdrBytes len v tokens)) outCap v = .ok out
end

