-- ==== Sys2Proof/Laws/Decode.lean ====
section
/-! SUPPORT. Fields as bits: lengths and ranges, and when the decoder answers. -/

namespace Sys2Proof

@[simp] theorem natToBits_length (n v : Nat) : (natToBits n v).length = n := by
  induction n generalizing v with
  | zero => rfl
  | succ n ih => simp [natToBits, ih]

theorem bitsToNat_lt (bs : List Bool) : bitsToNat bs < 2 ^ bs.length := by
  induction bs with
  | nil => simp [bitsToNat]
  | cons b bs ih =>
    have hb : b.toNat ≤ 1 := Bool.toNat_le b
    simp only [bitsToNat, List.length_cons, Nat.pow_succ]
    omega

/-- A field with enough bits is taken; its value fits its width. -/
theorem takeField_enough {n : Nat} {bits : List Bool} (h : n ≤ bits.length) :
    takeField n bits = some (bitsToNat (bits.take n), bits.drop n) := if_pos h

theorem takeField_short {n : Nat} {bits : List Bool} (h : bits.length < n) : takeField n bits = none :=
  if_neg (by omega)

theorem decodeBytes_enough {n : Nat} {bits : List Bool} (h : byteBits * n ≤ bits.length) :
    ∃ bs, decodeBytes n bits = some (bs, bits.drop (byteBits * n)) ∧ bs.length = n := by
  induction n generalizing bits with
  | zero => exact ⟨[], rfl, rfl⟩
  | succ n ih =>
    have h8 : byteBits ≤ bits.length := by
      simp only [byteBits] at h ⊢
      omega
    obtain ⟨bs, hd, hl⟩ := ih (bits := bits.drop byteBits) (by
      simp only [byteBits, List.length_drop] at h ⊢
      omega)
    refine ⟨BitVec.ofNat 8 (bitsToNat (bits.take byteBits)) :: bs, ?_, by simp [hl]⟩
    simp only [decodeBytes, takeField_enough h8, hd, List.drop_drop]
    simp [byteBits, Nat.mul_succ, Nat.add_comm]

end Sys2Proof
end

