-- ==== Sys2Proof/Laws/Memory.lean ====
section
/-! SUPPORT. What a read of a memory gives after each operation on it, and that every operation keeps the canonical form. -/

namespace Sys2Proof.Machine

@[simp] theorem Memory.read_nil (x : Nat) : Memory.read [] x = unlisted := rfl

@[simp] theorem Memory.read_cons (a : Nat) (b : Byte) (m : Memory) (x : Nat) :
    Memory.read ((a, b) :: m) x = if a = x then b else Memory.read m x := rfl

@[simp] theorem Memory.read_erase_same (m : Memory) (x : Nat) : (m.erase x).read x = unlisted := by
  induction m with
  | nil => rfl
  | cons c m ih =>
    obtain ⟨a, b⟩ := c
    by_cases h : a = x <;> simp [Memory.erase, h, ih]

theorem Memory.read_erase_other (m : Memory) {x y : Nat} (h : y ≠ x) : (m.erase x).read y = m.read y := by
  induction m with
  | nil => rfl
  | cons c m ih =>
    obtain ⟨a, b⟩ := c
    by_cases ha : a = x
    · have : a ≠ y := fun e => h (e ▸ ha)
      simp [Memory.erase, ha, ih, Ne.symm h]
    · simp [Memory.erase, ha, ih]

theorem Memory.read_insert_other (m : Memory) {x y : Nat} (v : Byte) (h : y ≠ x) :
    (m.insert x v).read y = m.read y := by
  induction m with
  | nil => simp [Memory.insert, Ne.symm h]
  | cons c m ih =>
    obtain ⟨a, b⟩ := c
    by_cases ha : x < a
    · simp [Memory.insert, ha, Ne.symm h]
    · simp [Memory.insert, ha, ih]

theorem Memory.not_mem_erase (m : Memory) (x : Nat) : ∀ c ∈ m.erase x, c.1 ≠ x := by
  induction m with
  | nil => simp [Memory.erase]
  | cons c m ih =>
    obtain ⟨a, b⟩ := c
    by_cases ha : a = x
    · simpa [Memory.erase, ha] using ih
    · simpa [Memory.erase, ha] using ih

theorem Memory.read_insert_same (m : Memory) (x : Nat) (v : Byte) (h : ∀ c ∈ m, c.1 ≠ x) :
    (m.insert x v).read x = v := by
  induction m with
  | nil => simp [Memory.insert]
  | cons c m ih =>
    obtain ⟨a, b⟩ := c
    have hax : a ≠ x := h (a, b) (by simp)
    by_cases ha : x < a
    · simp [Memory.insert, ha]
    · simpa [Memory.insert, ha, hax] using ih fun c hc => h c (by simp [hc])

/-- A byte written is read back. -/
@[simp] theorem Memory.read_write_same (m : Memory) (x : Nat) (v : Byte) : (m.write x v).read x = v := by
  unfold Memory.write
  split
  · rename_i h
    simp [h]
  · exact Memory.read_insert_same _ _ _ (Memory.not_mem_erase m x)

/-- A write leaves every other byte alone (R72). -/
theorem Memory.read_write_other (m : Memory) {x y : Nat} (v : Byte) (h : y ≠ x) :
    (m.write x v).read y = m.read y := by
  unfold Memory.write
  split
  · exact Memory.read_erase_other m h
  · rw [Memory.read_insert_other _ v h, Memory.read_erase_other m h]

theorem Memory.read_write (m : Memory) (x y : Nat) (v : Byte) :
    (m.write x v).read y = if y = x then v else m.read y := by
  by_cases h : y = x
  · simp [h]
  · simp [h, Memory.read_write_other]

/-- What a read gives after bytes have been written in a row. -/
theorem Memory.read_writeBytes (m : Memory) (x : Nat) (vs : List Byte) (y : Nat) :
    (m.writeBytes x vs).read y = if x ≤ y ∧ y < x + vs.length then vs.getD (y - x) 0 else m.read y := by
  induction vs generalizing m x with
  | nil =>
    simp [Memory.writeBytes]
  | cons v vs ih =>
    simp only [Memory.writeBytes, ih, List.length_cons, Memory.read_write]
    by_cases h1 : y = x
    · subst h1
      simp
    · by_cases h2 : x + 1 ≤ y ∧ y < x + 1 + vs.length
      · have h3 : x ≤ y ∧ y < x + (vs.length + 1) := by omega
        have h4 : y - x = (y - (x + 1)) + 1 := by omega
        rw [if_pos h2, if_pos h3, h4, List.getD_cons_succ]
      · have h3 : ¬(x ≤ y ∧ y < x + (vs.length + 1)) := by omega
        rw [if_neg h2, if_neg h3, if_neg h1]

theorem Memory.erase_sublist (m : Memory) (x : Nat) : (m.erase x).Sublist m := by
  induction m with
  | nil => simp [Memory.erase]
  | cons c m ih =>
    obtain ⟨a, b⟩ := c
    by_cases ha : a = x
    · simpa [Memory.erase, ha] using ih.cons _
    · simpa [Memory.erase, ha] using ih

theorem Memory.erase_wf {m : Memory} (h : m.wf) (x : Nat) : (m.erase x).wf :=
  ⟨h.1.sublist (m.erase_sublist x), fun c hc => h.2 c ((m.erase_sublist x).subset hc)⟩

theorem Memory.mem_insert {m : Memory} {x : Nat} {v : Byte} {c : Host.Cell} :
    c ∈ m.insert x v ↔ c = (x, v) ∨ c ∈ m := by
  induction m with
  | nil => simp [Memory.insert]
  | cons d m ih =>
    obtain ⟨a, b⟩ := d
    by_cases ha : x < a
    · simp [Memory.insert, ha]
    · simp only [Memory.insert, ha, if_false, List.mem_cons, ih]
      tauto

theorem Memory.insert_wf {m : Memory} (h : m.wf) {x : Nat} {v : Byte} (hv : v ≠ unlisted)
    (hx : ∀ c ∈ m, c.1 ≠ x) : (m.insert x v).wf := by
  refine ⟨?_, fun c hc => ?_⟩
  · induction m with
    | nil => simp [Memory.insert]
    | cons d m ih =>
      obtain ⟨a, b⟩ := d
      have hp := List.pairwise_cons.mp h.1
      have hax : a ≠ x := hx (a, b) (by simp)
      by_cases ha : x < a
      · simp only [Memory.insert, ha, if_true]
        refine List.pairwise_cons.mpr ⟨fun c hc => ?_, h.1⟩
        rcases List.mem_cons.mp hc with rfl | hc
        · exact ha
        · exact Nat.lt_trans ha (hp.1 c hc)
      · simp only [Memory.insert, ha, if_false]
        refine List.pairwise_cons.mpr ⟨fun c hc => ?_, ?_⟩
        · rcases Memory.mem_insert.mp hc with rfl | hc
          · simp only
            omega
          · exact hp.1 c hc
        · exact ih ⟨hp.2, fun c hc => h.2 c (by simp [hc])⟩ fun c hc => hx c (by simp [hc])
  · rcases Memory.mem_insert.mp hc with rfl | hc
    · exact hv
    · exact h.2 c hc

/-- A write keeps the canonical form. -/
theorem Memory.write_wf {m : Memory} (h : m.wf) (x : Nat) (v : Byte) : (m.write x v).wf := by
  unfold Memory.write
  split
  · exact Memory.erase_wf h x
  · rename_i hv
    exact Memory.insert_wf (Memory.erase_wf h x) hv (Memory.not_mem_erase m x)

theorem Memory.writeBytes_wf {m : Memory} (h : m.wf) (x : Nat) (vs : List Byte) : (m.writeBytes x vs).wf := by
  induction vs generalizing m x with
  | nil => exact h
  | cons v vs ih => exact ih (Memory.write_wf h x v) (x + 1)

theorem Memory.lose_wf {m : Memory} (h : m.wf) (k n : Nat) : (m.lose k n).wf := by
  induction n with
  | zero => exact h
  | succ n ih => exact Memory.write_wf ih n _

/-- After `lose` the first `n` bytes are the free values from the `k`-th on, the others as before. -/
theorem Memory.read_lose (m : Memory) (k n a : Nat) :
    (m.lose k n).read a = if a < n then Config.freeBits 8 (k + a) else m.read a := by
  induction n with
  | zero => rfl
  | succ n ih =>
    rw [Memory.lose, Memory.read_write, ih]
    split_ifs <;> first | rfl | omega | simp_all

/-- Bytes from the first index that was not lost on are as they were. -/
theorem Memory.read_lose_above (m : Memory) (k : Nat) {n a : Nat} (h : n ≤ a) : (m.lose k n).read a = m.read a := by
  rw [Memory.read_lose, if_neg (by omega)]

/-- Below every listed cell nothing is listed. -/
theorem Memory.read_of_lt {m : Memory} {x : Nat} (h : ∀ c ∈ m, x < c.1) : m.read x = unlisted := by
  induction m with
  | nil => rfl
  | cons d m ih =>
    obtain ⟨a, b⟩ := d
    have : a ≠ x := by
      have := h (a, b) (by simp)
      simp only at this
      omega
    simpa [this] using ih fun c hc => h c (by simp [hc])

/-- In canonical form, memories that read the same are the same data. -/
theorem Memory.ext_of_read {m n : Memory} (hm : m.wf) (hn : n.wf) (h : ∀ x, m.read x = n.read x) : m = n := by
  induction m generalizing n with
  | nil =>
    cases n with
    | nil => rfl
    | cons d n =>
      obtain ⟨a, b⟩ := d
      have h1 := h a
      simp only [Memory.read_nil, Memory.read_cons, if_true] at h1
      exact absurd h1.symm (hn.2 (a, b) (by simp))
  | cons c m ih =>
    obtain ⟨a, b⟩ := c
    have hb := hm.2 (a, b) (by simp)
    have hmp := List.pairwise_cons.mp hm.1
    cases n with
    | nil =>
      have h1 := h a
      simp only [Memory.read_nil, Memory.read_cons, if_true] at h1
      exact absurd h1 hb
    | cons d n =>
      obtain ⟨a', b'⟩ := d
      have hb' := hn.2 (a', b') (by simp)
      have hnp := List.pairwise_cons.mp hn.1
      have haa : a = a' := by
        rcases Nat.lt_trichotomy a a' with hlt | heq | hgt
        · have h1 := h a
          rw [Memory.read_of_lt (m := (a', b') :: n) (x := a)] at h1
          · simp only [Memory.read_cons, if_true] at h1
            exact absurd h1 hb
          · intro c hc
            rcases List.mem_cons.mp hc with rfl | hc
            · exact hlt
            · exact Nat.lt_trans hlt (hnp.1 c hc)
        · exact heq
        · have h1 := h a'
          rw [Memory.read_of_lt (m := (a, b) :: m) (x := a')] at h1
          · simp only [Memory.read_cons, if_true] at h1
            exact absurd h1.symm hb'
          · intro c hc
            rcases List.mem_cons.mp hc with rfl | hc
            · exact hgt
            · exact Nat.lt_trans hgt (hmp.1 c hc)
      subst haa
      have hbb : b = b' := by simpa using h a
      subst hbb
      have hmn : m = n := by
        apply ih ⟨hmp.2, fun c hc => hm.2 c (by simp [hc])⟩ ⟨hnp.2, fun c hc => hn.2 c (by simp [hc])⟩
        intro x
        by_cases hx : a = x
        · subst hx
          rw [Memory.read_of_lt fun c hc => hmp.1 c hc, Memory.read_of_lt fun c hc => hnp.1 c hc]
        · simpa [hx] using h x
      rw [hmn]

end Sys2Proof.Machine
end

