-- ==== Sys2Proof/Laws/State.lean ====
section
/-! SUPPORT. Every field after every update of the state, so that no later proof unfolds a record update. -/

namespace Sys2Proof.Machine

/-! ### setBitpos -/

@[simp] theorem State.setBitpos_params (s : State) (p : Nat) : (s.setBitpos p).params = s.params := rfl
@[simp] theorem State.setBitpos_inLen (s : State) (p : Nat) : (s.setBitpos p).inLen = s.inLen := rfl
@[simp] theorem State.setBitpos_outCap (s : State) (p : Nat) : (s.setBitpos p).outCap = s.outCap := rfl
@[simp] theorem State.setBitpos_fmtVer (s : State) (p : Nat) : (s.setBitpos p).fmtVer = s.fmtVer := rfl
@[simp] theorem State.setBitpos_byteIdx (s : State) (p : Nat) : (s.setBitpos p).byteIdx = p / 8 := rfl
@[simp] theorem State.setBitpos_bitsAvail (s : State) (p : Nat) :
    (s.setBitpos p).bitsAvail =
      BitVec.ofNat 4 (8 - p % 8) :=
  rfl
@[simp] theorem State.setBitpos_len (s : State) (p : Nat) : (s.setBitpos p).len = s.len := rfl
@[simp] theorem State.setBitpos_pos (s : State) (p : Nat) : (s.setBitpos p).pos = s.pos := rfl
@[simp] theorem State.setBitpos_mws (s : State) (p : Nat) : (s.setBitpos p).mws = s.mws := rfl
@[simp] theorem State.setBitpos_flag (s : State) (p : Nat) : (s.setBitpos p).flag = s.flag := rfl
@[simp] theorem State.setBitpos_offw (s : State) (p : Nat) : (s.setBitpos p).offw = s.offw := rfl
@[simp] theorem State.setBitpos_offset (s : State) (p : Nat) : (s.setBitpos p).offset = s.offset := rfl
@[simp] theorem State.setBitpos_matchLen (s : State) (p : Nat) : (s.setBitpos p).matchLen = s.matchLen := rfl
@[simp] theorem State.setBitpos_cnt (s : State) (p : Nat) : (s.setBitpos p).cnt = s.cnt := rfl
@[simp] theorem State.setBitpos_acc (s : State) (p : Nat) : (s.setBitpos p).acc = s.acc := rfl
@[simp] theorem State.setBitpos_shift (s : State) (p : Nat) : (s.setBitpos p).shift = s.shift := rfl
@[simp] theorem State.setBitpos_rem (s : State) (p : Nat) : (s.setBitpos p).rem = s.rem := rfl
@[simp] theorem State.setBitpos_status (s : State) (p : Nat) : (s.setBitpos p).status = s.status := rfl
@[simp] theorem State.setBitpos_errCode (s : State) (p : Nat) : (s.setBitpos p).errCode = s.errCode := rfl
@[simp] theorem State.setBitpos_resultLen (s : State) (p : Nat) : (s.setBitpos p).resultLen = s.resultLen := rfl
@[simp] theorem State.setBitpos_inMem (s : State) (p : Nat) : (s.setBitpos p).inMem = s.inMem := rfl
@[simp] theorem State.setBitpos_outMem (s : State) (p : Nat) : (s.setBitpos p).outMem = s.outMem := rfl
@[simp] theorem State.setBitpos_outLost (s : State) (p : Nat) : (s.setBitpos p).outLost = s.outLost := rfl
@[simp] theorem State.setBitpos_hostQueue (s : State) (p : Nat) : (s.setBitpos p).hostQueue = s.hostQueue := rfl
@[simp] theorem State.setBitpos_hostRead (s : State) (p : Nat) : (s.setBitpos p).hostRead = s.hostRead := rfl
@[simp] theorem State.setBitpos_freeCtr (s : State) (p : Nat) : (s.setBitpos p).freeCtr = s.freeCtr := rfl

/-! ### consume -/

@[simp] theorem State.consume_params (s : State) (n v : Nat) : (s.consume n v).params = s.params := rfl
@[simp] theorem State.consume_inLen (s : State) (n v : Nat) : (s.consume n v).inLen = s.inLen := rfl
@[simp] theorem State.consume_outCap (s : State) (n v : Nat) : (s.consume n v).outCap = s.outCap := rfl
@[simp] theorem State.consume_fmtVer (s : State) (n v : Nat) : (s.consume n v).fmtVer = s.fmtVer := rfl
@[simp] theorem State.consume_byteIdx (s : State) (n v : Nat) : (s.consume n v).byteIdx = (s.bitpos + n) / 8 := rfl
@[simp] theorem State.consume_bitsAvail (s : State) (n v : Nat) :
    (s.consume n v).bitsAvail =
      BitVec.ofNat 4 (8 - (s.bitpos + n) % 8) :=
  rfl
@[simp] theorem State.consume_len (s : State) (n v : Nat) : (s.consume n v).len = s.len := rfl
@[simp] theorem State.consume_pos (s : State) (n v : Nat) : (s.consume n v).pos = s.pos := rfl
@[simp] theorem State.consume_mws (s : State) (n v : Nat) : (s.consume n v).mws = s.mws := rfl
@[simp] theorem State.consume_flag (s : State) (n v : Nat) : (s.consume n v).flag = s.flag := rfl
@[simp] theorem State.consume_offw (s : State) (n v : Nat) : (s.consume n v).offw = s.offw := rfl
@[simp] theorem State.consume_offset (s : State) (n v : Nat) : (s.consume n v).offset = s.offset := rfl
@[simp] theorem State.consume_matchLen (s : State) (n v : Nat) : (s.consume n v).matchLen = s.matchLen := rfl
@[simp] theorem State.consume_cnt (s : State) (n v : Nat) : (s.consume n v).cnt = s.cnt := rfl
@[simp] theorem State.consume_acc (s : State) (n v : Nat) : (s.consume n v).acc = BitVec.ofNat 16 v := rfl
@[simp] theorem State.consume_shift (s : State) (n v : Nat) : (s.consume n v).shift = BitVec.ofNat 5 n := rfl
@[simp] theorem State.consume_rem (s : State) (n v : Nat) : (s.consume n v).rem = 0#5 := rfl
@[simp] theorem State.consume_status (s : State) (n v : Nat) : (s.consume n v).status = s.status := rfl
@[simp] theorem State.consume_errCode (s : State) (n v : Nat) : (s.consume n v).errCode = s.errCode := rfl
@[simp] theorem State.consume_resultLen (s : State) (n v : Nat) : (s.consume n v).resultLen = s.resultLen := rfl
@[simp] theorem State.consume_inMem (s : State) (n v : Nat) : (s.consume n v).inMem = s.inMem := rfl
@[simp] theorem State.consume_outMem (s : State) (n v : Nat) : (s.consume n v).outMem = s.outMem := rfl
@[simp] theorem State.consume_outLost (s : State) (n v : Nat) : (s.consume n v).outLost = s.outLost := rfl
@[simp] theorem State.consume_hostQueue (s : State) (n v : Nat) : (s.consume n v).hostQueue = s.hostQueue := rfl
@[simp] theorem State.consume_hostRead (s : State) (n v : Nat) : (s.consume n v).hostRead = s.hostRead := rfl
@[simp] theorem State.consume_freeCtr (s : State) (n v : Nat) : (s.consume n v).freeCtr = s.freeCtr := rfl

/-! ### loseCursor -/

@[simp] theorem State.loseCursor_params (s : State) : (s.loseCursor).params = s.params := rfl
@[simp] theorem State.loseCursor_inLen (s : State) : (s.loseCursor).inLen = s.inLen := rfl
@[simp] theorem State.loseCursor_outCap (s : State) : (s.loseCursor).outCap = s.outCap := rfl
@[simp] theorem State.loseCursor_fmtVer (s : State) : (s.loseCursor).fmtVer = s.fmtVer := rfl
@[simp] theorem State.loseCursor_byteIdx (s : State) : (s.loseCursor).byteIdx = (s.fresh s.params.addrW 0).toNat := rfl
@[simp] theorem State.loseCursor_bitsAvail (s : State) : (s.loseCursor).bitsAvail = s.fresh 4 1 := rfl
@[simp] theorem State.loseCursor_len (s : State) : (s.loseCursor).len = s.len := rfl
@[simp] theorem State.loseCursor_pos (s : State) : (s.loseCursor).pos = s.pos := rfl
@[simp] theorem State.loseCursor_mws (s : State) : (s.loseCursor).mws = s.mws := rfl
@[simp] theorem State.loseCursor_flag (s : State) : (s.loseCursor).flag = s.flag := rfl
@[simp] theorem State.loseCursor_offw (s : State) : (s.loseCursor).offw = s.offw := rfl
@[simp] theorem State.loseCursor_offset (s : State) : (s.loseCursor).offset = s.offset := rfl
@[simp] theorem State.loseCursor_matchLen (s : State) : (s.loseCursor).matchLen = s.matchLen := rfl
@[simp] theorem State.loseCursor_cnt (s : State) : (s.loseCursor).cnt = s.cnt := rfl
@[simp] theorem State.loseCursor_acc (s : State) : (s.loseCursor).acc = s.fresh 16 2 := rfl
@[simp] theorem State.loseCursor_shift (s : State) : (s.loseCursor).shift = s.fresh 5 3 := rfl
@[simp] theorem State.loseCursor_rem (s : State) : (s.loseCursor).rem = s.fresh 5 4 := rfl
@[simp] theorem State.loseCursor_status (s : State) : (s.loseCursor).status = s.status := rfl
@[simp] theorem State.loseCursor_errCode (s : State) : (s.loseCursor).errCode = s.errCode := rfl
@[simp] theorem State.loseCursor_resultLen (s : State) : (s.loseCursor).resultLen = s.resultLen := rfl
@[simp] theorem State.loseCursor_inMem (s : State) : (s.loseCursor).inMem = s.inMem := rfl
@[simp] theorem State.loseCursor_outMem (s : State) : (s.loseCursor).outMem = s.outMem := rfl
@[simp] theorem State.loseCursor_outLost (s : State) : (s.loseCursor).outLost = s.outLost := rfl
@[simp] theorem State.loseCursor_hostQueue (s : State) : (s.loseCursor).hostQueue = s.hostQueue := rfl
@[simp] theorem State.loseCursor_hostRead (s : State) : (s.loseCursor).hostRead = s.hostRead := rfl
@[simp] theorem State.loseCursor_freeCtr (s : State) : (s.loseCursor).freeCtr = s.freeCtr + 5 := rfl

/-! ### loseToken -/

@[simp] theorem State.loseToken_params (s : State) : (s.loseToken).params = s.params := rfl
@[simp] theorem State.loseToken_inLen (s : State) : (s.loseToken).inLen = s.inLen := rfl
@[simp] theorem State.loseToken_outCap (s : State) : (s.loseToken).outCap = s.outCap := rfl
@[simp] theorem State.loseToken_fmtVer (s : State) : (s.loseToken).fmtVer = s.fmtVer := rfl
@[simp] theorem State.loseToken_byteIdx (s : State) : (s.loseToken).byteIdx = s.byteIdx := rfl
@[simp] theorem State.loseToken_bitsAvail (s : State) : (s.loseToken).bitsAvail = s.bitsAvail := rfl
@[simp] theorem State.loseToken_len (s : State) : (s.loseToken).len = s.len := rfl
@[simp] theorem State.loseToken_pos (s : State) : (s.loseToken).pos = s.pos := rfl
@[simp] theorem State.loseToken_mws (s : State) : (s.loseToken).mws = s.mws := rfl
@[simp] theorem State.loseToken_flag (s : State) : (s.loseToken).flag = s.fresh 1 0 := rfl
@[simp] theorem State.loseToken_offw (s : State) : (s.loseToken).offw = s.fresh 5 1 := rfl
@[simp] theorem State.loseToken_offset (s : State) : (s.loseToken).offset = s.fresh 16 2 := rfl
@[simp] theorem State.loseToken_matchLen (s : State) : (s.loseToken).matchLen = s.fresh 8 3 := rfl
@[simp] theorem State.loseToken_cnt (s : State) : (s.loseToken).cnt = s.fresh 8 4 := rfl
@[simp] theorem State.loseToken_acc (s : State) : (s.loseToken).acc = s.fresh 16 5 := rfl
@[simp] theorem State.loseToken_shift (s : State) : (s.loseToken).shift = s.fresh 5 6 := rfl
@[simp] theorem State.loseToken_rem (s : State) : (s.loseToken).rem = s.fresh 5 7 := rfl
@[simp] theorem State.loseToken_status (s : State) : (s.loseToken).status = s.status := rfl
@[simp] theorem State.loseToken_errCode (s : State) : (s.loseToken).errCode = s.errCode := rfl
@[simp] theorem State.loseToken_resultLen (s : State) : (s.loseToken).resultLen = s.resultLen := rfl
@[simp] theorem State.loseToken_inMem (s : State) : (s.loseToken).inMem = s.inMem := rfl
@[simp] theorem State.loseToken_outMem (s : State) : (s.loseToken).outMem = s.outMem := rfl
@[simp] theorem State.loseToken_outLost (s : State) : (s.loseToken).outLost = s.outLost := rfl
@[simp] theorem State.loseToken_hostQueue (s : State) : (s.loseToken).hostQueue = s.hostQueue := rfl
@[simp] theorem State.loseToken_hostRead (s : State) : (s.loseToken).hostRead = s.hostRead := rfl
@[simp] theorem State.loseToken_freeCtr (s : State) : (s.loseToken).freeCtr = s.freeCtr + 8 := rfl

/-! ### loseRun -/

@[simp] theorem State.loseRun_params (s : State) : (s.loseRun).params = s.params := rfl
@[simp] theorem State.loseRun_inLen (s : State) : (s.loseRun).inLen = (s.fresh s.params.addrW 0).toNat := rfl
@[simp] theorem State.loseRun_outCap (s : State) : (s.loseRun).outCap = (s.fresh s.params.addrW 1).toNat := rfl
@[simp] theorem State.loseRun_fmtVer (s : State) : (s.loseRun).fmtVer = (s.fresh s.params.verW 2).toInt := rfl
@[simp] theorem State.loseRun_byteIdx (s : State) : (s.loseRun).byteIdx = (s.fresh s.params.addrW 3).toNat := rfl
@[simp] theorem State.loseRun_bitsAvail (s : State) : (s.loseRun).bitsAvail = s.fresh 4 4 := rfl
@[simp] theorem State.loseRun_len (s : State) : (s.loseRun).len = (s.fresh s.params.lenW 5).toNat := rfl
@[simp] theorem State.loseRun_pos (s : State) : (s.loseRun).pos = (s.fresh s.params.lenW 6).toNat := rfl
@[simp] theorem State.loseRun_mws (s : State) : (s.loseRun).mws = s.fresh 14 7 := rfl
@[simp] theorem State.loseRun_flag (s : State) : (s.loseRun).flag = s.flag := rfl
@[simp] theorem State.loseRun_offw (s : State) : (s.loseRun).offw = s.offw := rfl
@[simp] theorem State.loseRun_offset (s : State) : (s.loseRun).offset = s.offset := rfl
@[simp] theorem State.loseRun_matchLen (s : State) : (s.loseRun).matchLen = s.matchLen := rfl
@[simp] theorem State.loseRun_cnt (s : State) : (s.loseRun).cnt = s.cnt := rfl
@[simp] theorem State.loseRun_acc (s : State) : (s.loseRun).acc = s.acc := rfl
@[simp] theorem State.loseRun_shift (s : State) : (s.loseRun).shift = s.shift := rfl
@[simp] theorem State.loseRun_rem (s : State) : (s.loseRun).rem = s.rem := rfl
@[simp] theorem State.loseRun_status (s : State) : (s.loseRun).status = s.status := rfl
@[simp] theorem State.loseRun_errCode (s : State) : (s.loseRun).errCode = s.errCode := rfl
@[simp] theorem State.loseRun_resultLen (s : State) : (s.loseRun).resultLen = s.resultLen := rfl
@[simp] theorem State.loseRun_inMem (s : State) : (s.loseRun).inMem = s.inMem := rfl
@[simp] theorem State.loseRun_outMem (s : State) : (s.loseRun).outMem = s.outMem := rfl
@[simp] theorem State.loseRun_outLost (s : State) : (s.loseRun).outLost = s.outLost := rfl
@[simp] theorem State.loseRun_hostQueue (s : State) : (s.loseRun).hostQueue = s.hostQueue := rfl
@[simp] theorem State.loseRun_hostRead (s : State) : (s.loseRun).hostRead = s.hostRead := rfl
@[simp] theorem State.loseRun_freeCtr (s : State) : (s.loseRun).freeCtr = s.freeCtr + 8 := rfl

/-! ### loseOut -/

@[simp] theorem State.loseOut_params (s : State) : (s.loseOut).params = s.params := rfl
@[simp] theorem State.loseOut_inLen (s : State) : (s.loseOut).inLen = s.inLen := rfl
@[simp] theorem State.loseOut_outCap (s : State) : (s.loseOut).outCap = s.outCap := rfl
@[simp] theorem State.loseOut_fmtVer (s : State) : (s.loseOut).fmtVer = s.fmtVer := rfl
@[simp] theorem State.loseOut_byteIdx (s : State) : (s.loseOut).byteIdx = s.byteIdx := rfl
@[simp] theorem State.loseOut_bitsAvail (s : State) : (s.loseOut).bitsAvail = s.bitsAvail := rfl
@[simp] theorem State.loseOut_len (s : State) : (s.loseOut).len = s.len := rfl
@[simp] theorem State.loseOut_pos (s : State) : (s.loseOut).pos = s.pos := rfl
@[simp] theorem State.loseOut_mws (s : State) : (s.loseOut).mws = s.mws := rfl
@[simp] theorem State.loseOut_flag (s : State) : (s.loseOut).flag = s.flag := rfl
@[simp] theorem State.loseOut_offw (s : State) : (s.loseOut).offw = s.offw := rfl
@[simp] theorem State.loseOut_offset (s : State) : (s.loseOut).offset = s.offset := rfl
@[simp] theorem State.loseOut_matchLen (s : State) : (s.loseOut).matchLen = s.matchLen := rfl
@[simp] theorem State.loseOut_cnt (s : State) : (s.loseOut).cnt = s.cnt := rfl
@[simp] theorem State.loseOut_acc (s : State) : (s.loseOut).acc = s.acc := rfl
@[simp] theorem State.loseOut_shift (s : State) : (s.loseOut).shift = s.shift := rfl
@[simp] theorem State.loseOut_rem (s : State) : (s.loseOut).rem = s.rem := rfl
@[simp] theorem State.loseOut_status (s : State) : (s.loseOut).status = s.status := rfl
@[simp] theorem State.loseOut_errCode (s : State) : (s.loseOut).errCode = s.errCode := rfl
@[simp] theorem State.loseOut_resultLen (s : State) : (s.loseOut).resultLen = s.resultLen := rfl
@[simp] theorem State.loseOut_inMem (s : State) : (s.loseOut).inMem = s.inMem := rfl
@[simp] theorem State.loseOut_outMem (s : State) : (s.loseOut).outMem = s.outMem.lose s.freeCtr s.outCap := rfl
@[simp] theorem State.loseOut_outLost (s : State) : (s.loseOut).outLost = recoverBelow s.outCap s.outLost := rfl
@[simp] theorem State.loseOut_hostQueue (s : State) : (s.loseOut).hostQueue = s.hostQueue := rfl
@[simp] theorem State.loseOut_hostRead (s : State) : (s.loseOut).hostRead = s.hostRead := rfl
@[simp] theorem State.loseOut_freeCtr (s : State) : (s.loseOut).freeCtr = s.freeCtr + s.outCap := rfl

/-! ### raise -/

@[simp] theorem raise_params (e : ErrCode) (s : State) : (raise e s).params = s.params := rfl
@[simp] theorem raise_inLen (e : ErrCode) (s : State) : (raise e s).inLen = s.inLen := rfl
@[simp] theorem raise_outCap (e : ErrCode) (s : State) : (raise e s).outCap = s.outCap := rfl
@[simp] theorem raise_fmtVer (e : ErrCode) (s : State) : (raise e s).fmtVer = s.fmtVer := rfl
@[simp] theorem raise_byteIdx (e : ErrCode) (s : State) : (raise e s).byteIdx = s.byteIdx := rfl
@[simp] theorem raise_bitsAvail (e : ErrCode) (s : State) : (raise e s).bitsAvail = s.bitsAvail := rfl
@[simp] theorem raise_len (e : ErrCode) (s : State) : (raise e s).len = s.len := rfl
@[simp] theorem raise_pos (e : ErrCode) (s : State) : (raise e s).pos = s.pos := rfl
@[simp] theorem raise_mws (e : ErrCode) (s : State) : (raise e s).mws = s.mws := rfl
@[simp] theorem raise_flag (e : ErrCode) (s : State) : (raise e s).flag = s.flag := rfl
@[simp] theorem raise_offw (e : ErrCode) (s : State) : (raise e s).offw = s.offw := rfl
@[simp] theorem raise_offset (e : ErrCode) (s : State) : (raise e s).offset = s.offset := rfl
@[simp] theorem raise_matchLen (e : ErrCode) (s : State) : (raise e s).matchLen = s.matchLen := rfl
@[simp] theorem raise_cnt (e : ErrCode) (s : State) : (raise e s).cnt = s.cnt := rfl
@[simp] theorem raise_acc (e : ErrCode) (s : State) : (raise e s).acc = s.acc := rfl
@[simp] theorem raise_shift (e : ErrCode) (s : State) : (raise e s).shift = s.shift := rfl
@[simp] theorem raise_rem (e : ErrCode) (s : State) : (raise e s).rem = s.rem := rfl
@[simp] theorem raise_status (e : ErrCode) (s : State) : (raise e s).status = .fault := rfl
@[simp] theorem raise_errCode (e : ErrCode) (s : State) : (raise e s).errCode = e := rfl
@[simp] theorem raise_resultLen (e : ErrCode) (s : State) : (raise e s).resultLen = 0 := rfl
@[simp] theorem raise_inMem (e : ErrCode) (s : State) : (raise e s).inMem = s.inMem := rfl
@[simp] theorem raise_outMem (e : ErrCode) (s : State) : (raise e s).outMem = s.outMem := rfl
@[simp] theorem raise_outLost (e : ErrCode) (s : State) :
    (raise e s).outLost =
      LostRange.from s.pos { lo := 0, hi := s.outCap, key := s.freeCtr } ++ recoverBelow s.pos s.outLost :=
  rfl
@[simp] theorem raise_hostQueue (e : ErrCode) (s : State) : (raise e s).hostQueue = s.hostQueue := rfl
@[simp] theorem raise_hostRead (e : ErrCode) (s : State) : (raise e s).hostRead = s.hostRead := rfl
@[simp] theorem raise_freeCtr (e : ErrCode) (s : State) : (raise e s).freeCtr = s.freeCtr + s.outCap := rfl

/-! ### raiseTruncated -/

@[simp] theorem raiseTruncated_params (s : State) : (raiseTruncated s).params = s.params := rfl
@[simp] theorem raiseTruncated_inLen (s : State) : (raiseTruncated s).inLen = s.inLen := rfl
@[simp] theorem raiseTruncated_outCap (s : State) : (raiseTruncated s).outCap = s.outCap := rfl
@[simp] theorem raiseTruncated_fmtVer (s : State) : (raiseTruncated s).fmtVer = s.fmtVer := rfl
@[simp] theorem raiseTruncated_byteIdx (s : State) : (raiseTruncated s).byteIdx = (s.fresh s.params.addrW 0).toNat :=
  rfl
@[simp] theorem raiseTruncated_bitsAvail (s : State) : (raiseTruncated s).bitsAvail = s.fresh 4 1 := rfl
@[simp] theorem raiseTruncated_len (s : State) : (raiseTruncated s).len = s.len := rfl
@[simp] theorem raiseTruncated_pos (s : State) : (raiseTruncated s).pos = s.pos := rfl
@[simp] theorem raiseTruncated_mws (s : State) : (raiseTruncated s).mws = s.mws := rfl
@[simp] theorem raiseTruncated_flag (s : State) : (raiseTruncated s).flag = s.flag := rfl
@[simp] theorem raiseTruncated_offw (s : State) : (raiseTruncated s).offw = s.offw := rfl
@[simp] theorem raiseTruncated_offset (s : State) : (raiseTruncated s).offset = s.offset := rfl
@[simp] theorem raiseTruncated_matchLen (s : State) : (raiseTruncated s).matchLen = s.matchLen := rfl
@[simp] theorem raiseTruncated_cnt (s : State) : (raiseTruncated s).cnt = s.cnt := rfl
@[simp] theorem raiseTruncated_acc (s : State) : (raiseTruncated s).acc = s.fresh 16 2 := rfl
@[simp] theorem raiseTruncated_shift (s : State) : (raiseTruncated s).shift = s.fresh 5 3 := rfl
@[simp] theorem raiseTruncated_rem (s : State) : (raiseTruncated s).rem = s.fresh 5 4 := rfl
@[simp] theorem raiseTruncated_status (s : State) : (raiseTruncated s).status = .fault := rfl
@[simp] theorem raiseTruncated_errCode (s : State) : (raiseTruncated s).errCode = .truncatedInput := rfl
@[simp] theorem raiseTruncated_resultLen (s : State) : (raiseTruncated s).resultLen = 0 := rfl
@[simp] theorem raiseTruncated_inMem (s : State) : (raiseTruncated s).inMem = s.inMem := rfl
@[simp] theorem raiseTruncated_outMem (s : State) : (raiseTruncated s).outMem = s.outMem := rfl
@[simp] theorem raiseTruncated_outLost (s : State) :
    (raiseTruncated s).outLost =
      LostRange.from s.pos { lo := 0, hi := s.outCap, key := s.freeCtr + 5 } ++ recoverBelow s.pos s.outLost :=
  rfl
@[simp] theorem raiseTruncated_hostQueue (s : State) : (raiseTruncated s).hostQueue = s.hostQueue := rfl
@[simp] theorem raiseTruncated_hostRead (s : State) : (raiseTruncated s).hostRead = s.hostRead := rfl
@[simp] theorem raiseTruncated_freeCtr (s : State) : (raiseTruncated s).freeCtr = s.freeCtr + 5 + s.outCap := rfl

/-! ### complete -/

@[simp] theorem complete_params (s : State) : (complete s).params = s.params := rfl
@[simp] theorem complete_inLen (s : State) : (complete s).inLen = s.inLen := rfl
@[simp] theorem complete_outCap (s : State) : (complete s).outCap = s.outCap := rfl
@[simp] theorem complete_fmtVer (s : State) : (complete s).fmtVer = s.fmtVer := rfl
@[simp] theorem complete_byteIdx (s : State) : (complete s).byteIdx = s.byteIdx := rfl
@[simp] theorem complete_bitsAvail (s : State) : (complete s).bitsAvail = s.bitsAvail := rfl
@[simp] theorem complete_len (s : State) : (complete s).len = s.len := rfl
@[simp] theorem complete_pos (s : State) : (complete s).pos = s.pos := rfl
@[simp] theorem complete_mws (s : State) : (complete s).mws = s.mws := rfl
@[simp] theorem complete_flag (s : State) : (complete s).flag = s.flag := rfl
@[simp] theorem complete_offw (s : State) : (complete s).offw = s.offw := rfl
@[simp] theorem complete_offset (s : State) : (complete s).offset = s.offset := rfl
@[simp] theorem complete_matchLen (s : State) : (complete s).matchLen = s.matchLen := rfl
@[simp] theorem complete_cnt (s : State) : (complete s).cnt = s.cnt := rfl
@[simp] theorem complete_acc (s : State) : (complete s).acc = s.acc := rfl
@[simp] theorem complete_shift (s : State) : (complete s).shift = s.shift := rfl
@[simp] theorem complete_rem (s : State) : (complete s).rem = s.rem := rfl
@[simp] theorem complete_status (s : State) : (complete s).status = .done := rfl
@[simp] theorem complete_errCode (s : State) : (complete s).errCode = s.errCode := rfl
@[simp] theorem complete_resultLen (s : State) : (complete s).resultLen = s.pos := rfl
@[simp] theorem complete_inMem (s : State) : (complete s).inMem = s.inMem := rfl
@[simp] theorem complete_outMem (s : State) : (complete s).outMem = s.outMem := rfl
@[simp] theorem complete_outLost (s : State) : (complete s).outLost = recoverBelow s.pos s.outLost := rfl
@[simp] theorem complete_hostQueue (s : State) : (complete s).hostQueue = s.hostQueue := rfl
@[simp] theorem complete_hostRead (s : State) : (complete s).hostRead = s.hostRead := rfl
@[simp] theorem complete_freeCtr (s : State) : (complete s).freeCtr = s.freeCtr := rfl

/-! ### start -/

@[simp] theorem start_params (s : State) : (start s).params = s.params := by unfold start; dsimp; split <;> simp_all
@[simp] theorem start_inLen (s : State) : (start s).inLen = s.inLen := by unfold start; dsimp; split <;> simp_all
@[simp] theorem start_outCap (s : State) : (start s).outCap = s.outCap := by unfold start; dsimp; split <;> simp_all
@[simp] theorem start_fmtVer (s : State) : (start s).fmtVer = s.fmtVer := by unfold start; dsimp; split <;> simp_all
@[simp] theorem start_byteIdx (s : State) : (start s).byteIdx = 0 := by unfold start; dsimp; split <;> simp_all
@[simp] theorem start_bitsAvail (s : State) : (start s).bitsAvail = 8#4 := by unfold start; dsimp; split <;> simp_all
@[simp] theorem start_len (s : State) : (start s).len = 0 := by unfold start; dsimp; split <;> simp_all
@[simp] theorem start_pos (s : State) : (start s).pos = 0 := by unfold start; dsimp; split <;> simp_all
@[simp] theorem start_mws (s : State) : (start s).mws = if s.fmtVer < 0 then s.mws else matchWindowSize s.fmtVer :=
  by unfold start; dsimp; split <;> simp_all
@[simp] theorem start_flag (s : State) : (start s).flag = s.fresh 1 0 := by unfold start; dsimp; split <;> simp_all
@[simp] theorem start_offw (s : State) : (start s).offw = s.fresh 5 1 := by unfold start; dsimp; split <;> simp_all
@[simp] theorem start_offset (s : State) : (start s).offset = s.fresh 16 2 := by unfold start; dsimp; split <;> simp_all
@[simp] theorem start_matchLen (s : State) : (start s).matchLen = s.fresh 8 3 :=
  by unfold start; dsimp; split <;> simp_all
@[simp] theorem start_cnt (s : State) : (start s).cnt = s.fresh 8 4 := by unfold start; dsimp; split <;> simp_all
@[simp] theorem start_acc (s : State) : (start s).acc = s.fresh 16 5 := by unfold start; dsimp; split <;> simp_all
@[simp] theorem start_shift (s : State) : (start s).shift = s.fresh 5 6 := by unfold start; dsimp; split <;> simp_all
@[simp] theorem start_rem (s : State) : (start s).rem = s.fresh 5 7 := by unfold start; dsimp; split <;> simp_all
@[simp] theorem start_status (s : State) : (start s).status = if s.fmtVer < 0 then .fault else .busy :=
  by unfold start; dsimp; split <;> simp_all
@[simp] theorem start_errCode (s : State) :
    (start s).errCode =
      if s.fmtVer < 0 then .formatVersionUnsupported else .none :=
  by unfold start; dsimp; split <;> simp_all
@[simp] theorem start_resultLen (s : State) : (start s).resultLen = 0 := by unfold start; dsimp; split <;> simp_all
@[simp] theorem start_inMem (s : State) : (start s).inMem = s.inMem := by unfold start; dsimp; split <;> simp_all
@[simp] theorem start_outMem (s : State) : (start s).outMem = s.outMem := by unfold start; dsimp; split <;> simp_all
@[simp] theorem start_outLost (s : State) :
    (start s).outLost =
      if s.fmtVer < 0 then LostRange.from 0 { lo := 0, hi := s.outCap, key := s.freeCtr + 8 } ++ recoverBelow 0 s.outLost
      else s.outLost :=
  by unfold start; dsimp; split <;> simp_all
@[simp] theorem start_hostQueue (s : State) : (start s).hostQueue = s.hostQueue :=
  by unfold start; dsimp; split <;> simp_all
@[simp] theorem start_hostRead (s : State) : (start s).hostRead = s.hostRead :=
  by unfold start; dsimp; split <;> simp_all
@[simp] theorem start_freeCtr (s : State) :
    (start s).freeCtr =
      if s.fmtVer < 0 then s.freeCtr + 8 + s.outCap else s.freeCtr + 8 :=
  by unfold start; dsimp; split <;> simp_all

end Sys2Proof.Machine
end

