-- ==== Sys2Proof/Laws/Ops.lean ====
section
/-! SUPPORT. For each shared operation, once, everything it can do. -/

namespace Sys2Proof.Machine

/-! ### The cursor -/

theorem State.setBitpos_bitsAvail_toNat (s : State) (p : Nat) : (s.setBitpos p).bitsAvail.toNat = 8 - p % 8 := by
  rw [State.setBitpos_bitsAvail, BitVec.toNat_ofNat]
  omega

/-- The two cursor registers stand for one number (R24). -/
@[simp] theorem State.bitpos_setBitpos (s : State) (p : Nat) : (s.setBitpos p).bitpos = p := by
  rw [State.bitpos, State.setBitpos_bitsAvail_toNat, State.setBitpos_byteIdx]
  omega

/-- Only the two cursor registers make up `bitpos`. -/
theorem State.bitpos_congr {s t : State} (h1 : s.byteIdx = t.byteIdx) (h2 : s.bitsAvail = t.bitsAvail) :
    s.bitpos = t.bitpos := by
  rw [State.bitpos, State.bitpos, h1, h2]

/-- A normalised cursor is the one its `bitpos` stands for (R24). -/
theorem State.setBitpos_bitpos {s : State} (h1 : 1 ≤ s.bitsAvail.toNat) (h2 : s.bitsAvail.toNat ≤ 8) :
    s.setBitpos s.bitpos = s := by
  have hb : s.bitpos / 8 = s.byteIdx := by
    rw [State.bitpos]
    omega
  have ha : BitVec.ofNat 4 (8 - s.bitpos % 8) = s.bitsAvail := by
    have : 8 - s.bitpos % 8 = s.bitsAvail.toNat := by
      rw [State.bitpos]
      omega
    rw [this, BitVec.ofNat_toNat, BitVec.setWidth_eq]
  rw [State.setBitpos, hb, ha]

@[simp] theorem State.bitpos_consume (s : State) (n v : Nat) : (s.consume n v).bitpos = s.bitpos + n := by
  rw [← State.bitpos_setBitpos s (s.bitpos + n)]
  exact State.bitpos_congr rfl rfl

/-! ### Sequencing -/

@[simp] theorem Flow.go_andThen (s : State) (g : State → Flow) : (Flow.go s).andThen g = g s := rfl
@[simp] theorem Flow.stop_andThen (o : Answer) (g : State → Flow) : (Flow.stop o).andThen g = .stop o := rfl
@[simp] theorem Flow.go_finish (s : State) : (Flow.go s).finish = .next s := rfl
@[simp] theorem Flow.stop_finish (o : Answer) : (Flow.stop o).finish = o := rfl

theorem Flow.andThen_go {f : Flow} {g : State → Flow} {t : State} (h : f.andThen g = .go t) :
    ∃ u, f = .go u ∧ g u = .go t := by
  cases f with
  | go u => exact ⟨u, rfl, h⟩
  | stop o => cases h

/-! ### Taking a field -/

theorem readField_enough {n v : Nat} {s : State} (h : s.bitpos + n ≤ 8 * s.inLen) :
    readField n v s = .go (s.consume n v) := if_pos h

theorem readField_short {n v : Nat} {s : State} (h : 8 * s.inLen < s.bitpos + n) :
    readField n v s = .stop (.next (raiseTruncated s)) := if_neg (by omega)

/-- Everything the taking of a field can do (R120, R122). -/
theorem readField_spec (n v : Nat) (s : State) :
    (s.bitpos + n ≤ 8 * s.inLen ∧ readField n v s = .go (s.consume n v)) ∨
    (8 * s.inLen < s.bitpos + n ∧ readField n v s = .stop (.next (raiseTruncated s))) := by
  by_cases h : s.bitpos + n ≤ 8 * s.inLen
  · exact .inl ⟨h, readField_enough h⟩
  · exact .inr ⟨by omega, readField_short (by omega)⟩

/-- Everything the reading of a flag can do (R193). -/
theorem readFlag_spec (f : BitVec 1) (s : State) :
    (s.bitpos + 1 ≤ 8 * s.inLen ∧ readFlag f s = .go { s.consume 1 f.toNat with flag := f }) ∨
    (8 * s.inLen < s.bitpos + 1 ∧ readFlag f s = .stop (.next (raiseTruncated s))) := by
  rcases readField_spec flagBits f.toNat s with ⟨h, e⟩ | ⟨h, e⟩
  · exact .inl ⟨h, by rw [readFlag, e]; rfl⟩
  · exact .inr ⟨h, by rw [readFlag, e]; rfl⟩

/-! ### The OUT space -/

/-- Everything the emission of a byte can do (R162). -/
theorem emitByte_spec (b : Byte) (s : State) :
    (s.pos < s.outCap ∧
      emitByte b s = .go { s with outMem := s.outMem.write s.pos b, pos := s.pos + 1, cnt := s.cnt - 1 }) ∨
    (s.outCap ≤ s.pos ∧ emitByte b s = .stop (.fault (.outWriteOutside s.pos))) := by
  by_cases h : s.pos < s.outCap
  · exact .inl ⟨h, if_pos h⟩
  · exact .inr ⟨by omega, if_neg h⟩

/-- The copy of one byte inside the space (R176). -/
theorem copyByte_inside {s : State} (h : s.pos < s.outCap) :
    copyByte s = .go { s with
      outMem := s.outMem.write s.pos (s.outMem.read (s.pos - s.offset.toNat))
      pos := s.pos + 1
      cnt := s.cnt - 1 } := by
  rw [copyByte, if_pos (by omega), emitByte, if_pos h]

/-- The copy of one byte never answers a next state or a refusal in the middle of a token. -/
theorem copyByte_spec (s : State) :
    (s.pos < s.outCap ∧ ∃ m, copyByte s = .go { s with outMem := m, pos := s.pos + 1, cnt := s.cnt - 1 }) ∨
    (s.outCap ≤ s.pos ∧ ∃ r, copyByte s = .stop (.fault r)) := by
  by_cases h : s.pos < s.outCap
  · exact .inl ⟨h, _, copyByte_inside h⟩
  · refine .inr ⟨by omega, ?_⟩
    rw [copyByte]
    split
    · exact ⟨_, if_neg h⟩
    · exact ⟨_, rfl⟩

/-- Inside the space the copy of `n` bytes goes on, and changes only `OUT`, `POS` and `CNT`; outside the `n` bytes from
`POS` on, `OUT` is as it was. -/
theorem copyBytes_inside {n : Nat} {s : State} (h : s.pos + n ≤ s.outCap) :
    ∃ m, copyBytes n s = .go { s with outMem := m, pos := s.pos + n, cnt := s.cnt - BitVec.ofNat 8 n } ∧
      (∀ a, a < s.pos ∨ s.pos + n ≤ a → m.read a = s.outMem.read a) ∧
      (s.outMem.wf → m.wf) := by
  induction n generalizing s with
  | zero => exact ⟨s.outMem, by simp [copyBytes], fun _ _ => rfl, id⟩
  | succ n ih =>
    have h1 : s.pos < s.outCap := by omega
    obtain ⟨m, hm, hr, hw⟩ := ih (s := { s with
      outMem := s.outMem.write s.pos (s.outMem.read (s.pos - s.offset.toNat))
      pos := s.pos + 1
      cnt := s.cnt - 1 }) (by simp only; omega)
    refine ⟨m, ?_, fun a ha => ?_, fun hs => hw (Memory.write_wf hs _ _)⟩
    · rw [copyBytes, copyByte_inside h1, Flow.go_andThen, hm]
      have e1 : s.pos + 1 + n = s.pos + (n + 1) := by omega
      have e2 : s.cnt - 1 - BitVec.ofNat 8 n = s.cnt - BitVec.ofNat 8 (n + 1) := by
        rw [BitVec.ofNat_add]
        exact (BitVec.sub_sub _ _ _).trans (by rw [BitVec.add_comm]; rfl)
      simp only [e1, e2]
    · rw [hr a (by simp only; omega)]
      exact Memory.read_write_other _ _ (by omega)

/-! ### Errors -/

/-- Raising an error changes the three result registers and, of the model's own fields, the record of lost bytes and the
count of free values (R222). -/
theorem raise_eq (e : ErrCode) (s : State) :
    raise e s = { s with
      errCode := e
      resultLen := 0
      status := .fault
      outLost := (raise e s).outLost
      freeCtr := s.freeCtr + s.outCap } := rfl

/-! ### What the host may rely on -/

@[simp] theorem lostByte_nil (a : Nat) : lostByte [] a = none := rfl

theorem lostByte_cons (r : LostRange) (rs : List LostRange) (a : Nat) :
    lostByte (r :: rs) a =
      if r.lo ≤ a ∧ a < r.hi then some (Config.freeBits 8 (r.key + a)) else lostByte rs a := rfl

theorem lostByte_append (rs qs : List LostRange) (a : Nat) :
    lostByte (rs ++ qs) a = (lostByte rs a).or (lostByte qs a) := by
  induction rs with
  | nil => rfl
  | cons r rs ih =>
    simp only [List.cons_append, lostByte_cons, ih]
    split <;> rfl

/-- A byte of a range cut at `x` is lost exactly if it was and lies below `x`. -/
theorem lostByte_below (x : Nat) (r : LostRange) (a : Nat) :
    lostByte (r.below x) a = if a < x then lostByte [r] a else none := by
  unfold LostRange.below
  split <;> simp only [lostByte_cons, lostByte_nil] <;> split_ifs <;> first | rfl | omega

/-- A byte of a range cut at `x` is lost exactly if it was and does not lie below `x`. -/
theorem lostByte_from (x : Nat) (r : LostRange) (a : Nat) :
    lostByte (r.from x) a = if x ≤ a then lostByte [r] a else none := by
  unfold LostRange.from
  split <;> simp only [lostByte_cons, lostByte_nil] <;> split_ifs <;> first | rfl | omega

/-- Below `x` nothing is lost any more; elsewhere all is as before. -/
theorem lostByte_recoverBelow (x : Nat) (rs : List LostRange) (a : Nat) :
    lostByte (recoverBelow x rs) a = if x ≤ a then lostByte rs a else none := by
  unfold recoverBelow
  induction rs with
  | nil => simp
  | cons r rs ih =>
    rw [List.flatMap_cons, lostByte_append, ih, lostByte_from]
    simp only [lostByte_cons, lostByte_nil]
    split_ifs <;> rfl

/-- At `x` nothing is lost any more; elsewhere all is as before. -/
theorem lostByte_recoverAt (x : Nat) (rs : List LostRange) (a : Nat) :
    lostByte (recoverAt x rs) a = if a = x then none else lostByte rs a := by
  unfold recoverAt
  induction rs with
  | nil => simp
  | cons r rs ih =>
    rw [List.flatMap_cons, lostByte_append, ih, lostByte_append, lostByte_below, lostByte_from]
    simp only [lostByte_cons, lostByte_nil]
    split_ifs <;> first | rfl | omega

/-- What the host may rely on depends on `OUT` and on the record of lost bytes alone. -/
theorem State.hostOut_congr {s t : State} (h1 : t.outMem = s.outMem) (h2 : t.outLost = s.outLost) (a : Nat) :
    t.hostOut a = s.hostOut a := by
  rw [State.hostOut, State.hostOut, h1, h2]

/-- After a reset in the middle of a run the host finds a free value drawn at that reset in every byte of the buffer,
whatever was lost before; elsewhere all is as before (R251). -/
theorem State.hostOut_loseOut (s : State) (a : Nat) :
    (s.loseOut).hostOut a = if a < s.outCap then Config.freeBits 8 (s.freeCtr + a) else s.hostOut a := by
  rw [State.hostOut, State.loseOut_outLost, State.loseOut_outMem, lostByte_recoverBelow, Memory.read_lose, State.hostOut]
  split_ifs <;> first | rfl | omega

end Sys2Proof.Machine
end

