-- ==== Sys2Proof/Laws/Fetch.lean ====
section
/-! SUPPORT. The fetch always gives an instruction: the refusal `undecodable` is never answered. -/

namespace Sys2Proof.Machine

@[simp] theorem State.fetchBits_length (s : State) (n : Nat) : (s.fetchBits n).length = n := by
  simp [State.fetchBits]

/-- A list of bits as long as the fetch makes it decodes. -/
theorem decode_enough {sh : Shape} {bits : List Bool} (h : bits.length = fetchLength sh) :
    ∃ i rest, decode sh bits = .ok (i, rest) := by
  cases sh with
  | header n =>
    simp only [fetchLength] at h
    exact ⟨.hdr (bitsToNat (bits.take (byteBits * n))), bits.drop (byteBits * n), by
      simp only [decode, takeField_enough (le_of_eq h.symm)]⟩
  | token k w =>
    simp only [fetchLength, flagBits, byteBits, lenBits] at h
    cases bits with
    | nil =>
      simp only [List.length_nil] at h
      omega
    | cons b bits =>
      simp only [List.length_cons] at h
      cases b with
      | false =>
        obtain ⟨bs, hd, -⟩ := decodeBytes_enough (n := k) (bits := bits) (by
          simp only [byteBits]
          omega)
        exact ⟨.lit (bs.getD 0 0) (bs.getD 1 0) (bs.getD 2 0), bits.drop (byteBits * k), by
          simp only [decode, decodeLit, hd]⟩
      | true =>
        have h1 : w ≤ bits.length := by omega
        have h2 : lenBits ≤ (bits.drop w).length := by
          simp only [lenBits, List.length_drop]
          omega
        exact ⟨.matchTok (BitVec.ofNat 16 (bitsToNat (bits.take w)))
            (BitVec.ofNat 8 (bitsToNat ((bits.drop w).take lenBits))), (bits.drop w).drop lenBits, by
          simp only [decode, decodeMatch, takeField_enough h1, takeField_enough h2]⟩

/-- The fetch gives an instruction in every state. -/
theorem State.fetch_ok (s : State) : ∃ i rest, s.fetch = .ok (i, rest) :=
  decode_enough (s.fetchBits_length _)

/-- So what is fetched is executed. -/
theorem runFetched_eq_exec (s : State) : ∃ i rest, s.fetch = .ok (i, rest) ∧ runFetched s = exec i s := by
  obtain ⟨i, rest, h⟩ := s.fetch_ok
  exact ⟨i, rest, h, by simp only [runFetched, h]⟩

end Sys2Proof.Machine
end

