-- ==== Sys2Proof/Laws/PerInstr.lean ====
section
/-! SUPPORT. What holds of every instruction as syntax, made once per constructor: an encoding is as long as spec
30_encoding.md R99 says. -/

namespace Sys2Proof.Laws

theorem flatten_bytes_length (bs : List Byte) :
    ((bs.map fun b => natToBits byteBits b.toNat).flatten).length = byteBits * bs.length := by
  induction bs with
  | nil => rfl
  | cons b bs ih => simp [ih, Nat.mul_add, Nat.add_comm]

/-- The encoding of an instruction in a shape that can hold it has the instruction's length (R99). -/
def EncodeLength.Statement (i : Instr) : Prop :=
  ∀ sh : Shape, i.wf sh = true → (encode sh i).length = i.bitLength sh

theorem EncodeLength.hdr (len : Nat) : EncodeLength.Statement (.hdr len) := by
  intro sh h
  cases sh with
  | header n => simp [encode, Instr.bitLength]
  | token k w => simp [Instr.wf] at h

theorem EncodeLength.lit (b0 b1 b2 : Byte) : EncodeLength.Statement (.lit b0 b1 b2) := by
  intro sh h
  cases sh with
  | header n => simp [Instr.wf] at h
  | token k w =>
    have h3 : ([b0, b1, b2].take k).length = min litMax k := by simp [litMax, Nat.min_comm]
    simp only [encode, Instr.bitLength, List.length_cons, flatten_bytes_length, h3, flagBits]
    omega

theorem EncodeLength.matchTok (offset : BitVec 16) (length : Byte) :
    EncodeLength.Statement (.matchTok offset length) := by
  intro sh h
  cases sh with
  | header n => simp [Instr.wf] at h
  | token k w =>
    simp only [encode, Instr.bitLength, List.length_cons, List.length_append, natToBits_length, flagBits]
    omega

end Sys2Proof.Laws
end

