-- ==== Sys2Proof/Tests/Slice0.lean ====
section
/-! SUPPORT. The model's own tests: the well-formedness checks, words written out from the spec's encodings, vectors of
spec/95_test_vectors.md, and for every obligation with hypotheses a state and operands that meet them. -/

namespace Sys2Proof.Tests

open Sys2Proof.Machine

/-! ### Well-formedness: each check refuses an ill-formed term -/

theorem test_wf_shape_header_zero : (Shape.header 0).wf = false := by decide
theorem test_wf_shape_header_nine : (Shape.header 9).wf = false := by decide
theorem test_wf_shape_no_literal : (Shape.token 0 5).wf = false := by decide
theorem test_wf_shape_four_literals : (Shape.token 4 5).wf = false := by decide
theorem test_wf_shape_no_offset : (Shape.token 3 0).wf = false := by decide
theorem test_wf_shape_wide_offset : (Shape.token 3 17).wf = false := by decide
theorem test_wf_hdr_too_big : (Instr.hdr 256).wf (.header 1) = false := by decide
theorem test_wf_hdr_at_token : (Instr.hdr 0).wf (.token 3 1) = false := by decide
theorem test_wf_lit_at_header : (Instr.lit 0 0 0).wf (.header 4) = false := by decide
theorem test_wf_match_at_header : (Instr.matchTok 1 1).wf (.header 4) = false := by decide
theorem test_wf_lit_second_byte : (Instr.lit 1 2 0).wf (.token 1 1) = false := by decide
theorem test_wf_lit_third_byte : (Instr.lit 1 2 3).wf (.token 2 1) = false := by decide
theorem test_wf_match_offset : (Instr.matchTok 4 1).wf (.token 3 2) = false := by decide

/-! ### Words written out from R92, R94, R95 (stream order, first stream bit leftmost) -/

/-- V-H1's header: the bytes `05 00 00 00`. -/
theorem test_decode_hdr : decode (.header 4) (bytesToBits [0x05, 0, 0, 0]) = .ok (.hdr 5, []) := by decide
/-- V-H2: byte 0 of the header is the least significant. -/
theorem test_decode_hdr_order : decode (.header 4) (bytesToBits [0x78, 0x56, 1, 0]) = .ok (.hdr 87672, []) := by decide
/-- P1's second token: flag 0, `0x44`, `0x45`. -/
theorem test_decode_lit : decode (.token 2 2)
    [false, false, false, true, false, false, false, true, false, true, false, true, false, false, false, true, false] =
    .ok (.lit 0x44 0x45 0, []) := by decide
/-- P2's match: flag 1, offset `1 0`, length `0 0 1 0 0 0 0 0`. -/
theorem test_decode_match : decode (.token 3 2)
    [true, true, false, false, false, true, false, false, false, false, false] = .ok (.matchTok 1 4, []) := by decide
/-- A match that ends inside its length field. -/
theorem test_decode_short : decode (.token 3 2) [true, true, false, false] = .error .truncatedLength := by decide
/-- P1 and P2 as bytes (R107). -/
theorem test_assemble_p1 : assemble 4 5 0 [.lit 0x41 0x42 0x43, .lit 0x44 0x45 0] =
    [0x05, 0, 0, 0, 0x82, 0x84, 0x86, 0x10, 0x15, 0x01] := by decide
theorem test_assemble_p4 : assemble 2 9 3 [.lit 0xFF 0x80 0x01, .matchTok 2 5, .lit 0x7E 0 0] =
    [0x09, 0x00, 0xFE, 0x01, 0x03, 0x5A, 0xC0, 0x0F] := by decide

/-! ### Vectors for the primitives -/

/-- A state whose stream is the given bytes, the cursor at a stream bit, the engine running. -/
def streamState (bytes : List Byte) (bit : Nat) : State :=
  { State.reset.setBitpos bit with
    inMem := Memory.writeBytes [] 0 bytes
    inLen := bytes.length
    status := .busy }

/-- The value and the cursor a read leaves. -/
def readView : ReadResult → Option (Nat × Nat × Nat)
  | .value v t => some (v, t.byteIdx, t.bitsAvail.toNat)
  | .truncated _ => none
  | .refused _ => none

/-- V-R5, second read. -/
theorem test_read_13 : readView (readBits 13 (streamState [0xA5, 0x3C, 0xF0, 0x0F, 0x81] 3)) = some (0x794, 2, 8) := by
  decide
/-- V-R6, second read: three bytes touched. -/
theorem test_read_16 : readView (readBits 16 (streamState [0xA5, 0x3C, 0xF0, 0x0F, 0x81] 1)) = some (0x1E52, 2, 7) := by
  decide
/-- V-R15. -/
theorem test_read_short : readView (readBits 9 (streamState [0xA5] 0)) = none := by decide
/-- V-W, at the steps. -/
theorem test_bitsreq : [0, 1, 2, 255, 256, 8191, 8192, 65535].map bitsReq = [1, 1, 2, 8, 9, 13, 14, 16] := by decide
/-- V-O, the plateau in both versions. -/
theorem test_offset_width :
    ([8191, 8192, 100000].map fun p => (offWidth p (matchWindowSize 0), offWidth p (matchWindowSize 7))) =
      [(13, 13), (14, 13), (14, 13)] := by decide

/-! ### One step of each instruction -/

/-- P2 after its `LIT`: `L = 7`, `POS = 3`, the cursor at bit 57. -/
def p2 : State :=
  { streamState [0x07, 0, 0, 0, 0x82, 0x84, 0x86, 0x46, 0x00] 57 with
    outCap := 7
    len := 7
    pos := 3
    mws := 8192#14
    outMem := [(0, 0x41#8), (1, 0x42#8), (2, 0x43#8)] }

/-- P1 after its first `LIT`, the stream `n` bytes long: `L = 5`, `POS = 3`, the cursor at bit 57. -/
def p1 (n : Nat) : State :=
  { streamState [0x05, 0, 0, 0, 0x82, 0x84, 0x86, 0x10, 0x15, 0x01] 57 with
    inLen := n
    outCap := 5
    len := 5
    pos := 3
    mws := 8192#14
    outMem := [(0, 0x41#8), (1, 0x42#8), (2, 0x43#8)] }

/-- P1 at its header. -/
def atStart (cap : Nat) : State := { streamState [0x05, 0, 0, 0, 0x82, 0x84, 0x86, 0x10, 0x15, 0x01] 0 with outCap := cap }

/-- What a test looks at: `STATUS`, `ERR_CODE`, `L`, `POS` and the first bytes of `OUT`. -/
def look (n : Nat) : Answer → Option (Status × ErrCode × Nat × Nat × List Byte)
  | .next s => some (s.status, s.errCode, s.len, s.pos, (List.range n).map s.outMem.read)
  | .fault _ => none
  | .refused _ => none

/-- V-H1: after `HDR`, `L = 5`. -/
theorem test_hdr : look 0 (step (atStart 5)) = some (.busy, .none, 5, 0, []) := by decide
/-- V-H7. -/
theorem test_hdr_capacity : look 0 (step (atStart 4)) = some (.fault, .capacityExceeded, 5, 0, []) := by decide
/-- P1's second `LIT`. -/
theorem test_lit : look 5 (step (p1 10)) = some (.busy, .none, 5, 5, [0x41, 0x42, 0x43, 0x44, 0x45]) := by decide
/-- V-L5: the first byte of the token is written, the second is cut off. -/
theorem test_lit_cut : look 5 (step (p1 9)) = some (.fault, .truncatedInput, 5, 4, [0x41, 0x42, 0x43, 0x44, 0]) := by
  decide
/-- P2: the overlapped copy. -/
theorem test_match : look 7 (step p2) = some (.busy, .none, 7, 7, [0x41, 0x42, 0x43, 0x43, 0x43, 0x43, 0x43]) := by
  decide
/-- V-M7: offset 0. -/
theorem test_match_bad : look 6 (exec (.matchTok 0 3) p2) =
    some (.fault, .invalidBackReference, 7, 3, [0x41, 0x42, 0x43, 0, 0, 0]) := by decide
/-- V-S1: a negative version wins. -/
theorem test_start_version : look 0 (step { State.reset with fmtVer := -1, hostQueue := [.start] }) =
    some (.fault, .formatVersionUnsupported, 0, 0, []) := by decide
/-- E7: `L = 0` ends at once. -/
theorem test_done : look 0 (step (streamState [0, 0, 0, 0, 0xFF] 32)) = some (.done, .none, 0, 0, []) := by decide
/-- R222, U1: after V-L5's fault the host relies on the bytes below `POS = 4` only; the last byte of the buffer is lost. -/
theorem test_host_view_after_fault : (match step (p1 9) with
    | .next s => some ((List.range 4).map s.hostOut, (List.range 6).map fun a => (lostByte s.outLost a).isSome)
    | _ => none) =
    some ([0x41, 0x42, 0x43, 0x44], [false, false, false, false, true, false]) := by decide
/-- R222, R254: a byte the host writes after the fault is what the host then reads. -/
theorem test_host_rewrites_after_fault : (match hostStep (.writeOut 4 9) (raise .truncatedInput { p2 with pos := 4 }) with
    | .next s => some (s.hostOut 4, (lostByte s.outLost 5).isSome)
    | _ => none) = some (9#8, true) := by decide
/-- R251, U2: a reset during a run forgets what an earlier fault left in the buffer; beyond `OUT_CAP = 7` it stays. -/
theorem test_reset_forgets_earlier_loss :
    (hardwareReset { p2 with outLost := [⟨0, 9, 0⟩], freeCtr := 9 }).outLost = [⟨7, 9, 0⟩] := by decide
/-- The whole of P1 on the reference function. -/
theorem test_decompress_p1 : decompress 4 (bytesToBits [0x05, 0, 0, 0, 0x82, 0x84, 0x86, 0x10, 0x15, 0x01]) 5 0 =
    .ok [0x41, 0x42, 0x43, 0x44, 0x45] := by decide
/-- Two words of the table. -/
theorem test_table_words : decodeTableWord 8 0 = some (.lit 0 0 0) ∧ decodeTableWord 8 1 = some (.matchTok 0 0) ∧
    decodeTableWord 0 0 = some (.hdr 0) := by decide

/-! ### Witnesses: the hypotheses of the obligations can be met -/

theorem witness_DecodeEncode : (Shape.token 2 14).wf = true ∧ (Instr.matchTok 16383 255).wf (.token 2 14) = true ∧
    (Instr.lit 1 2 0).wf (.token 2 14) = true ∧ (Shape.header 8).wf = true ∧
    (Instr.hdr (2 ^ 64 - 1)).wf (.header 8) = true := by decide
theorem witness_EncodeDecode : (Shape.header 1).wf = true ∧
    decode (.header 1) [true, false, true, false, false, false, false, false] = .ok (.hdr 5, []) := by decide
theorem witness_PackBytesKeepsBits : [true, false, true].length ≤ 8 * 1 := by decide
theorem witness_TableWordRuns : 64 ≤ 64 := by decide
theorem witness_ReadReturnsNextBits_enough :
    (p1 9).CursorNormal ∧ (p1 9).bitpos + 15 ≤ 8 * (p1 9).inLen := by decide
theorem witness_ReadReturnsNextBits_short :
    (p1 9).CursorNormal ∧ 8 * (p1 9).inLen < (p1 9).bitpos + 16 := by decide
theorem witness_ReadReturnsNextBits_refused : (p1 9).CursorNormal ∧ (16 < 17) := by decide
theorem witness_ReadsJoin_value : (p1 9).CursorNormal ∧ (∀ n ∈ [7, 8], 1 ≤ n) ∧ [7, 8].sum ≤ 16 ∧
    (readAll [7, 8] (p1 9)).isSome = true := by decide
theorem witness_ReadsJoin_short : (p1 9).CursorNormal ∧ [8, 8].sum ≤ 16 ∧
    (readAll [8, 8] (p1 9)).isNone = true := by decide
theorem witness_BitsReq : (65535 : BitVec 16) ≠ 0 ∧ 2 ^ 15 ≤ (65535 : BitVec 16).toNat ∧
    (65535 : BitVec 16).toNat < 2 ^ 16 ∧ (255 : BitVec 16).toNat ≤ (256 : BitVec 16).toNat := by decide
theorem witness_OffsetWidthTable : (0 : Int) ≤ 1 ∧ 2 ^ (13 - 1) ≤ 8191 ∧ 8191 < 2 ^ 13 ∧ 8192 ≤ 8192 := by decide
theorem witness_WindowSizeByVersion : (0 : Int) < 1 ∧ { State.reset with fmtVer := -1 }.fmtVer < 0 := by decide
theorem witness_HdrCompletes : 1 ≤ (atStart 5).params.hdrBytes ∧
    (atStart 5).bitpos + 8 * (atStart 5).params.hdrBytes ≤ 8 * (atStart 5).inLen ∧
    5 < 2 ^ (8 * (atStart 5).params.hdrBytes) ∧ 5 ≤ (atStart 5).outCap := by decide
theorem witness_HdrTooLong : 1 ≤ (atStart 4).params.hdrBytes ∧
    (atStart 4).bitpos + 8 * (atStart 4).params.hdrBytes ≤ 8 * (atStart 4).inLen ∧
    5 < 2 ^ (8 * (atStart 4).params.hdrBytes) ∧ (atStart 4).outCap < 5 := by decide
theorem witness_HdrTruncated : 1 ≤ (streamState [5, 0, 0] 0).params.hdrBytes ∧
    8 * (streamState [5, 0, 0] 0).inLen <
      (streamState [5, 0, 0] 0).bitpos + 8 * (streamState [5, 0, 0] 0).params.hdrBytes := by decide
theorem witness_HeaderValueFromItsBytes : (atStart 5).bitpos = 0 ∧ (atStart 5).params.hdrBytes ≤ (atStart 5).inLen := by
  decide
theorem witness_LitCompletes : (p1 10).pos < (p1 10).len ∧ (p1 10).len ≤ (p1 10).outCap ∧
    (p1 10).bitpos + (1 + 8 * litCount (p1 10).len (p1 10).pos) ≤ 8 * (p1 10).inLen := by decide
theorem witness_LitWritesItsBytes : ∃ t, exec (.lit 0x44 0x45 0) (p1 10) = .next t := ⟨_, rfl⟩
theorem witness_LitTruncatedPartialState : (p1 9).len ≤ (p1 9).outCap ∧ (p1 9).bitpos + 1 ≤ 8 * (p1 9).inLen ∧
    8 * (p1 9).inLen < (p1 9).bitpos + (1 + 8 * litCount (p1 9).len (p1 9).pos) := by decide
theorem witness_MatchCompletes : p2.pos ≤ p2.len ∧ p2.len ≤ p2.outCap ∧ 3 ≤ p2.pos ∧
    p2.bitpos + (9 + offWidth p2.pos p2.mws) ≤ 8 * p2.inLen := by decide
theorem witness_MatchChecksOffset_bad : p2.bitpos + (9 + offWidth p2.pos p2.mws) ≤ 8 * p2.inLen ∧ p2.pos < 4 := by
  decide
theorem witness_MatchChecksOffset_legal : p2.bitpos + (9 + offWidth p2.pos p2.mws) ≤ 8 * p2.inLen ∧ 1 ≤ (3#16).toNat ∧
    (3#16).toNat ≤ p2.pos ∧ p2.pos ≤ p2.len ∧ p2.len ≤ p2.outCap := by decide
/-- A `MATCH` whose stream ends after its flag and the first of the two bits of its offset. -/
def cutInOffset : State := { p2 with inLen := 8, byteIdx := 7, bitsAvail := 2#4 }
theorem witness_MatchTruncated_offset : offWidth cutInOffset.pos cutInOffset.mws = 2 ∧
    cutInOffset.bitpos + 1 ≤ 8 * cutInOffset.inLen ∧ 8 * cutInOffset.inLen < cutInOffset.bitpos + (1 + 2) := by decide
theorem witness_MatchTruncated : (p1 8).bitpos + 1 ≤ 8 * (p1 8).inLen ∧
    8 * (p1 8).inLen < (p1 8).bitpos + (9 + offWidth (p1 8).pos (p1 8).mws) := by decide
theorem witness_MatchOfLengthZero : 1 ≤ (3#16).toNat ∧ (3#16).toNat ≤ p2.pos ∧
    p2.bitpos + (9 + offWidth p2.pos p2.mws) ≤ 8 * p2.inLen := by decide
theorem witness_MatchCannotComeFirst : (streamState [3, 0, 0, 0, 0x0D, 0] 32).pos = 0 := by decide
theorem witness_FlagTruncated : 8 * (streamState [3, 0, 0, 0] 32).inLen < (streamState [3, 0, 0, 0] 32).bitpos + 1 ∧
    (streamState [3, 0, 0, 0] 32).hostQueue = [] ∧ (streamState [3, 0, 0, 0] 32).status = .busy ∧
    { streamState [3, 0, 0, 0] 32 with len := 3 }.pos < { streamState [3, 0, 0, 0] 32 with len := 3 }.len := by decide
theorem witness_StepRunsDecoded_token : p2.hostQueue = [] ∧ p2.status = .busy ∧ p2.pos < p2.len ∧
    p2.bitpos + 1 ≤ 8 * p2.inLen ∧ (p2.fetch.toOption.map Prod.fst) = some (.matchTok 1 4) := by decide
theorem witness_StepRunsDecoded_header : (atStart 5).hostQueue = [] ∧ (atStart 5).status = .busy ∧
    (atStart 5).bitpos = 0 ∧ ((atStart 5).fetch.toOption.map Prod.fst) = some (.hdr 5) := by decide
theorem witness_FetchIsWellFormed : p2.params.Legal ∧ p2.pos < p2.len := by decide
theorem witness_DoneTransition : { p2 with pos := 7 }.hostQueue = [] ∧ { p2 with pos := 7 }.status = .busy ∧
    { p2 with pos := 7 }.bitpos ≠ 0 ∧ { p2 with pos := 7 }.pos = { p2 with pos := 7 }.len := by decide
theorem witness_EngineWaits : State.reset.hostQueue = [] ∧ State.reset.status ≠ .busy := by decide
theorem witness_CursorAdvances : 1 ≤ p2.params.hdrBytes ∧ p2.status = .busy ∧
    ∃ t, exec (.matchTok 1 4) p2 = .next t ∧ t.status = .busy := by
  refine ⟨by decide, by decide, ?_⟩
  exact ⟨_, rfl, rfl⟩
theorem witness_EngineNeverWritesInputs : ∃ t, engineStep p2 = .next t := ⟨_, rfl⟩
theorem witness_OutWritesBounded : p2.status = .busy ∧ p2.Running ∧ ∃ t, engineStep p2 = .next t :=
  ⟨by decide, by decide, _, rfl⟩
theorem witness_StreamEndsAtItsLength : ∀ a, a < p2.inLen → (p2.inMem.write 9 1).read a = p2.inMem.read a := by decide
theorem witness_StepIsPseudocode : p2.CursorNormal ∧ (atStart 5).CursorNormal := by decide
theorem witness_StartState : 0 ≤ State.reset.fmtVer := by decide
theorem witness_StartRefusesNegativeVersion : { State.reset with fmtVer := -1 }.fmtVer < 0 := by decide
theorem witness_HostStart : { State.reset with hostQueue := [.start] }.hostQueue = .start :: [] ∧
    State.reset.status ≠ .busy ∧ State.reset.buffersOverlap = false ∧ p2.status = .busy := by decide
theorem witness_HostStart_overlap :
    { State.reset with
      params := { Params.standard with platform := some ⟨0, 3⟩ }, inLen := 4, outCap := 1 }.buffersOverlap = true ∧
    { State.reset with
      params := { Params.standard with platform := some ⟨0, 4⟩ }, inLen := 4, outCap := 1 }.buffersOverlap = false := by
  decide
theorem witness_StatusTransitions : ∃ t, step p2 = .next t := ⟨_, rfl⟩
theorem witness_StatusTransitions_start : 0 ≤ State.reset.fmtVer ∧ { State.reset with fmtVer := -1 }.fmtVer < 0 ∧
    ∃ t, step { State.reset with fmtVer := -1, hostQueue := [.start] } = .next t := ⟨by decide, by decide, _, rfl⟩
theorem witness_ResultPersists : State.reset.status ≠ .busy ∧
    { State.reset with hostQueue := [.readStatus] }.hostQueue.head? ≠ some .start ∧
    { State.reset with hostQueue := [.readStatus] }.hostQueue.head? ≠ some .reset ∧
    ∃ t, step { State.reset with hostQueue := [.readStatus] } = .next t :=
  ⟨by decide, by decide, by decide, _, rfl⟩
theorem witness_HostQuiescence : p2.status = .busy := by decide
theorem witness_HostReadsResults : { p2 with hostQueue := [.readErrCode] }.hostQueue = .readErrCode :: [] ∧
    { State.reset with hostQueue := [.readStatus] }.hostQueue = .readStatus :: [] ∧
    { State.reset with hostQueue := [.readResultLen] }.hostQueue = .readResultLen :: [] := by decide
theorem witness_HostWritesTakeEffect_inside :
    State.reset.status ≠ .busy ∧ 2 ^ 32 - 1 < 2 ^ State.reset.params.addrW := by decide
theorem witness_HostWritesTakeEffect_outside :
    State.reset.status ≠ .busy ∧ 2 ^ State.reset.params.addrW ≤ 2 ^ 32 := by decide
theorem witness_HostReadsOut : { p2 with status := .fault }.status ≠ .busy ∧ 6 < p2.outCap ∧ p2.outCap ≤ 7 := by decide
theorem witness_FaultLosesTail : 2 < p2.pos ∧ p2.pos ≤ 3 ∧ 6 < p2.outCap ∧ p2.pos ≤ 7 ∧ p2.outCap ≤ 7 := by decide
theorem witness_HostViewPersists_start : { State.reset with hostQueue := [.start] }.status ≠ .busy ∧
    0 ≤ { State.reset with hostQueue := [.start] }.fmtVer ∧
    ∃ t, step { State.reset with hostQueue := [.start] } = .next t := ⟨by decide, by decide, _, rfl⟩
theorem witness_HostViewPersists_reset : (raise .truncatedInput { p2 with hostQueue := [.reset] }).status ≠ .busy ∧
    ∃ t, step (raise .truncatedInput { p2 with hostQueue := [.reset] }) = .next t := ⟨by decide, _, rfl⟩
theorem witness_ParametersNeverChange : ∃ t, step p2 = .next t := ⟨_, rfl⟩
theorem witness_HardwareReset : { p2 with hostQueue := [.reset] }.hostQueue = .reset :: [] ∧ p2.status = .busy ∧
    6 < p2.outCap ∧ p2.outCap ≤ 7 ∧ { State.reset with hostQueue := [.reset] }.status ≠ .busy := by decide
theorem witness_ResetHasInvariant : Params.standard.Legal := by decide
theorem witness_StepKeepsInvariant_state : p2.Inv := by decide
theorem witness_StepKeepsInvariant_step : ∃ t, step p2 = .next t := ⟨_, rfl⟩
theorem witness_RunEnds : p2.Inv ∧ p2.hostQueue = [] := by decide
theorem witness_OldOutputHasNoInfluence : p2.status = .busy ∧ p2.Running ∧
    p2.SameRun { p2 with outMem := [(0, 0x41#8), (1, 0x42#8), (2, 0x43#8), (6, 9#8)] } ∧
    ∃ t, engineStep p2 = .next t :=
  ⟨by decide, by decide, ⟨rfl, by decide⟩, _, rfl⟩
theorem witness_RunIsDecompress :
    { atStart 5 with status := .idle, hostQueue := [.start] }.Inv ∧
    { atStart 5 with status := .idle, hostQueue := [.start] }.status ≠ .busy ∧
    { atStart 5 with status := .idle, hostQueue := [.start] }.buffersOverlap = false := by decide
theorem witness_TrailingInputIgnored : decompress 1 [false, false, false, false, false, false, false, false] 0 0 =
    .ok [] := by decide
/-- P1 cut in the last byte of its second literal: the premise holds, and the cut stream is truncated. -/
theorem witness_CutStreamIsTruncated :
    decompress 4 (bytesToBits [0x05, 0, 0, 0, 0x82, 0x84, 0x86, 0x10, 0x15, 0x01]) 5 0 =
      .ok [0x41, 0x42, 0x43, 0x44, 0x45] ∧
    decompress 4 ((bytesToBits [0x05, 0, 0, 0, 0x82, 0x84, 0x86, 0x10, 0x15, 0x01]).take 73) 5 0 =
      .error .truncatedInput := by decide
theorem witness_AssembledListingDecodes : 5 < 2 ^ (8 * 4) ∧
    listingOutput 5 (matchWindowSize 0) [.lit 0x41 0x42 0x43, .matchTok 1 200] [] =
      some [0x41, 0x42, 0x43, 0x43, 0x43] := by decide

end Sys2Proof.Tests
end

