-- ==== Sys2Proof/Proofs/Cursor.lean ====
section
/-! SUPPORT. What the operational `READ(n)` (R121) does, once for every width and every normalised cursor. The bits of a
field decide its value; one pass of the loop takes the next field; the loop leaves the state of `State.consume`. -/

namespace Sys2Proof.Machine

/-! ### Fields of the stream as numbers -/

theorem State.fieldAt_succ (s : State) (p n : Nat) :
    s.fieldAt p (n + 1) = (s.streamBit p).toNat + 2 * s.fieldAt (p + 1) n := by
  have shift : ∀ i, (s.streamBit (p + (i + 1))).toNat * 2 ^ (i + 1) =
      2 * ((s.streamBit (p + 1 + i)).toNat * 2 ^ i) := fun i => by
    rw [show p + (i + 1) = p + 1 + i by omega, pow_succ]
    ring
  simp [State.fieldAt, List.range_succ_eq_map, Function.comp_def, shift, List.sum_map_mul_left]

/-- The bits of a field are the stream bits it covers, the first lowest (R65). -/
theorem State.testBit_fieldAt (s : State) (p n i : Nat) :
    (s.fieldAt p n).testBit i = (decide (i < n) && s.streamBit (p + i)) := by
  induction n generalizing p i with
  | zero => simp [State.fieldAt]
  | succ n ih =>
    rw [State.fieldAt_succ, Nat.add_comm]
    cases i with
    | zero => cases h : s.streamBit p <;> simp [Nat.testBit_zero]
    | succ i =>
      have half : (2 * s.fieldAt (p + 1) n + (s.streamBit p).toNat) / 2 = s.fieldAt (p + 1) n := by
        have := (s.streamBit p).toNat_lt
        omega
      rw [Nat.testBit_succ, half, ih, show p + 1 + i = p + (i + 1) by omega]
      simp

theorem State.fieldAt_lt (s : State) (p n : Nat) : s.fieldAt p n < 2 ^ n :=
  Nat.lt_pow_two_of_testBit _ fun i hi => by simp [State.testBit_fieldAt, Nat.not_lt.mpr hi]

/-- Two fields in a row are one field of the sum of their widths, the first lowest (R68). -/
theorem State.fieldAt_add (s : State) (p m n : Nat) :
    s.fieldAt p (m + n) = s.fieldAt p m ||| s.fieldAt (p + m) n <<< m := by
  refine Nat.eq_of_testBit_eq fun i => ?_
  simp only [Nat.testBit_or, Nat.testBit_shiftLeft, State.testBit_fieldAt]
  by_cases h : i < m
  · simp [h, Nat.lt_add_right n h]
  · have hp : p + m + (i - m) = p + i := by omega
    have hi : i - m < n ↔ i < m + n := by omega
    simp [h, hp, hi, Nat.not_lt.mp h]

/-- A field inside one byte is a shift and a mask of it, which is the `chunk` of R121. -/
theorem State.fieldAt_in_byte (s : State) {p k : Nat} (h : p % 8 + k ≤ 8) :
    s.fieldAt p k = ((s.inMem.read (p / 8)).toNat >>> (p % 8)) % 2 ^ k := by
  refine Nat.eq_of_testBit_eq fun i => ?_
  rw [State.testBit_fieldAt, Nat.testBit_mod_two_pow, Nat.testBit_shiftRight, BitVec.testBit_toNat]
  by_cases hi : i < k
  · rw [State.streamBit, show (p + i) / 8 = p / 8 by omega, show (p + i) % 8 = p % 8 + i by omega]
  · simp [hi]

/-- A field depends on the bytes of `IN` only. -/
theorem State.fieldAt_congr {s t : State} (h : s.inMem = t.inMem) (p n : Nat) : s.fieldAt p n = t.fieldAt p n := by
  simp only [State.fieldAt, State.streamBit, h]

/-! ### The normalised cursor -/

theorem State.CursorNormal.mod_bitpos {s : State} (h : s.CursorNormal) : s.bitpos % 8 = 8 - s.bitsAvail.toNat := by
  obtain ⟨h1, h8⟩ := h
  rw [State.bitpos]
  omega

theorem State.CursorNormal.div_bitpos {s : State} (h : s.CursorNormal) : s.bitpos / 8 = s.byteIdx := by
  obtain ⟨h1, h8⟩ := h
  rw [State.bitpos]
  omega

/-- `bitpos` decides both registers of a normalised cursor (R24). -/
theorem State.CursorNormal.ext {s t : State} (hs : s.CursorNormal) (ht : t.CursorNormal) (h : s.bitpos = t.bitpos) :
    s.byteIdx = t.byteIdx ∧ s.bitsAvail = t.bitsAvail := by
  refine ⟨by rw [← hs.div_bitpos, ← ht.div_bitpos, h], BitVec.eq_of_toNat_eq ?_⟩
  have es := hs.mod_bitpos
  have et := ht.mod_bitpos
  obtain ⟨hs1, hs8⟩ := hs
  obtain ⟨ht1, ht8⟩ := ht
  omega

theorem State.cursorNormal_consume (s : State) (n v : Nat) : (s.consume n v).CursorNormal := by
  have h : (s.consume n v).bitsAvail.toNat = 8 - (s.bitpos + n) % 8 := s.setBitpos_bitsAvail_toNat (s.bitpos + n)
  rw [State.CursorNormal, h]
  omega

/-! ### One pass of the loop -/

/-- Everything one pass does on a normalised cursor: it moves on by the bits it takes, and their field goes on top of
`ACC`. -/
theorem readPass_eq {s : State} (h : s.CursorNormal) {k : Nat} (hk : k = min s.rem.toNat s.bitsAvail.toNat) :
    readPass s =
      { s.setBitpos (s.bitpos + k) with
        acc := s.acc ||| (BitVec.ofNat 16 (s.fieldAt s.bitpos k) <<< s.shift.toNat)
        shift := s.shift + BitVec.ofNat 5 k
        rem := s.rem - BitVec.ofNat 5 k } := by
  have hmod := h.mod_bitpos
  have hdiv := h.div_bitpos
  obtain ⟨h1, h8⟩ := h
  have chunk : s.fieldAt s.bitpos k = ((s.inMem.read s.byteIdx).toNat >>> (8 - s.bitsAvail.toNat)) % 2 ^ k := by
    rw [State.fieldAt_in_byte s (by omega), hmod, hdiv]
  have left : (s.bitsAvail - BitVec.ofNat 4 k).toNat = s.bitsAvail.toNat - k := by
    rw [BitVec.toNat_sub_of_le] <;> simp [BitVec.le_def] <;> omega
  simp only [readPass, ← hk, ← chunk]
  split
  case isTrue hz =>
    have hk8 : s.bitsAvail.toNat = k := by
      have : (s.bitsAvail - BitVec.ofNat 4 k).toNat = 0 := by rw [hz]; rfl
      omega
    rw [State.setBitpos, show (s.bitpos + k) / 8 = s.byteIdx + 1 by omega, show 8 - (s.bitpos + k) % 8 = 8 by omega]
    rfl
  case isFalse hz =>
    have hpos : s.bitsAvail.toNat - k ≠ 0 := fun e => hz (BitVec.eq_of_toNat_eq (by rw [left, e]; rfl))
    have hb : BitVec.ofNat 4 (8 - (s.bitpos + k) % 8) = s.bitsAvail - BitVec.ofNat 4 k := by
      refine BitVec.eq_of_toNat_eq ?_
      rw [left, BitVec.toNat_ofNat]
      omega
    rw [State.setBitpos, show (s.bitpos + k) / 8 = s.byteIdx by omega, hb]

/-- The state inside `READ(n)` started at `s`, with `d` of its `n` bits taken. -/
def State.reading (s : State) (n d : Nat) : State :=
  { s.consume d (s.fieldAt s.bitpos d) with rem := BitVec.ofNat 5 (n - d) }

theorem State.reading_zero {s : State} (h : s.CursorNormal) (n : Nat) :
    s.reading n 0 = { s with acc := 0#16, shift := 0#5, rem := BitVec.ofNat 5 n } := by
  rw [State.reading, State.consume, Nat.add_zero, State.setBitpos_bitpos h.1 h.2]
  rfl

theorem State.reading_all (s : State) (n : Nat) : s.reading n n = s.consume n (s.fieldAt s.bitpos n) := by
  rw [State.reading, Nat.sub_self]
  rfl

theorem State.bitpos_reading (s : State) (n d : Nat) : (s.reading n d).bitpos = s.bitpos + d :=
  s.bitpos_consume d (s.fieldAt s.bitpos d)

theorem State.cursorNormal_reading (s : State) (n d : Nat) : (s.reading n d).CursorNormal :=
  s.cursorNormal_consume d (s.fieldAt s.bitpos d)

theorem State.reading_rem_toNat (s : State) {n : Nat} (hn : n ≤ 16) (d : Nat) : (s.reading n d).rem.toNat = n - d := by
  simp only [State.reading, BitVec.toNat_ofNat]
  omega

/-- A pass inside `READ(n)` takes the `k` bits that it needs or that the byte still has. -/
theorem readPass_reading (s : State) {n d k : Nat} (hn : n ≤ 16) (hd : d ≤ n)
    (hk : k = min (n - d) (s.reading n d).bitsAvail.toNat) :
    readPass (s.reading n d) = s.reading n (d + k) := by
  have acc : BitVec.ofNat 16 (s.fieldAt s.bitpos d) ||| (BitVec.ofNat 16 (s.fieldAt (s.bitpos + d) k) <<< d) =
      BitVec.ofNat 16 (s.fieldAt s.bitpos (d + k)) := by
    refine BitVec.eq_of_getLsbD_eq fun i hi => ?_
    have low : i - d < 16 := by omega
    rw [State.fieldAt_add, BitVec.getLsbD_or, BitVec.getLsbD_shiftLeft]
    simp only [BitVec.getLsbD_ofNat, Nat.testBit_or, Nat.testBit_shiftLeft, hi, low, decide_true, Bool.true_and]
    by_cases h : i < d
    · simp [h, Nat.not_le.mpr h]
    · simp [h, Nat.not_lt.mp h]
  have shift : (s.reading n d).shift.toNat = d := by
    simp only [State.reading, State.consume_shift, BitVec.toNat_ofNat]
    omega
  have rem : BitVec.ofNat 5 (n - d) - BitVec.ofNat 5 k = BitVec.ofNat 5 (n - (d + k)) := by
    refine BitVec.eq_of_toNat_eq ?_
    simp only [BitVec.toNat_sub, BitVec.toNat_ofNat]
    omega
  rw [readPass_eq (k := k) (s.cursorNormal_reading n d) (by rw [s.reading_rem_toNat hn, hk]), shift, s.bitpos_reading,
    State.fieldAt_congr (show (s.reading n d).inMem = s.inMem from rfl)]
  simp only [State.reading, State.consume, State.setBitpos, acc, rem, Nat.add_assoc, BitVec.ofNat_add]

/-! ### The loop -/

/-- The loop of R121 with `d` of the `n` bits taken, and passes enough for the others. -/
theorem readLoop_reading (s : State) {n d passes : Nat} (hn : n ≤ 16) (hd : d < n) (hp : n - d ≤ passes) :
    (s.bitpos + n ≤ 8 * s.inLen →
      readLoop n passes (s.reading n d) = .value (s.fieldAt s.bitpos n) (s.consume n (s.fieldAt s.bitpos n))) ∧
    (8 * s.inLen < s.bitpos + n → ∃ t, readLoop n passes (s.reading n d) = .truncated t) := by
  induction passes generalizing d with
  | zero => omega
  | succ passes ih =>
    obtain ⟨k, hk⟩ : ∃ k, k = min (n - d) (s.reading n d).bitsAvail.toNat := ⟨_, rfl⟩
    have normal := s.cursorNormal_reading n d
    have hdiv := normal.div_bitpos
    have hmod := normal.mod_bitpos
    obtain ⟨h1, h8⟩ := normal
    rw [s.bitpos_reading] at hdiv hmod
    rw [readLoop, readPass_reading s hn hd.le hk, show (s.reading n d).inLen = s.inLen from rfl]
    have hrem : (s.reading n (d + k)).rem = 0 ↔ n ≤ d + k := by
      rw [← BitVec.toNat_inj, s.reading_rem_toNat hn]
      simp
      omega
    by_cases hend : s.inLen ≤ (s.reading n d).byteIdx
    · rw [if_pos hend]
      exact ⟨fun h => by omega, fun _ => ⟨_, rfl⟩⟩
    rw [if_neg hend]
    by_cases hlast : n ≤ d + k
    · rw [if_pos (hrem.mpr hlast), show d + k = n by omega, s.reading_all]
      have small : s.fieldAt s.bitpos n < 2 ^ n := s.fieldAt_lt _ _
      have fits : 2 ^ n ≤ 2 ^ 16 := Nat.pow_le_pow_right (by decide) hn
      refine ⟨fun _ => ?_, fun h => by omega⟩
      rw [State.consume_acc, BitVec.toNat_ofNat, Nat.mod_eq_of_lt (small.trans_le fits), Nat.mod_eq_of_lt small]
    · rw [if_neg (mt hrem.mp hlast)]
      exact ih (by omega) (by omega)

/-! ### The whole read -/

theorem readBits_eq_readLoop {s : State} (h : s.CursorNormal) {n : Nat} (h1 : 1 ≤ n) (hn : n ≤ 16) :
    readBits n s = readLoop n n (s.reading n 0) := by
  rw [readBits, if_pos ⟨h1, hn⟩, State.reading_zero h]

/-- `READ(n)` with enough bits left is the taking of the next field (R120). -/
theorem readBits_enough {s : State} (h : s.CursorNormal) {n : Nat} (h1 : 1 ≤ n) (hn : n ≤ 16)
    (hb : s.bitpos + n ≤ 8 * s.inLen) :
    readBits n s = .value (s.fieldAt s.bitpos n) (s.consume n (s.fieldAt s.bitpos n)) := by
  rw [readBits_eq_readLoop h h1 hn]
  exact (readLoop_reading s hn h1 le_rfl).1 hb

/-- `READ(n)` with too few bits left raises `TruncatedInput` (R122). -/
theorem readBits_short {s : State} (h : s.CursorNormal) {n : Nat} (h1 : 1 ≤ n) (hn : n ≤ 16)
    (hb : 8 * s.inLen < s.bitpos + n) : ∃ t, readBits n s = .truncated t := by
  rw [readBits_eq_readLoop h h1 hn]
  exact (readLoop_reading s hn h1 le_rfl).2 hb

end Sys2Proof.Machine
end

