-- ==== Sys2Proof/Proofs/ReadsJoin.lean ====
section
/-! SUPPORT. Reads in a row against one read of their sum (R68, R123 (c)). -/

namespace Sys2Proof.Machine

theorem readAll_cons_value {n v : Nat} {s t : State} (h : readBits n s = .value v t) (ns : List Nat) :
    readAll (n :: ns) s = (readAll ns t).map fun r => (v :: r.1, r.2) := by
  simp only [readAll, h]
  cases readAll ns t <;> rfl

theorem readAll_cons_truncated {n : Nat} {s t : State} (h : readBits n s = .truncated t) (ns : List Nat) :
    readAll (n :: ns) s = none := by
  rw [readAll, h]

/-- With enough bits for all of them, reads in a row return, their values join to the one field they cover, and the
cursor ends after it. -/
theorem readAll_enough {s : State} {ns : List Nat} (h : s.CursorNormal) (h1 : ∀ n ∈ ns, 1 ≤ n) (hn : ns.sum ≤ 16)
    (hb : s.bitpos + ns.sum ≤ 8 * s.inLen) :
    ∃ vs t, readAll ns s = some (vs, t) ∧ joinFields ns vs = s.fieldAt s.bitpos ns.sum ∧
      t.CursorNormal ∧ t.bitpos = s.bitpos + ns.sum := by
  induction ns generalizing s with
  | nil => exact ⟨[], s, rfl, rfl, h, rfl⟩
  | cons n ns ih =>
    rw [List.sum_cons] at hn hb ⊢
    obtain ⟨hn1, hns1⟩ := List.forall_mem_cons.mp h1
    have first := readBits_enough h hn1 (by omega) (by omega)
    obtain ⟨vs, t, hall, hjoin, hnorm, hpos⟩ :=
      ih (s.cursorNormal_consume n (s.fieldAt s.bitpos n)) hns1 (by omega)
        (by rw [State.bitpos_consume, State.consume_inLen]; omega)
    rw [State.bitpos_consume] at hjoin hpos
    refine ⟨s.fieldAt s.bitpos n :: vs, t, ?_, ?_, hnorm, by omega⟩
    · rw [readAll_cons_value first, hall]
      rfl
    · rw [joinFields, hjoin, State.fieldAt_add, State.fieldAt_congr (State.consume_inMem s n _)]

/-- With too few bits for all of them, some read in a row does not return. -/
theorem readAll_short {s : State} {ns : List Nat} (h : s.CursorNormal) (h1 : ∀ n ∈ ns, 1 ≤ n) (hpos : 1 ≤ ns.sum)
    (hn : ns.sum ≤ 16) (hb : 8 * s.inLen < s.bitpos + ns.sum) : readAll ns s = none := by
  induction ns generalizing s with
  | nil => simp at hpos
  | cons n ns ih =>
    rw [List.sum_cons] at hn hb
    obtain ⟨hn1, hns1⟩ := List.forall_mem_cons.mp h1
    by_cases hfirst : s.bitpos + n ≤ 8 * s.inLen
    · have rest := ih (s.cursorNormal_consume n (s.fieldAt s.bitpos n)) hns1 (by omega) (by omega)
        (by rw [State.bitpos_consume, State.consume_inLen]; omega)
      rw [readAll_cons_value (readBits_enough h hn1 (by omega) hfirst), rest]
      rfl
    · obtain ⟨t, ht⟩ := readBits_short h hn1 (by omega) (by omega)
      exact readAll_cons_truncated ht ns

/-- Settles O8: the bits left decide both sides, and with enough of them both are the one field of all the bits. -/
theorem readsJoin : Obligations.ReadsJoin := by
  unfold Obligations.ReadsJoin
  intro s ns h h1 hpos hn
  by_cases hb : s.bitpos + ns.sum ≤ 8 * s.inLen
  · obtain ⟨vs, t, hall, hjoin, hnorm, hend⟩ := readAll_enough h h1 hn hb
    have one := readBits_enough h hpos hn hb
    rw [hall, one, ← hjoin]
    refine ⟨fun vs' t' e => ?_, by simp⟩
    obtain ⟨rfl, rfl⟩ : vs = vs' ∧ t = t' := by simpa using e
    exact ⟨_, rfl, (s.cursorNormal_consume _ _).ext hnorm (by rw [State.bitpos_consume, hend])⟩
  · obtain ⟨u, hu⟩ := readBits_short h hpos hn (by omega)
    rw [readAll_short h h1 hpos hn (by omega), hu]
    simp

end Sys2Proof.Machine
end

