-- ==== Sys2Proof/Proofs/OffsetWidth.lean ====
section
/-! SUPPORT. The Width Calculator on a number with a known highest bit (R140), and the offset width on both sides of the
window size (R96). -/

namespace Sys2Proof

/-! ### `BITSREQ` -/

@[simp] theorem bitsReq_zero : bitsReq 0 = 1 := rfl

/-- `BITSREQ(n)` is the `k` whose top bit is the highest set bit of `n`. -/
theorem bitsReq_eq_of_bounds {n : BitVec 16} {k : Nat} (hk : 1 ≤ k) (hlow : 2 ^ (k - 1) ≤ n.toNat)
    (hhigh : n.toNat < 2 ^ k) : bitsReq n = k := by
  have hn : n.toNat ≠ 0 := ((Nat.two_pow_pos (k - 1)).trans_le hlow).ne'
  have htop : n.toNat.log2 = k - 1 := (Nat.log2_eq_iff hn).mpr ⟨hlow, by rwa [Nat.sub_add_cancel hk]⟩
  rw [bitsReq, if_neg hn, htop, Nat.sub_add_cancel hk]

/-! ### `MWS` and the window -/

@[simp] theorem matchWindowSize_toNat (v : Int) : (matchWindowSize v).toNat = if v = 0 then 8192 else 8191 := by
  unfold matchWindowSize
  split <;> rfl

/-- `min(POS, MWS)` fits the 16 bits of the Width Calculator's operand, since `MWS` has 14. -/
theorem windowCap_toNat (pos : Nat) (mws : BitVec 14) : (windowCap pos mws).toNat = min pos mws.toNat := by
  have hmws : mws.toNat < 2 ^ 14 := mws.isLt
  rw [windowCap, BitVec.toNat_ofNat, Nat.mod_eq_of_lt (by omega)]

/-- Up to the window size the window cap is `POS` itself. -/
theorem windowCap_toNat_of_le {pos : Nat} {mws : BitVec 14} (h : pos ≤ mws.toNat) :
    (windowCap pos mws).toNat = pos := by
  rw [windowCap_toNat, Nat.min_eq_left h]

/-- From the window size on the window cap is `MWS`. -/
theorem windowCap_of_ge {pos : Nat} {mws : BitVec 14} (h : mws.toNat ≤ pos) : windowCap pos mws = mws.setWidth 16 := by
  refine BitVec.eq_of_toNat_eq ?_
  rw [windowCap_toNat, Nat.min_eq_right h, BitVec.toNat_setWidth_of_le (by decide)]

/-! ### `OFFW` -/

@[simp] theorem offWidth_pos_zero (mws : BitVec 14) : offWidth 0 mws = 1 := by
  rw [offWidth, windowCap, Nat.zero_min]
  exact bitsReq_zero

theorem offWidth_eq_of_bounds {pos k : Nat} {mws : BitVec 14} (hcap : pos ≤ mws.toNat) (hk : 1 ≤ k)
    (hlow : 2 ^ (k - 1) ≤ pos) (hhigh : pos < 2 ^ k) : offWidth pos mws = k :=
  bitsReq_eq_of_bounds hk (by rwa [windowCap_toNat_of_le hcap]) (by rwa [windowCap_toNat_of_le hcap])

theorem offWidth_of_window_le {pos : Nat} {mws : BitVec 14} (h : mws.toNat ≤ pos) :
    offWidth pos mws = bitsReq (mws.setWidth 16) := by
  rw [offWidth, windowCap_of_ge h]

/-- The one place where the version shows: 8192 has 14 bits, 8191 has 13. -/
theorem bitsReq_matchWindowSize (v : Int) :
    bitsReq ((matchWindowSize v).setWidth 16) = if v = 0 then 14 else 13 := by
  unfold matchWindowSize
  split <;> decide

/-- Settles O11: at `POS = 0` nothing is behind the token; below 8192 the window holds all of `POS` in every version; from
there on the window size is the cap. -/
theorem offsetWidthTable : Obligations.OffsetWidthTable := by
  unfold Obligations.OffsetWidthTable
  refine ⟨fun _ _ => rfl, fun v _ => ⟨offWidth_pos_zero _, ?_, ?_⟩⟩
  · intro pos k hk hk13 hlow hhigh
    have hpos : pos < 2 ^ 13 := hhigh.trans_le (Nat.pow_le_pow_right (by decide) hk13)
    have hcap : pos ≤ (matchWindowSize v).toNat := by
      rw [matchWindowSize_toNat]
      split <;> omega
    exact offWidth_eq_of_bounds hcap hk hlow hhigh
  · intro pos hpos
    have hcap : (matchWindowSize v).toNat ≤ pos := by
      rw [matchWindowSize_toNat]
      split <;> omega
    rw [offWidth_of_window_le hcap, bitsReq_matchWindowSize]

end Sys2Proof
end

