-- ==== Sys2Proof/Proofs/ReadContract.lean ====
section
/-! SUPPORT. The contract of `READ(n)` (R120): its value, its fault, and the widths it refuses. -/

namespace Sys2Proof.Machine

/-- A width outside 1 to 16 is refused, whatever the cursor (R125). -/
theorem readBits_refused {n : Nat} (h : n = 0 ∨ 16 < n) (s : State) : readBits n s = .refused n := by
  have hn : ¬(1 ≤ n ∧ n ≤ readMax) := by
    rw [readMax]
    omega
  rw [readBits, if_neg hn]

/-- Settles O7: the loop's three outcomes, one per clause; the next `n` bits are the field at `bitpos`. -/
theorem readReturnsNextBits : Obligations.ReadReturnsNextBits := by
  unfold Obligations.ReadReturnsNextBits
  intro s n hnormal
  refine ⟨fun h1 hn henough => ?_, fun h1 hn hshort => ?_, fun hwidth => ?_⟩
  · exact ⟨readBits_enough hnormal h1 hn henough, s.bitpos_consume n _, s.fieldAt_lt _ n⟩
  · exact readBits_short hnormal h1 hn hshort
  · exact readBits_refused hwidth s

end Sys2Proof.Machine
end

