-- ==== Sys2Proof/Proofs/WidthCalculator.lean ====
section
/-! SUPPORT. The Width Calculator on every operand (R140): the widths that hold the number are those from `BITSREQ` up,
and the bit below `BITSREQ` is the number's highest set bit. -/

namespace Sys2Proof

/-! ### The widths that hold a number -/

/-- `BITSREQ(n)` is the least width, from 1 up, that holds `n`. -/
theorem bitsReq_le_iff {n : BitVec 16} {k : Nat} (hk : 1 ≤ k) : bitsReq n ≤ k ↔ n.toNat < 2 ^ k := by
  unfold bitsReq
  split
  case isTrue hn => simp [hn, hk]
  case isFalse hn => exact Nat.succ_le_iff.trans (Nat.log2_lt hn)

theorem one_le_bitsReq (n : BitVec 16) : 1 ≤ bitsReq n := by
  unfold bitsReq
  split
  · exact le_rfl
  · exact Nat.le_add_left 1 _

theorem bitsReq_le_sixteen (n : BitVec 16) : bitsReq n ≤ 16 :=
  (bitsReq_le_iff (by decide)).mpr n.isLt

theorem toNat_lt_two_pow_bitsReq (n : BitVec 16) : n.toNat < 2 ^ bitsReq n :=
  (bitsReq_le_iff (one_le_bitsReq n)).mp le_rfl

/-- A width that holds the greater number holds the smaller one. -/
theorem bitsReq_mono {n m : BitVec 16} (h : n.toNat ≤ m.toNat) : bitsReq n ≤ bitsReq m :=
  (bitsReq_le_iff (one_le_bitsReq m)).mpr (h.trans_lt (toNat_lt_two_pow_bitsReq m))

/-! ### The highest set bit -/

theorem getLsbD_of_bitsReq_le {n : BitVec 16} {i : Nat} (hi : bitsReq n ≤ i) : n.getLsbD i = false :=
  Nat.testBit_lt_two_pow ((bitsReq_le_iff ((one_le_bitsReq n).trans hi)).mp hi)

theorem getLsbD_bitsReq_sub_one {n : BitVec 16} (h : n ≠ 0) : n.getLsbD (bitsReq n - 1) = true := by
  have hn : n.toNat ≠ 0 := BitVec.toNat_ne_iff_ne.mpr h
  rw [bitsReq, if_neg hn, Nat.add_sub_cancel]
  exact Nat.testBit_log2 hn

theorem two_pow_bitsReq_sub_one_le {n : BitVec 16} (h : n ≠ 0) : 2 ^ (bitsReq n - 1) ≤ n.toNat :=
  Nat.ge_two_pow_of_testBit (getLsbD_bitsReq_sub_one h)

/-- The two powers of two around a number other than 0 decide `BITSREQ` (R140's "unique `w`"). -/
theorem two_pow_bounds_iff_eq_bitsReq {n : BitVec 16} {w : Nat} (h : n ≠ 0) (hw : 1 ≤ w) :
    (2 ^ (w - 1) ≤ n.toNat ∧ n.toNat < 2 ^ w) ↔ w = bitsReq n := by
  constructor
  · rintro ⟨hlow, hhigh⟩
    exact (bitsReq_eq_of_bounds hw hlow hhigh).symm
  · rintro rfl
    exact ⟨two_pow_bitsReq_sub_one_le h, toNat_lt_two_pow_bitsReq n⟩

/-! ### The obligations -/

/-- Settles O9: the least width's top bit is set and every bit from it up is clear, so the bounds at that width hold,
and they hold at no other. -/
theorem bitsReqIsMinimalWidth : Obligations.BitsReqIsMinimalWidth := by
  unfold Obligations.BitsReqIsMinimalWidth
  intro n
  refine ⟨?zero, fun hn => ⟨getLsbD_bitsReq_sub_one hn, fun _ => getLsbD_of_bitsReq_le, ?unique⟩,
    one_le_bitsReq n, bitsReq_le_sixteen n⟩
  case zero =>
    rintro rfl
    exact bitsReq_zero
  case unique => exact fun _ => two_pow_bounds_iff_eq_bitsReq hn

/-- Settles O10: each value of the list is read off the row of the table that holds it. -/
theorem bitsReqTable : Obligations.BitsReqTable := by
  unfold Obligations.BitsReqTable
  refine ⟨bitsReq_zero, ?_, ?_, ?_, ?_, fun _ _ => bitsReq_eq_of_bounds, fun _ _ => bitsReq_mono⟩
  all_goals exact bitsReq_eq_of_bounds (by decide) (by decide) (by decide)

end Sys2Proof
end

