-- ==== Sys2Proof/Proofs/HeaderValue.lean ====
section
/-! SUPPORT. The header's value as its bytes (R66, R155): the bits fetched inside the stream are the field at the cursor,
and a field of whole bytes is their little-endian sum. -/

namespace Sys2Proof.Machine

/-! ### Fields of whole bytes -/

/-- Two fields in a row as a sum: they share no bit. -/
theorem State.fieldAt_add_eq_add (s : State) (p m n : Nat) :
    s.fieldAt p (m + n) = s.fieldAt p m + s.fieldAt (p + m) n * 2 ^ m := by
  rw [State.fieldAt_add, Nat.or_comm, ← Nat.shiftLeft_add_eq_or_of_lt (s.fieldAt_lt p m), Nat.shiftLeft_eq, Nat.add_comm]

/-- The field of a byte's eight bits is the byte (R64). -/
theorem State.fieldAt_byte (s : State) (i : Nat) : s.fieldAt (8 * i) 8 = (s.inMem.read i).toNat := by
  have hdiv : 8 * i / 8 = i := by omega
  have hmod : 8 * i % 8 = 0 := by omega
  rw [State.fieldAt_in_byte s (by omega), hdiv, hmod, Nat.shiftRight_zero, Nat.mod_eq_of_lt (s.inMem.read i).isLt]

/-- The first `n` bytes of the stream as one field are little-endian (R66). -/
theorem State.fieldAt_zero_bytes (s : State) (n : Nat) :
    s.fieldAt 0 (8 * n) = ((List.range n).map fun i => (s.inMem.read i).toNat * 2 ^ (8 * i)).sum := by
  induction n with
  | zero => rfl
  | succ n ih =>
    have last : s.fieldAt (0 + 8 * n) 8 = (s.inMem.read n).toNat := by rw [Nat.zero_add, s.fieldAt_byte]
    rw [Nat.mul_succ, State.fieldAt_add_eq_add, ih, last]
    simp [List.range_succ]

/-! ### The fetched bits as a field -/

/-- Stream bits as the decoder puts them together make the field they cover (R65). -/
theorem State.bitsToNat_streamBits (s : State) (p n : Nat) :
    bitsToNat ((List.range n).map fun j => s.streamBit (p + j)) = s.fieldAt p n := by
  induction n generalizing p with
  | zero => rfl
  | succ n ih =>
    rw [State.fieldAt_succ, ← ih (p + 1)]
    simp [List.range_succ_eq_map, bitsToNat, Function.comp_def, Nat.add_assoc, Nat.add_comm 1]

/-- A fetch that stays inside the stream gives stream bits only (R60). -/
theorem State.fetchBits_eq_streamBits {s : State} {n : Nat} (h : s.bitpos + n ≤ 8 * s.inLen) :
    s.fetchBits n = (List.range n).map fun j => s.streamBit (s.bitpos + j) := by
  refine List.map_congr_left fun j hj => ?_
  have hlt := List.mem_range.mp hj
  exact if_pos (by omega)

theorem State.bitsToNat_fetchBits {s : State} {n : Nat} (h : s.bitpos + n ≤ 8 * s.inLen) :
    bitsToNat (s.fetchBits n) = s.fieldAt s.bitpos n := by
  rw [State.fetchBits_eq_streamBits h, State.bitsToNat_streamBits]

/-! ### The fetched header -/

/-- A field that is all the bits there are. -/
theorem takeField_all {n : Nat} {bits : List Bool} (h : bits.length = n) :
    takeField n bits = some (bitsToNat bits, []) := by
  rw [takeField_enough h.ge, List.take_of_length_le h.le, List.drop_of_length_le h.le]

/-- As many bits as the fetch makes for a header decode to their value, with no bit left (R92). -/
theorem decode_header_all {n : Nat} {bits : List Bool} (h : bits.length = fetchLength (.header n)) :
    decode (.header n) bits = .ok (.hdr (bitsToNat bits), []) := by
  have htake : takeField (byteBits * n) bits = some (bitsToNat bits, []) := takeField_all h
  simp only [decode, htake]

theorem State.shape_of_bitpos_zero {s : State} (h : s.bitpos = 0) : s.shape = .header s.params.hdrBytes := by
  simp [State.shape, State.atHeader, h]

/-- The header's value is the field at stream bit 0 of as many bits as it has. -/
theorem State.fetch_header {s : State} (h0 : s.bitpos = 0) (hlen : s.params.hdrBytes ≤ s.inLen) :
    s.fetch = .ok (.hdr (s.fieldAt 0 (8 * s.params.hdrBytes)), []) := by
  have hin : s.bitpos + 8 * s.params.hdrBytes ≤ 8 * s.inLen := by omega
  have hvalue := State.bitsToNat_fetchBits hin
  rw [h0] at hvalue
  rw [State.fetch, State.shape_of_bitpos_zero h0, decode_header_all (s.fetchBits_length _)]
  simp only [fetchLength, byteBits, hvalue]

/-- Settles O16: the fetched value is the field of the first `HDR_BYTES` bytes, which is their little-endian sum. -/
theorem headerValueFromItsBytes : Obligations.HeaderValueFromItsBytes := by
  unfold Obligations.HeaderValueFromItsBytes
  intro s h0 hlen
  rw [State.fetch_header h0 hlen, State.fieldAt_zero_bytes]

end Sys2Proof.Machine
end

