-- ==== Sys2Proof/Proofs/EncodedFields.lean ====
section
/-! SUPPORT. What the encoder writes the decoder reads back, with any bits after it: a field, the bytes of a literal, a whole
instruction; and packing bits into bytes loses none (30_encoding.md R90 to R98, R107). -/

namespace Sys2Proof

/-! ### Fields -/

theorem bitsToNat_natToBits (n v : Nat) : bitsToNat (natToBits n v) = v % 2 ^ n := by
  induction n generalizing v with
  | zero => simp [natToBits, bitsToNat, Nat.mod_one]
  | succ n ih =>
    have hbit : (v % 2 == 1).toNat = v % 2 := by
      rcases Nat.mod_two_eq_zero_or_one v with h | h <;> simp [h]
    rw [natToBits, bitsToNat, ih, hbit, pow_succ', Nat.mod_mul]

/-- The bits of a number with fewer bits than the field are those bits, then zeros. -/
theorem natToBits_bitsToNat {n : Nat} {bits : List Bool} (h : bits.length ≤ n) :
    natToBits n (bitsToNat bits) = bits ++ List.replicate (n - bits.length) false := by
  induction n generalizing bits with
  | zero =>
    obtain rfl : bits = [] := List.length_eq_zero_iff.mp (by omega)
    rfl
  | succ n ih =>
    cases bits with
    | nil => simpa [natToBits, bitsToNat, List.replicate_succ] using ih (bits := []) (Nat.zero_le n)
    | cons b bits =>
      have hhead : ((b.toNat + 2 * bitsToNat bits) % 2 == 1) = b := by
        cases b <;> simp [Nat.add_mod]
      have htail : (b.toNat + 2 * bitsToNat bits) / 2 = bitsToNat bits := by
        have := Bool.toNat_le b
        omega
      rw [natToBits, bitsToNat, hhead, htail, ih (by simpa using h)]
      simp

/-- A value that fits its field is taken back from the field's bits. -/
theorem takeField_natToBits_append {n v : Nat} (h : v < 2 ^ n) (rest : List Bool) :
    takeField n (natToBits n v ++ rest) = some (v, rest) := by
  rw [takeField_enough (by simp), List.take_left' (natToBits_length n v), List.drop_left' (natToBits_length n v),
    bitsToNat_natToBits, Nat.mod_eq_of_lt h]

/-! ### Instructions -/

theorem decodeBytes_append (bs : List Byte) (rest : List Bool) :
    decodeBytes bs.length ((bs.map fun b => natToBits byteBits b.toNat).flatten ++ rest) = some (bs, rest) := by
  induction bs with
  | nil => rfl
  | cons b bs ih =>
    have hfield := fun more => takeField_natToBits_append (n := byteBits) b.isLt more
    simp only [List.map_cons, List.flatten_cons, List.append_assoc, List.length_cons, decodeBytes, hfield, ih,
      BitVec.ofNat_toNat, BitVec.setWidth_eq]

/-- The first `k` bytes of a well-formed literal, filled up with zeros, are the literal's three bytes (R94). -/
theorem getD_take_of_wf_lit {k offw : Nat} {b0 b1 b2 : Byte} (hk : 1 ≤ k)
    (h : (Instr.lit b0 b1 b2).wf (.token k offw) = true) :
    ([b0, b1, b2].take k).getD 0 0 = b0 ∧ ([b0, b1, b2].take k).getD 1 0 = b1 ∧ ([b0, b1, b2].take k).getD 2 0 = b2 := by
  match k, hk with
  | 1, _ => simp_all [Instr.wf]
  | 2, _ => simp_all [Instr.wf]
  | _ + 3, _ => simp

theorem decode_encode_lit {k offw : Nat} {b0 b1 b2 : Byte} (hk1 : 1 ≤ k) (hk3 : k ≤ 3)
    (h : (Instr.lit b0 b1 b2).wf (.token k offw) = true) (rest : List Bool) :
    decode (.token k offw) (encode (.token k offw) (.lit b0 b1 b2) ++ rest) = .ok (.lit b0 b1 b2, rest) := by
  obtain ⟨h0, h1, h2⟩ := getD_take_of_wf_lit hk1 h
  have hbytes := decodeBytes_append ([b0, b1, b2].take k) rest
  rw [List.length_take_of_le (by simpa using hk3)] at hbytes
  simp only [encode, List.cons_append, decode, decodeLit, hbytes, h0, h1, h2]

theorem decode_encode_match {k offw : Nat} {offset : BitVec 16} {length : Byte}
    (h : (Instr.matchTok offset length).wf (.token k offw) = true) (rest : List Bool) :
    decode (.token k offw) (encode (.token k offw) (.matchTok offset length) ++ rest) =
      .ok (.matchTok offset length, rest) := by
  have hoffset := fun more => takeField_natToBits_append (of_decide_eq_true h) more
  have hlength := takeField_natToBits_append (n := lenBits) length.isLt rest
  simp only [encode, List.cons_append, List.append_assoc, decode, decodeMatch, hoffset, hlength,
    BitVec.ofNat_toNat, BitVec.setWidth_eq]

theorem decode_encode_header {n len : Nat} (h : len < 2 ^ (byteBits * n)) (rest : List Bool) :
    decode (.header n) (encode (.header n) (.hdr len) ++ rest) = .ok (.hdr len, rest) := by
  simp only [encode, decode, takeField_natToBits_append h]

/-! ### Bytes of the stream -/

/-- The stream bits of the byte made of up to eight bits (R64, R107). -/
theorem byteToBits_ofNat_bitsToNat {bits : List Bool} (h : bits.length ≤ 8) :
    byteToBits (BitVec.ofNat 8 (bitsToNat bits)) = bits ++ List.replicate (8 - bits.length) false := by
  have hlt : bitsToNat bits < 2 ^ 8 := (bitsToNat_lt bits).trans_le (Nat.pow_le_pow_right (by decide) h)
  rw [byteToBits, BitVec.toNat_ofNat, Nat.mod_eq_of_lt hlt]
  exact natToBits_bitsToNat h

@[simp] theorem bytesToBits_cons (b : Byte) (bs : List Byte) : bytesToBits (b :: bs) = byteToBits b ++ bytesToBits bs := rfl

/-- Enough bytes hold all the bits, then zeros (R107). -/
theorem bytesToBits_packBytes {n : Nat} {bits : List Bool} (h : bits.length ≤ 8 * n) :
    bytesToBits (packBytes n bits) = bits ++ List.replicate (8 * n - bits.length) false := by
  induction n generalizing bits with
  | zero =>
    obtain rfl : bits = [] := List.length_eq_zero_iff.mp (by omega)
    rfl
  | succ n ih =>
    have hfirst := byteToBits_ofNat_bitsToNat (List.length_take_le 8 bits)
    have hrest := ih (bits := bits.drop 8) (by rw [List.length_drop]; omega)
    rw [packBytes, bytesToBits_cons, hfirst, hrest, List.length_take, List.length_drop]
    by_cases h8 : 8 ≤ bits.length
    · have hnone : 8 - min 8 bits.length = 0 := by omega
      have hzeros : 8 * n - (bits.length - 8) = 8 * (n + 1) - bits.length := by omega
      rw [hnone, hzeros, List.replicate_zero, List.append_nil, ← List.append_assoc, List.take_append_drop]
    · have hzeros : 8 - min 8 bits.length + (8 * n - (bits.length - 8)) = 8 * (n + 1) - bits.length := by omega
      rw [List.take_of_length_le (by omega), List.drop_eq_nil_of_le (by omega), List.nil_append, List.append_assoc,
        List.replicate_append_replicate, hzeros]

end Sys2Proof
end

