-- ==== Sys2Proof/Proofs/AssembledListing.lean ====
section
/-! SUPPORT. A well-formed listing through the assembler and back (R107, R200): the assembler's output position is the
decoder's, so at every token the decoder expects the shape the token was encoded in. -/

namespace Sys2Proof.Machine

/-! ### The positions -/

@[simp] theorem copyFrom_length (offset n : Nat) (out : List Byte) : (copyFrom offset n out).length = out.length + n := by
  induction n generalizing out with
  | zero => rfl
  | succ n ih =>
    rw [copyFrom, ih, List.length_append, List.length_singleton]
    omega

theorem litBytes_length (b0 b1 b2 : Byte) (len pos : Nat) :
    ([b0, b1, b2].take (litCount len pos)).length = litCount len pos :=
  List.length_take_of_le (Nat.min_le_left _ _)

/-- Before the end a literal has 1 to 3 bytes (R97). -/
theorem litCount_bounds {len pos : Nat} (h : pos < len) : 1 ≤ litCount len pos ∧ litCount len pos ≤ 3 := by
  rw [litCount, litMax]
  omega

/-! ### One token, by each of the three functions -/

/-- Everything a listing that denotes bytes can begin with (R106, R200). -/
theorem listingOutput_cons {len : Nat} {mws : BitVec 14} {i : Instr} {is : List Instr} {out res : List Byte}
    (h : listingOutput len mws (i :: is) out = some res) :
    out.length < len ∧ i.wf (.token (litCount len out.length) (offWidth out.length mws)) = true ∧
    ((∃ b0 b1 b2, i = .lit b0 b1 b2 ∧
        listingOutput len mws is (out ++ [b0, b1, b2].take (litCount len out.length)) = some res) ∨
      (∃ offset length, i = .matchTok offset length ∧ offsetLegal offset out.length = true ∧
        listingOutput len mws is (copyFrom offset.toNat (copyCount length len out.length) out) = some res)) := by
  simp only [listingOutput] at h
  split at h
  case isFalse => cases h
  case isTrue hfits =>
    refine ⟨hfits.1, hfits.2, ?_⟩
    cases i with
    | hdr _ => cases h
    | lit b0 b1 b2 => exact .inl ⟨b0, b1, b2, rfl, h⟩
    | matchTok offset length =>
      simp only at h
      split at h
      case isTrue hlegal => exact .inr ⟨offset, length, rfl, hlegal, h⟩
      case isFalse => cases h

/-- A listing stops exactly when `POS = L`. -/
theorem listingOutput_length {len : Nat} {mws : BitVec 14} {tokens : List Instr} {out res : List Byte}
    (h : listingOutput len mws tokens out = some res) : res.length = len := by
  induction tokens generalizing out with
  | nil =>
    rw [listingOutput] at h
    split at h
    case isTrue hlen => exact Option.some.inj h ▸ hlen
    case isFalse => cases h
  | cons i is ih =>
    obtain ⟨-, -, ⟨_, _, _, -, hrest⟩ | ⟨_, _, -, -, hrest⟩⟩ := listingOutput_cons h
    · exact ih hrest
    · exact ih hrest

theorem assembleTokens_lit (len pos : Nat) (mws : BitVec 14) (b0 b1 b2 : Byte) (is : List Instr) :
    assembleTokens len mws pos (.lit b0 b1 b2 :: is) =
      encode (.token (litCount len pos) (offWidth pos mws)) (.lit b0 b1 b2) ++
        assembleTokens len mws (pos + litCount len pos) is := rfl

theorem assembleTokens_match (len pos : Nat) (mws : BitVec 14) (offset : BitVec 16) (length : Byte) (is : List Instr) :
    assembleTokens len mws pos (.matchTok offset length :: is) =
      encode (.token (litCount len pos) (offWidth pos mws)) (.matchTok offset length) ++
        assembleTokens len mws (pos + copyCount length len pos) is := rfl

theorem decompressTokens_done {len : Nat} {out : List Byte} (h : len ≤ out.length) (mws : BitVec 14) (n : Nat)
    (bits : List Bool) : decompressTokens len mws n bits out = .ok out := by
  cases n <;> exact if_neg (by omega)

theorem decompressTokens_lit {len n : Nat} {mws : BitVec 14} {bits rest : List Bool} {out : List Byte} {b0 b1 b2 : Byte}
    (h : out.length < len)
    (hdec : decode (.token (litCount len out.length) (offWidth out.length mws)) bits = .ok (.lit b0 b1 b2, rest)) :
    decompressTokens len mws (n + 1) bits out =
      decompressTokens len mws n rest (out ++ [b0, b1, b2].take (litCount len out.length)) := by
  simp only [decompressTokens, if_pos h, hdec]

theorem decompressTokens_match {len n : Nat} {mws : BitVec 14} {bits rest : List Bool} {out : List Byte}
    {offset : BitVec 16} {length : Byte} (h : out.length < len) (hlegal : offsetLegal offset out.length = true)
    (hdec : decode (.token (litCount len out.length) (offWidth out.length mws)) bits =
      .ok (.matchTok offset length, rest)) :
    decompressTokens len mws (n + 1) bits out =
      decompressTokens len mws n rest (copyFrom offset.toNat (copyCount length len out.length) out) := by
  simp only [decompressTokens, if_pos h, hdec, if_pos hlegal]

/-! ### The whole listing -/

/-- The tokens of a listing decode to what it denotes, with any bits after them, when there may be as many tokens as they
have bits: every token has at least its flag. -/
theorem decompressTokens_assembleTokens {len : Nat} {mws : BitVec 14} {tokens : List Instr} {out res : List Byte} {n : Nat}
    (h : listingOutput len mws tokens out = some res) (hn : (assembleTokens len mws out.length tokens).length ≤ n)
    (more : List Bool) :
    decompressTokens len mws n (assembleTokens len mws out.length tokens ++ more) out = .ok res := by
  induction tokens generalizing out n with
  | nil =>
    rw [listingOutput] at h
    split at h
    case isTrue hlen => exact Option.some.inj h ▸ decompressTokens_done hlen.ge mws n _
    case isFalse => cases h
  | cons i is ih =>
    obtain ⟨hlt, hwf, ⟨b0, b1, b2, rfl, hrest⟩ | ⟨offset, length, rfl, hlegal, hrest⟩⟩ := listingOutput_cons h
    · rw [assembleTokens_lit] at hn ⊢
      simp only [encode, List.cons_append, List.length_cons, List.length_append] at hn
      obtain ⟨n, rfl⟩ := Nat.exists_eq_add_one_of_ne_zero (n := n) (by omega)
      obtain ⟨hk1, hk3⟩ := litCount_bounds hlt
      have hnext := ih hrest (n := n) (by rw [List.length_append, litBytes_length]; omega)
      rw [List.length_append, litBytes_length] at hnext
      rw [List.append_assoc, decompressTokens_lit hlt (decode_encode_lit hk1 hk3 hwf _), hnext]
    · rw [assembleTokens_match] at hn ⊢
      simp only [encode, List.cons_append, List.length_cons, List.length_append] at hn
      obtain ⟨n, rfl⟩ := Nat.exists_eq_add_one_of_ne_zero (n := n) (by omega)
      have hnext := ih hrest (n := n) (by rw [copyFrom_length]; omega)
      rw [copyFrom_length] at hnext
      rw [List.append_assoc, decompressTokens_match hlt hlegal (decode_encode_match hwf _), hnext]

/-- An assembled listing as stream bits: the header, the tokens, zeros up to the end of the last byte (R107). -/
theorem bytesToBits_assemble (hdrBytes len : Nat) (v : Int) (tokens : List Instr) :
    ∃ zeros, bytesToBits (assemble hdrBytes len v tokens) =
      encode (.header hdrBytes) (.hdr len) ++ (assembleTokens len (matchWindowSize v) 0 tokens ++ zeros) :=
  ⟨_, by rw [assemble, bytesToBits_packBytes (by omega), List.append_assoc]⟩

theorem decompress_of_header {hdrBytes outCap len : Nat} {v : Int} {bits rest : List Bool} (hv : 0 ≤ v)
    (hcap : len ≤ outCap) (hdec : decode (.header hdrBytes) bits = .ok (.hdr len, rest)) :
    decompress hdrBytes bits outCap v = decompressTokens len (matchWindowSize v) rest.length rest [] := by
  simp only [decompress, if_neg (not_lt.mpr hv), hdec, if_neg (not_lt.mpr hcap)]

/-- Settles O59: the header decodes to `L`, then the tokens decode one by one, and there are no more of them than bits. -/
theorem assembledListingDecodes : Obligations.AssembledListingDecodes := by
  unfold Obligations.AssembledListingDecodes
  intro hdrBytes len outCap v tokens out _ _ hlen hcap hv hout
  obtain ⟨zeros, hbits⟩ := bytesToBits_assemble hdrBytes len v tokens
  have hheader := decode_encode_header hlen (assembleTokens len (matchWindowSize v) 0 tokens ++ zeros)
  have htokens := decompressTokens_assembleTokens hout
    (n := (assembleTokens len (matchWindowSize v) 0 tokens ++ zeros).length) (by simp) zeros
  refine ⟨listingOutput_length hout, ?_⟩
  rw [hbits, decompress_of_header hv hcap hheader]
  exact htokens

end Sys2Proof.Machine
end

