-- ==== Sys2Proof/Proofs/Orchestrator.lean ====
section
/-! SUPPORT. The engine's step where the loop test ends the run (45_orchestrator.md R193, R194). -/

namespace Sys2Proof.Machine

/-- With no host action pending a machine that is `BUSY` moves as its engine does (log entry 5). -/
theorem step_eq_busyStep {s : State} (hqueue : s.hostQueue = []) (hbusy : s.status = .busy) : step s = busyStep s := by
  simp only [step, nextMove, hqueue, engineStep, hbusy]

/-- Behind the header the loop test ends the run as soon as `POS` has reached `L`. -/
theorem busyStep_done {s : State} (hpos : s.bitpos ≠ 0) (hdone : s.len ≤ s.pos) : busyStep s = .next (complete s) := by
  have hheader : ¬s.atHeader = true := by simpa [State.atHeader] using hpos
  rw [busyStep, if_neg hheader, if_neg (not_lt.mpr hdone)]

/-- Settles O28: the step is the engine's, the loop test answers `complete`, and that writes the two result registers. -/
theorem doneTransition : Obligations.DoneTransition := by
  unfold Obligations.DoneTransition
  intro s hqueue hbusy hpos hdone
  refine ⟨recoverBelow s.pos s.outLost, ?_⟩
  rw [step_eq_busyStep hqueue hbusy, busyStep_done hpos hdone.ge, complete]

end Sys2Proof.Machine
end

