-- ==== Sys2Proof/Proofs/Exceptions.lean ====
section
/-! SUPPORT. `START` where it raises an error (60_exceptions.md R214). -/

namespace Sys2Proof.Machine

/-- Settles O36: of these six fields the sign of the version decides `STATUS` and `ERR_CODE` alone (R191); `RESULT_LEN` and
`POS` are cleared (R190, R222) and the two memories kept on both branches of `START`. -/
theorem startRefusesNegativeVersion : Obligations.StartRefusesNegativeVersion := by
  unfold Obligations.StartRefusesNegativeVersion
  intro s hneg
  have hstatus : (start s).status = .fault := by rw [start_status, if_pos hneg]
  have herr : (start s).errCode = .formatVersionUnsupported := by rw [start_errCode, if_pos hneg]
  exact ⟨hstatus, herr, start_resultLen s, start_pos s, start_inMem s, start_outMem s⟩

end Sys2Proof.Machine
end

section
/-! SUPPORT. The decoder read backwards: what it answers encodes to the bits it has taken (30_encoding.md R90 to R99), so
the two directions agree and bits behind an instruction never change it. -/

namespace Sys2Proof

/-! ### Fields -/

/-- A field that was taken had its bits there, and they are the bits of its value. -/
theorem natToBits_of_takeField {n v : Nat} {bits rest : List Bool} (h : takeField n bits = some (v, rest)) :
    v < 2 ^ n ∧ natToBits n v ++ rest = bits := by
  unfold takeField at h
  split at h
  case isFalse => cases h
  case isTrue hlen =>
    obtain ⟨rfl, rfl⟩ : bitsToNat (bits.take n) = v ∧ bits.drop n = rest := by simpa using h
    have htake : (bits.take n).length = n := List.length_take_of_le hlen
    have hlt := bitsToNat_lt (bits.take n)
    have hbits := natToBits_bitsToNat htake.le
    rw [htake] at hlt
    rw [htake, Nat.sub_self, List.replicate_zero, List.append_nil] at hbits
    exact ⟨hlt, by rw [hbits, List.take_append_drop]⟩

/-- A field is taken exactly where it has its bits. -/
theorem exists_takeField_iff {n : Nat} {bits : List Bool} :
    (∃ v rest, takeField n bits = some (v, rest)) ↔ n ≤ bits.length := by
  refine ⟨fun ⟨v, rest, h⟩ => ?_, fun h => ⟨_, _, takeField_enough h⟩⟩
  rw [← (natToBits_of_takeField h).2, List.length_append, natToBits_length]
  exact Nat.le_add_right n _

/-! ### Literal bytes -/

/-- The bits of literal bytes in stream order (R94). -/
def literalBits (bs : List Byte) : List Bool := (bs.map fun b => natToBits byteBits b.toNat).flatten

@[simp] theorem literalBits_nil : literalBits [] = [] := rfl
@[simp] theorem literalBits_cons (b : Byte) (bs : List Byte) :
    literalBits (b :: bs) = natToBits byteBits b.toNat ++ literalBits bs := rfl

theorem literalBits_length (bs : List Byte) : (literalBits bs).length = byteBits * bs.length :=
  Laws.flatten_bytes_length bs

theorem literalBits_of_decodeBytes {n : Nat} {bits rest : List Bool} {bs : List Byte}
    (h : decodeBytes n bits = some (bs, rest)) : bs.length = n ∧ literalBits bs ++ rest = bits := by
  induction n generalizing bits bs with
  | zero =>
    obtain ⟨rfl, rfl⟩ : [] = bs ∧ bits = rest := by simpa [decodeBytes] using h
    exact ⟨rfl, rfl⟩
  | succ n ih =>
    rw [decodeBytes] at h
    split at h
    case h_1 => cases h
    case h_2 v more hfield =>
      split at h
      case h_1 => cases h
      case h_2 cs rest' hbytes =>
        obtain ⟨rfl, rfl⟩ : BitVec.ofNat 8 v :: cs = bs ∧ rest' = rest := by simpa using h
        obtain ⟨hlt, hbits⟩ := natToBits_of_takeField hfield
        obtain ⟨hlen, hrest⟩ := ih hbytes
        have hv : (BitVec.ofNat 8 v).toNat = v := (BitVec.toNat_ofNat v 8).trans (Nat.mod_eq_of_lt hlt)
        exact ⟨by simp [hlen], by rw [literalBits_cons, List.append_assoc, hrest, hv, hbits]⟩

theorem exists_decodeBytes_iff {n : Nat} {bits : List Bool} :
    (∃ bs rest, decodeBytes n bits = some (bs, rest)) ↔ byteBits * n ≤ bits.length := by
  refine ⟨fun ⟨bs, rest, h⟩ => ?_, fun h => ?_⟩
  · obtain ⟨hlen, hbits⟩ := literalBits_of_decodeBytes h
    rw [← hbits, List.length_append, literalBits_length, hlen]
    exact Nat.le_add_right _ _
  · obtain ⟨bs, hbs, -⟩ := decodeBytes_enough h
    exact ⟨bs, _, hbs⟩

/-- One to three bytes are the bytes of the literal they fill up to (R94). -/
theorem take_getD_of_length {k : Nat} {bs : List Byte} (hk1 : 1 ≤ k) (hk3 : k ≤ 3) (h : bs.length = k) :
    [bs.getD 0 0, bs.getD 1 0, bs.getD 2 0].take k = bs := by
  match bs, h with
  | [], h => simp at h; omega
  | [_], h => subst h; rfl
  | [_, _], h => subst h; rfl
  | [_, _, _], h => subst h; rfl
  | _ :: _ :: _ :: _ :: _, h => simp at h; omega

/-- The bytes that a short literal does not have are zeros (R94). -/
theorem wf_lit_of_length {k offw : Nat} {bs : List Byte} (h : bs.length = k) :
    (Instr.lit (bs.getD 0 0) (bs.getD 1 0) (bs.getD 2 0)).wf (.token k offw) = true := by
  have absent : ∀ j, j < k ∨ bs.getD j 0 = 0 := fun j =>
    (Nat.lt_or_ge j k).imp_right fun hj => List.getD_eq_default bs 0 (h ▸ hj)
  simp only [Instr.wf, Bool.and_eq_true, Bool.or_eq_true, decide_eq_true_eq, beq_iff_eq]
  exact ⟨absent 1, absent 2⟩

/-! ### Whole instructions -/

/-- What the decoder answers with a header: the value of its field (R92). -/
theorem encode_of_decode_header {n : Nat} {i : Instr} {bits rest : List Bool}
    (h : decode (.header n) bits = .ok (i, rest)) :
    i.wf (.header n) = true ∧ encode (.header n) i ++ rest = bits := by
  rw [decode] at h
  split at h
  case h_1 => cases h
  case h_2 len more hfield =>
    obtain ⟨rfl, rfl⟩ : Instr.hdr len = i ∧ more = rest := by simpa using h
    obtain ⟨hlt, hbits⟩ := natToBits_of_takeField hfield
    exact ⟨decide_eq_true hlt, hbits⟩

theorem encode_of_decodeLit {k offw : Nat} {i : Instr} {bits rest : List Bool} (hk1 : 1 ≤ k) (hk3 : k ≤ 3)
    (h : decodeLit k bits = .ok (i, rest)) :
    i.wf (.token k offw) = true ∧ encode (.token k offw) i ++ rest = false :: bits := by
  rw [decodeLit] at h
  split at h
  case h_1 => cases h
  case h_2 bs more hbytes =>
    obtain ⟨rfl, rfl⟩ : Instr.lit (bs.getD 0 0) (bs.getD 1 0) (bs.getD 2 0) = i ∧ more = rest := by simpa using h
    obtain ⟨hlen, hbits⟩ := literalBits_of_decodeBytes hbytes
    refine ⟨wf_lit_of_length hlen, ?_⟩
    rw [encode, take_getD_of_length hk1 hk3 hlen, List.cons_append]
    exact congrArg (false :: ·) hbits

theorem encode_of_decodeMatch {k offw : Nat} {i : Instr} {bits rest : List Bool} (hw : offw ≤ 16)
    (h : decodeMatch offw bits = .ok (i, rest)) :
    i.wf (.token k offw) = true ∧ encode (.token k offw) i ++ rest = true :: bits := by
  rw [decodeMatch] at h
  split at h
  case h_1 => cases h
  case h_2 offset more hoffset =>
    split at h
    case h_1 => cases h
    case h_2 length more' hlength =>
      obtain ⟨rfl, rfl⟩ :
          Instr.matchTok (BitVec.ofNat 16 offset) (BitVec.ofNat 8 length) = i ∧ more' = rest := by simpa using h
      obtain ⟨holt, hobits⟩ := natToBits_of_takeField hoffset
      obtain ⟨hllt, hlbits⟩ := natToBits_of_takeField hlength
      have ho : (BitVec.ofNat 16 offset).toNat = offset :=
        (BitVec.toNat_ofNat offset 16).trans
          (Nat.mod_eq_of_lt (holt.trans_le (Nat.pow_le_pow_right (by decide) hw)))
      have hl : (BitVec.ofNat 8 length).toNat = length :=
        (BitVec.toNat_ofNat length 8).trans (Nat.mod_eq_of_lt hllt)
      refine ⟨by simpa [Instr.wf, ho] using holt, ?_⟩
      rw [encode, ho, hl, List.cons_append, List.append_assoc, hlbits, hobits]

/-- What is decoded is well-formed and encodes to the bits it was decoded from. -/
theorem encode_of_decode {sh : Shape} {i : Instr} {bits rest : List Bool} (hsh : sh.wf = true)
    (h : decode sh bits = .ok (i, rest)) : i.wf sh = true ∧ encode sh i ++ rest = bits := by
  cases sh with
  | header n => exact encode_of_decode_header h
  | token k offw =>
    obtain ⟨⟨⟨hk1, hk3⟩, -⟩, hw⟩ : ((1 ≤ k ∧ k ≤ 3) ∧ 1 ≤ offw) ∧ offw ≤ 16 := by simpa [Shape.wf] using hsh
    match bits with
    | [] => cases h
    | false :: bits => exact encode_of_decodeLit hk1 hk3 h
    | true :: bits => exact encode_of_decodeMatch hw h

/-- A well-formed instruction is decoded from its own bits, and the bits after it are left. -/
theorem decode_encode {sh : Shape} {i : Instr} (hsh : sh.wf = true) (hi : i.wf sh = true) (rest : List Bool) :
    decode sh (encode sh i ++ rest) = .ok (i, rest) := by
  cases sh with
  | header n =>
    cases i with
    | hdr len => exact decode_encode_header (of_decide_eq_true hi) rest
    | lit b0 b1 b2 => cases hi
    | matchTok offset length => cases hi
  | token k offw =>
    obtain ⟨⟨⟨hk1, hk3⟩, -⟩, -⟩ : ((1 ≤ k ∧ k ≤ 3) ∧ 1 ≤ offw) ∧ offw ≤ 16 := by simpa [Shape.wf] using hsh
    cases i with
    | hdr len => cases hi
    | lit b0 b1 b2 => exact decode_encode_lit hk1 hk3 hi rest
    | matchTok offset length => exact decode_encode_match hi rest

/-- Bits behind the ones the decoder was given change only what it leaves. -/
theorem decode_append {sh : Shape} {i : Instr} {bits rest : List Bool} (hsh : sh.wf = true)
    (h : decode sh bits = .ok (i, rest)) (more : List Bool) : decode sh (bits ++ more) = .ok (i, rest ++ more) := by
  obtain ⟨hwf, hbits⟩ := encode_of_decode hsh h
  rw [← hbits, List.append_assoc]
  exact decode_encode hsh hwf _

/-! ### The obligations -/

/-- Settles O1: by the shape and the instruction, the fields one after another. -/
theorem decodeEncode : Obligations.DecodeEncode := by
  unfold Obligations.DecodeEncode
  exact fun _ _ rest hsh hi => decode_encode hsh hi rest

/-- Settles O2: each field the decoder takes is the field the encoder writes. -/
theorem encodeDecode : Obligations.EncodeDecode := by
  unfold Obligations.EncodeDecode
  exact fun _ _ _ _ hsh h => encode_of_decode hsh h

theorem exists_decode_header_iff {n : Nat} {bits : List Bool} :
    (∃ i rest, decode (.header n) bits = .ok (i, rest)) ↔ 8 * n ≤ bits.length := by
  rw [← exists_takeField_iff, decode]
  change _ ↔ ∃ v rest, takeField (byteBits * n) bits = some (v, rest)
  split
  case h_1 h => simp [h]
  case h_2 h => simp [h]

theorem exists_decodeLit_iff {k : Nat} {bits : List Bool} :
    (∃ i rest, decodeLit k bits = .ok (i, rest)) ↔ 8 * k ≤ bits.length := by
  change _ ↔ byteBits * k ≤ bits.length
  rw [← exists_decodeBytes_iff, decodeLit]
  split
  case h_1 h => simp [h]
  case h_2 h => simp [h]

theorem exists_decodeMatch_iff {offw : Nat} {bits : List Bool} :
    (∃ i rest, decodeMatch offw bits = .ok (i, rest)) ↔ offw + 8 ≤ bits.length := by
  by_cases hoffset : offw ≤ bits.length
  · by_cases hlength : lenBits ≤ (bits.drop offw).length
    · have hboth : offw + 8 ≤ bits.length := by
        rw [List.length_drop, lenBits] at hlength
        omega
      simp [decodeMatch, takeField_enough hoffset, takeField_enough hlength, hboth]
    · have hshort : ¬offw + 8 ≤ bits.length := by
        rw [List.length_drop, lenBits] at hlength
        omega
      simp [decodeMatch, takeField_enough hoffset, takeField_short (not_le.mp hlength), hshort]
  · have hshort : ¬offw + 8 ≤ bits.length := by omega
    simp [decodeMatch, takeField_short (not_le.mp hoffset), hshort]

/-- Settles O3: a field is rejected exactly where its bits are not all there, and an instruction where one of its fields
is. -/
theorem decodeAnswersWhenComplete : Obligations.DecodeAnswersWhenComplete := by
  unfold Obligations.DecodeAnswersWhenComplete
  intro sh bits
  match sh, bits with
  | .header n, bits => exact exists_decode_header_iff
  | .token k offw, [] => simp [decode]
  | .token k offw, false :: rest => exact exists_decodeLit_iff
  | .token k offw, true :: rest => exact exists_decodeMatch_iff

/-- Settles O4: three closed words, by evaluation of the decoder. -/
theorem decodeSampleWords : Obligations.DecodeSampleWords := by
  unfold Obligations.DecodeSampleWords
  decide

/-- Settles O5: one byte after another, the last filled up with zeros. -/
theorem packBytesKeepsBits : Obligations.PackBytesKeepsBits := by
  unfold Obligations.PackBytesKeepsBits
  exact fun _ _ h => bytesToBits_packBytes h

end Sys2Proof
end

section
/-! SUPPORT. What each instruction can do, once, in every state (42_header.md, 43_literal_token.md, 44_match_token.md): one
case per branch, with the whole next state written out. -/

namespace Sys2Proof.Machine

/-! ### Bytes in a row -/

/-- The state after `n` reads of a byte in a row, of which the last gave `v` (R121, log entry 9). -/
def State.afterBytes (s : State) : Nat → Nat → State
  | 0, _ => s
  | n + 1, v =>
    { s.setBitpos (s.bitpos + 8 * (n + 1)) with acc := BitVec.ofNat 16 v, shift := 8#5, rem := 0#5 }

@[simp] theorem State.afterBytes_zero (s : State) (v : Nat) : s.afterBytes 0 v = s := rfl

@[simp] theorem State.bitpos_afterBytes (s : State) (n v : Nat) : (s.afterBytes n v).bitpos = s.bitpos + 8 * n := by
  cases n with
  | zero => rfl
  | succ n => exact s.bitpos_setBitpos (s.bitpos + 8 * (n + 1))

@[simp] theorem State.afterBytes_inLen (s : State) (n v : Nat) : (s.afterBytes n v).inLen = s.inLen := by
  cases n <;> rfl

theorem State.consume_afterBytes (s : State) (n v w : Nat) :
    (s.afterBytes n v).consume byteBits w = s.afterBytes (n + 1) w := by
  rw [State.consume, State.bitpos_afterBytes]
  cases n <;> rfl

/-- The bits of `j` whole bytes are there, if any is asked for. -/
abbrev State.BytesThere (s : State) (j : Nat) : Prop := j = 0 ∨ s.bitpos + 8 * j ≤ 8 * s.inLen

/-! ### HDR -/

theorem headerByte_eq (len i : Nat) : headerByte len i = len / 2 ^ (8 * i) % 2 ^ 8 := by
  rw [headerByte, Nat.shiftRight_eq_div_pow]
  rfl

/-- A header byte put on top of the bytes below it (R151). -/
theorem mod_or_headerByte (len n : Nat) :
    len % 2 ^ (8 * n) ||| (headerByte len n <<< (byteBits * n)) = len % 2 ^ (8 * (n + 1)) := by
  have hlow : len % 2 ^ (8 * n) < 2 ^ (8 * n) := Nat.mod_lt _ (Nat.two_pow_pos _)
  have hshift : headerByte len n <<< (byteBits * n) = 2 ^ (8 * n) * headerByte len n := by
    rw [Nat.shiftLeft_eq, Nat.mul_comm, byteBits]
  rw [hshift, Nat.or_comm, ← Nat.two_pow_add_eq_or_of_lt hlow, headerByte_eq, Nat.mul_succ, pow_add, Nat.mod_mul,
    Nat.add_comm]

/-- The state after the first `n` bytes of a header (R150). -/
def State.afterHeader (s : State) (len n : Nat) : State :=
  { s with len := len % 2 ^ (8 * n) }.afterBytes n (headerByte len (n - 1))

@[simp] theorem State.bitpos_afterHeader (s : State) (len n : Nat) : (s.afterHeader len n).bitpos = s.bitpos + 8 * n :=
  State.bitpos_afterBytes _ n _

@[simp] theorem State.afterHeader_inLen (s : State) (len n : Nat) : (s.afterHeader len n).inLen = s.inLen :=
  State.afterBytes_inLen _ n _

@[simp] theorem State.afterHeader_len (s : State) (len n : Nat) : (s.afterHeader len n).len = len % 2 ^ (8 * n) := by
  cases n <;> rfl

@[simp] theorem State.afterHeader_outCap (s : State) (len n : Nat) : (s.afterHeader len n).outCap = s.outCap := by
  cases n <;> rfl

theorem headerBytes_zero (len i : Nat) (s : State) : headerBytes len 0 i s = .go s := rfl

/-- The loop of R150 with its last byte apart. -/
theorem headerBytes_succ (len n i : Nat) (s : State) :
    headerBytes len (n + 1) i s =
      (headerBytes len n i s).andThen fun t =>
        (readField byteBits (headerByte len (i + n)) t).andThen fun u =>
          .go { u with len := u.len ||| (headerByte len (i + n) <<< (byteBits * (i + n))) } := by
  induction n generalizing i s with
  | zero => rfl
  | succ n ih =>
    rw [headerBytes, headerBytes]
    cases readField byteBits (headerByte len i) s with
    | stop o => rfl
    | go t =>
      simp only [Flow.go_andThen, ih]
      rw [show i + 1 + n = i + (n + 1) by omega]

/-- Everything the loop of R150 can do: all its bytes are there, or it is cut off after the first `j`. -/
theorem headerBytes_cases (len n : Nat) (s : State) :
    (s.BytesThere n ∧ headerBytes len n 0 { s with len := 0 } = .go (s.afterHeader len n)) ∨
    ∃ j, j < n ∧ s.BytesThere j ∧ 8 * s.inLen < s.bitpos + 8 * (j + 1) ∧
      headerBytes len n 0 { s with len := 0 } = .stop (.next (raiseTruncated (s.afterHeader len j))) := by
  induction n with
  | zero =>
    refine .inl ⟨.inl rfl, ?_⟩
    rw [headerBytes_zero, State.afterHeader, Nat.mul_zero, pow_zero, Nat.mod_one, State.afterBytes_zero]
  | succ n ih =>
    rw [headerBytes_succ, Nat.zero_add]
    rcases ih with ⟨hbits, hgo⟩ | ⟨j, hj, hbits, hcut, hstop⟩
    · rw [hgo, Flow.go_andThen]
      rcases readField_spec byteBits (headerByte len n) (s.afterHeader len n) with ⟨hb, hread⟩ | ⟨hb, hread⟩ <;>
        rw [State.bitpos_afterHeader, State.afterHeader_inLen, byteBits] at hb
      · refine .inl ⟨.inr (by omega), ?_⟩
        rw [hread, Flow.go_andThen, State.consume_len, State.afterHeader_len, mod_or_headerByte, State.afterHeader,
          State.consume_afterBytes]
        rfl
      · exact .inr ⟨n, Nat.lt_succ_self n, hbits, by omega, by rw [hread, Flow.stop_andThen]⟩
    · exact .inr ⟨j, by omega, hbits, hcut, by rw [hstop, Flow.stop_andThen]⟩

/-- Everything `HDR` can do (R150, R152, R153). -/
theorem execHdr_cases (len : Nat) (s : State) :
    (s.BytesThere s.params.hdrBytes ∧ len % 2 ^ (8 * s.params.hdrBytes) ≤ s.outCap ∧
      execHdr len s = .next (s.afterHeader len s.params.hdrBytes)) ∨
    (s.BytesThere s.params.hdrBytes ∧ s.outCap < len % 2 ^ (8 * s.params.hdrBytes) ∧
      execHdr len s = .next (raise .capacityExceeded (s.afterHeader len s.params.hdrBytes))) ∨
    ∃ j, j < s.params.hdrBytes ∧ s.BytesThere j ∧ 8 * s.inLen < s.bitpos + 8 * (j + 1) ∧
      execHdr len s = .next (raiseTruncated (s.afterHeader len j)) := by
  rw [execHdr]
  rcases headerBytes_cases len s.params.hdrBytes s with ⟨hbits, hgo⟩ | ⟨j, hj, hbits, hcut, hstop⟩
  · rw [hgo, Flow.go_andThen, State.afterHeader_len, State.afterHeader_outCap]
    split
    case isTrue hlong => exact .inr (.inl ⟨hbits, hlong, rfl⟩)
    case isFalse hfits => exact .inl ⟨hbits, not_lt.mp hfits, rfl⟩
  · exact .inr (.inr ⟨j, hj, hbits, hcut, by rw [hstop]; rfl⟩)

/-! ### The flag -/

/-- The state after a token's flag (R193). -/
def State.afterFlag (s : State) (f : BitVec 1) : State := { s.consume 1 f.toNat with flag := f }

@[simp] theorem State.bitpos_afterFlag (s : State) (f : BitVec 1) : (s.afterFlag f).bitpos = s.bitpos + 1 :=
  s.bitpos_consume 1 f.toNat

/-- Everything the reading of a flag can do, by the name of its next state. -/
theorem readFlag_cases (f : BitVec 1) (s : State) :
    (s.bitpos + 1 ≤ 8 * s.inLen ∧ readFlag f s = .go (s.afterFlag f)) ∨
    (8 * s.inLen < s.bitpos + 1 ∧ readFlag f s = .stop (.next (raiseTruncated s))) := readFlag_spec f s

/-! ### LIT -/

theorem Memory.writeBytes_append (m : Memory) (x : Nat) (vs ws : List Byte) :
    m.writeBytes x (vs ++ ws) = (m.writeBytes x vs).writeBytes (x + vs.length) ws := by
  induction vs generalizing m x with
  | nil => rfl
  | cons v vs ih =>
    simp only [List.cons_append, Memory.writeBytes, ih, List.length_cons]
    rw [show x + 1 + vs.length = x + (vs.length + 1) by omega]

/-- The state after literal bytes read and written in a row (R162). -/
def State.afterLiteral (s : State) (bs : List Byte) : State :=
  { s with
    pos := s.pos + bs.length
    cnt := s.cnt - BitVec.ofNat 8 bs.length
    outMem := s.outMem.writeBytes s.pos bs }.afterBytes bs.length (bs.getLastD 0).toNat

@[simp] theorem State.bitpos_afterLiteral (s : State) (bs : List Byte) :
    (s.afterLiteral bs).bitpos = s.bitpos + 8 * bs.length := State.bitpos_afterBytes _ _ _

@[simp] theorem State.afterLiteral_inLen (s : State) (bs : List Byte) : (s.afterLiteral bs).inLen = s.inLen :=
  State.afterBytes_inLen _ _ _

theorem State.afterLiteral_nil (s : State) : s.afterLiteral [] = s := by simp [State.afterLiteral, Memory.writeBytes]

/-- The state between the reading of a literal byte and its writing, and the state after both. -/
theorem State.consume_afterLiteral (s : State) (bs : List Byte) (b : Byte) :
    ((s.afterLiteral bs).consume byteBits b.toNat).pos = s.pos + bs.length ∧
    { (s.afterLiteral bs).consume byteBits b.toNat with
      outMem := ((s.afterLiteral bs).consume byteBits b.toNat).outMem.write (s.pos + bs.length) b
      pos := s.pos + bs.length + 1
      cnt := ((s.afterLiteral bs).consume byteBits b.toNat).cnt - 1 } = s.afterLiteral (bs ++ [b]) := by
  have hcnt : s.cnt - BitVec.ofNat 8 bs.length - 1 = s.cnt - BitVec.ofNat 8 (bs.length + 1) := by
    rw [BitVec.ofNat_add]
    exact BitVec.sub_sub _ _ _
  have hlast : (bs ++ [b]).getLastD 0 = b := by simp [List.getLastD_eq_getLast?]
  rw [State.afterLiteral, State.consume_afterBytes, State.afterLiteral, hlast, List.length_append, List.length_singleton,
    Memory.writeBytes_append, ← hcnt]
  exact ⟨rfl, rfl⟩

theorem literalBytes_append (bs cs : List Byte) (s : State) :
    literalBytes (bs ++ cs) s = (literalBytes bs s).andThen (literalBytes cs) := by
  induction bs generalizing s with
  | nil => rfl
  | cons b bs ih =>
    rw [List.cons_append, literalBytes, literalBytes]
    cases (readField byteBits b.toNat s).andThen (emitByte b) with
    | stop o => rfl
    | go t => exact ih t

/-- Everything the loop of R162 can do: all its bytes are there, or it is cut off after the first `j`, or it would write
outside the buffer. -/
theorem literalBytes_cases (bs : List Byte) (s : State) :
    (s.BytesThere bs.length ∧ literalBytes bs s = .go (s.afterLiteral bs)) ∨
    (∃ j, j < bs.length ∧ s.BytesThere j ∧ 8 * s.inLen < s.bitpos + 8 * (j + 1) ∧
      literalBytes bs s = .stop (.next (raiseTruncated (s.afterLiteral (bs.take j))))) ∨
    (s.outCap < s.pos + bs.length ∧ ∃ r, literalBytes bs s = .stop (.fault r)) := by
  induction bs using List.reverseRecOn with
  | nil => exact .inl ⟨.inl rfl, by rw [State.afterLiteral_nil]; rfl⟩
  | append_singleton bs b ih =>
    rw [literalBytes_append, List.length_append, List.length_singleton]
    rcases ih with ⟨hbits, hgo⟩ | ⟨j, hj, hbits, hcut, hstop⟩ | ⟨hcap, r, hstop⟩
    · obtain ⟨hpos, hnext⟩ := s.consume_afterLiteral bs b
      rw [hgo, Flow.go_andThen, literalBytes]
      rcases readField_spec byteBits b.toNat (s.afterLiteral bs) with ⟨hb, hread⟩ | ⟨hb, hread⟩ <;>
        rw [State.bitpos_afterLiteral, State.afterLiteral_inLen, byteBits] at hb
      · have hbits' : s.BytesThere (bs.length + 1) := .inr (by omega)
        rcases emitByte_spec b ((s.afterLiteral bs).consume byteBits b.toNat) with ⟨-, hemit⟩ | ⟨hcap, hemit⟩
        · exact .inl ⟨hbits', by rw [hread, Flow.go_andThen, hemit, hpos, hnext]; rfl⟩
        · have hcap' : s.outCap ≤ s.pos + bs.length := by
            rw [hpos, State.consume_outCap, State.afterLiteral] at hcap
            cases bs <;> exact hcap
          exact .inr (.inr ⟨by omega, _, by rw [hread, Flow.go_andThen, hemit]; rfl⟩)
      · refine .inr (.inl ⟨bs.length, by omega, hbits, by omega, ?_⟩)
        rw [hread, List.take_left]
        rfl
    · refine .inr (.inl ⟨j, by omega, hbits, hcut, ?_⟩)
      rw [hstop, List.take_append_of_le_length hj.le]
      rfl
    · exact .inr (.inr ⟨by omega, r, by rw [hstop]; rfl⟩)

/-- The state in which the bytes of a `LIT` begin: `FLAG` and `CNT` are set (R162, R193). -/
def State.litBegin (s : State) : State :=
  { s.afterFlag 0#1 with cnt := BitVec.ofNat 8 (litCount s.len s.pos) }

@[simp] theorem State.bitpos_litBegin (s : State) : s.litBegin.bitpos = s.bitpos + 1 := s.bitpos_afterFlag 0#1

/-- Everything `LIT` can do (R162, R163, R193). -/
theorem execLit_cases (b0 b1 b2 : Byte) (s : State) :
    (8 * s.inLen < s.bitpos + 1 ∧ execLit b0 b1 b2 s = .next (raiseTruncated s)) ∨
    (s.bitpos + (1 + 8 * litCount s.len s.pos) ≤ 8 * s.inLen ∧
      execLit b0 b1 b2 s = .next (s.litBegin.afterLiteral ([b0, b1, b2].take (litCount s.len s.pos)))) ∨
    (∃ j, j < litCount s.len s.pos ∧ s.bitpos + 1 + 8 * j ≤ 8 * s.inLen ∧ 8 * s.inLen < s.bitpos + 1 + 8 * (j + 1) ∧
      execLit b0 b1 b2 s = .next (raiseTruncated (s.litBegin.afterLiteral ([b0, b1, b2].take j)))) ∨
    (s.outCap < s.pos + litCount s.len s.pos ∧ ∃ r, execLit b0 b1 b2 s = .fault r) := by
  rcases readFlag_cases 0#1 s with ⟨hflag, hread⟩ | ⟨hflag, hread⟩
  · have hexec : execLit b0 b1 b2 s =
        (literalBytes ([b0, b1, b2].take (litCount s.len s.pos)) s.litBegin).finish := by
      rw [execLit, hread]
      rfl
    rw [hexec]
    have hlen : ([b0, b1, b2].take (litCount s.len s.pos)).length = litCount s.len s.pos :=
      List.length_take_of_le (Nat.min_le_left _ _)
    have hcases := literalBytes_cases ([b0, b1, b2].take (litCount s.len s.pos)) s.litBegin
    simp only [hlen, State.BytesThere, State.bitpos_litBegin] at hcases
    rcases hcases with ⟨hbits, hgo⟩ | ⟨j, hj, hbits, hcut, hstop⟩ | ⟨hcap, r, hstop⟩
    · exact .inr (.inl ⟨by change _ ∨ _ ≤ 8 * s.inLen at hbits; omega, by rw [hgo]; rfl⟩)
    · refine .inr (.inr (.inl ⟨j, hj, by change _ ∨ _ ≤ 8 * s.inLen at hbits; omega, hcut, ?_⟩))
      rw [hstop, List.take_take, Nat.min_eq_left hj.le]
      rfl
    · exact .inr (.inr (.inr ⟨hcap, r, by rw [hstop]; rfl⟩))
  · exact .inl ⟨hflag, by rw [execLit, hread]; rfl⟩

/-! ### MATCH -/

/-- `OUT` after the copy of `n` bytes to `pos` from `offset` bytes below (R176). -/
def Memory.copyUp (m : Memory) (offset pos : Nat) : Nat → Memory
  | 0 => m
  | n + 1 => (m.copyUp offset pos n).write (pos + n) ((m.copyUp offset pos n).read (pos + n - offset))

theorem Memory.copyUp_wf {m : Memory} (h : m.wf) (offset pos n : Nat) : (m.copyUp offset pos n).wf := by
  induction n with
  | zero => exact h
  | succ n ih => exact Memory.write_wf ih _ _

/-- The copy writes nowhere else. -/
theorem Memory.read_copyUp_outside (m : Memory) (offset : Nat) {pos n a : Nat} (h : a < pos ∨ pos + n ≤ a) :
    (m.copyUp offset pos n).read a = m.read a := by
  induction n with
  | zero => rfl
  | succ n ih => rw [Memory.copyUp, Memory.read_write_other _ _ (by omega), ih (by omega)]

/-- The copy in closed form: the `offset` bytes below `pos` over and over, overlap or not (R177). -/
theorem Memory.read_copyUp (m : Memory) {offset pos n j : Nat} (h1 : 1 ≤ offset) (hpos : offset ≤ pos) (hj : j < n) :
    (m.copyUp offset pos n).read (pos + j) = m.read (pos - offset + j % offset) := by
  induction n generalizing j with
  | zero => omega
  | succ n ih =>
    rw [Memory.copyUp, Memory.read_write]
    by_cases hlast : j = n
    · subst hlast
      rw [if_pos rfl]
      by_cases hold : j < offset
      · rw [Memory.read_copyUp_outside m offset (by omega), Nat.mod_eq_of_lt hold]
        congr 1
        omega
      · have hsrc : pos + j - offset = pos + (j - offset) := by omega
        rw [hsrc, ih (by omega), ← Nat.mod_eq_sub_mod (by omega)]
    · rw [if_neg (by omega), ih (by omega)]

theorem copyBytes_succ (n : Nat) (s : State) : copyBytes (n + 1) s = (copyBytes n s).andThen copyByte := by
  induction n generalizing s with
  | zero =>
    rw [copyBytes, copyBytes, Flow.go_andThen]
    cases copyByte s <;> rfl
  | succ n ih =>
    rw [copyBytes]
    conv_rhs => rw [copyBytes]
    cases copyByte s with
    | stop o => rfl
    | go t => exact ih t

/-- Everything the copy of a `MATCH` can do (R176): it stays inside the buffer and goes on, or it is no copy a run makes. -/
theorem copyBytes_cases (n : Nat) (s : State) :
    copyBytes n s = .go { s with
      outMem := s.outMem.copyUp s.offset.toNat s.pos n
      pos := s.pos + n
      cnt := s.cnt - BitVec.ofNat 8 n } ∨
    (1 ≤ n ∧ s.outCap < s.pos + n ∧ ∃ r, copyBytes n s = .stop (.fault r)) := by
  induction n with
  | zero => exact .inl (by rw [copyBytes, Memory.copyUp, BitVec.sub_zero]; rfl)
  | succ n ih =>
    rw [copyBytes_succ]
    rcases ih with hgo | ⟨-, hcap, r, hstop⟩
    · rw [hgo, Flow.go_andThen]
      by_cases hcap : s.pos + n < s.outCap
      · refine .inl ?_
        have hcnt : s.cnt - BitVec.ofNat 8 n - 1 = s.cnt - BitVec.ofNat 8 (n + 1) := by
          rw [BitVec.ofNat_add]
          exact BitVec.sub_sub _ _ _
        rw [copyByte_inside hcap]
        simp only [hcnt, Memory.copyUp]
        rfl
      · rcases copyByte_spec { s with
          outMem := s.outMem.copyUp s.offset.toNat s.pos n
          pos := s.pos + n
          cnt := s.cnt - BitVec.ofNat 8 n } with ⟨hin, -⟩ | ⟨-, r, hstop⟩
        · exact absurd hin hcap
        · exact .inr ⟨by omega, by omega, r, hstop⟩
    · exact .inr ⟨by omega, by omega, r, by rw [hstop]; rfl⟩

/-- The state after both fields of a `MATCH` (R173). -/
def State.afterMatch (s : State) (offset : BitVec 16) (length : Byte) : State :=
  { s.setBitpos (s.bitpos + (9 + offWidth s.pos s.mws)) with
    flag := 1#1
    offw := BitVec.ofNat 5 (offWidth s.pos s.mws)
    offset := offset
    matchLen := length
    acc := BitVec.ofNat 16 length.toNat
    shift := 8#5
    rem := 0#5 }

@[simp] theorem State.bitpos_afterMatch (s : State) (offset : BitVec 16) (length : Byte) :
    (s.afterMatch offset length).bitpos = s.bitpos + (9 + offWidth s.pos s.mws) :=
  s.bitpos_setBitpos (s.bitpos + (9 + offWidth s.pos s.mws))

/-- The state in which the offset of a `MATCH` is read (R172). -/
def State.matchBegin (s : State) : State :=
  { s.afterFlag 1#1 with offw := BitVec.ofNat 5 (offWidth s.pos s.mws) }

/-- The state in which the length of a `MATCH` is read (R173). -/
def State.afterOffset (s : State) (offset : BitVec 16) : State :=
  { s.matchBegin.consume (offWidth s.pos s.mws) offset.toNat with offset := offset }

@[simp] theorem State.bitpos_matchBegin (s : State) : s.matchBegin.bitpos = s.bitpos + 1 := s.bitpos_afterFlag 1#1

@[simp] theorem State.bitpos_afterOffset (s : State) (offset : BitVec 16) :
    (s.afterOffset offset).bitpos = s.bitpos + 1 + offWidth s.pos s.mws := by
  have h := s.matchBegin.bitpos_consume (offWidth s.pos s.mws) offset.toNat
  rwa [State.bitpos_matchBegin] at h

@[simp] theorem State.afterOffset_outMem (s : State) (offset : BitVec 16) :
    (s.afterOffset offset).outMem = s.outMem := by
  simp [State.afterOffset, State.matchBegin, State.afterFlag]

theorem State.consume_afterOffset (s : State) (offset : BitVec 16) (length : Byte) :
    { (s.afterOffset offset).consume lenBits length.toNat with matchLen := length } = s.afterMatch offset length := by
  have hp : (s.afterOffset offset).bitpos + lenBits = s.bitpos + (9 + offWidth s.pos s.mws) := by
    rw [State.bitpos_afterOffset, lenBits]
    omega
  rw [State.consume, hp, State.afterMatch, State.setBitpos, State.setBitpos]
  simp [State.afterOffset, State.matchBegin, State.afterFlag, lenBits]

/-- Everything the two fields of a `MATCH` can do (R172, R173). -/
theorem matchFields_cases (offset : BitVec 16) (length : Byte) (s : State) :
    (s.bitpos + (9 + offWidth s.pos s.mws) ≤ 8 * s.inLen ∧
      matchFields offset length (s.afterFlag 1#1) = .go (s.afterMatch offset length)) ∨
    (8 * s.inLen < s.bitpos + (1 + offWidth s.pos s.mws) ∧
      matchFields offset length (s.afterFlag 1#1) = .stop (.next (raiseTruncated s.matchBegin))) ∨
    (s.bitpos + (1 + offWidth s.pos s.mws) ≤ 8 * s.inLen ∧ 8 * s.inLen < s.bitpos + (9 + offWidth s.pos s.mws) ∧
      matchFields offset length (s.afterFlag 1#1) = .stop (.next (raiseTruncated (s.afterOffset offset)))) := by
  have hfields : matchFields offset length (s.afterFlag 1#1) =
      (readField (offWidth s.pos s.mws) offset.toNat s.matchBegin).andThen fun t =>
        (readField lenBits length.toNat { t with offset := offset }).andThen fun u =>
          .go { u with matchLen := length } := rfl
  rw [hfields]
  rcases readField_spec (offWidth s.pos s.mws) offset.toNat s.matchBegin with ⟨ho, hoff⟩ | ⟨ho, hoff⟩ <;>
    rw [State.bitpos_matchBegin, show s.matchBegin.inLen = s.inLen from rfl] at ho <;> rw [hoff]
  · have hlength : ((Flow.go (s.matchBegin.consume (offWidth s.pos s.mws) offset.toNat)).andThen fun t =>
        (readField lenBits length.toNat { t with offset := offset }).andThen fun u =>
          .go { u with matchLen := length }) =
        (readField lenBits length.toNat (s.afterOffset offset)).andThen fun u => .go { u with matchLen := length } := rfl
    rw [hlength]
    rcases readField_spec lenBits length.toNat (s.afterOffset offset) with ⟨hl, hlen⟩ | ⟨hl, hlen⟩ <;>
      rw [State.bitpos_afterOffset, show (s.afterOffset offset).inLen = s.inLen from rfl, lenBits] at hl <;> rw [hlen]
    · exact .inl ⟨by omega, by rw [Flow.go_andThen, State.consume_afterOffset]⟩
    · exact .inr (.inr ⟨by omega, by omega, rfl⟩)
  · exact .inr (.inl ⟨by omega, rfl⟩)

/-- The state after a whole `MATCH` (R175, R176). -/
def State.afterCopy (s : State) (offset : BitVec 16) (length : Byte) : State :=
  { s.afterMatch offset length with
    cnt := 0#8
    pos := s.pos + copyCount length s.len s.pos
    outMem := s.outMem.copyUp offset.toNat s.pos (copyCount length s.len s.pos) }

@[simp] theorem State.bitpos_afterCopy (s : State) (offset : BitVec 16) (length : Byte) :
    (s.afterCopy offset length).bitpos = s.bitpos + (9 + offWidth s.pos s.mws) := s.bitpos_afterMatch offset length

/-- Everything the check and the copy can do (R174 to R176). -/
theorem matchCopy_cases (offset : BitVec 16) (length : Byte) (s : State) :
    (offsetLegal offset s.pos = true ∧ matchCopy (s.afterMatch offset length) = .go (s.afterCopy offset length)) ∨
    (offsetLegal offset s.pos = false ∧ matchCopy (s.afterMatch offset length) =
      .stop (.next (raise .invalidBackReference (s.afterMatch offset length)))) ∨
    (offsetLegal offset s.pos = true ∧ 1 ≤ copyCount length s.len s.pos ∧
      s.outCap < s.pos + copyCount length s.len s.pos ∧ ∃ r, matchCopy (s.afterMatch offset length) = .stop (.fault r)) := by
  cases hlegal : offsetLegal offset s.pos with
  | false => exact .inr (.inl ⟨rfl, if_neg (ne_true_of_eq_false hlegal)⟩)
  | true =>
    have hcopy : matchCopy (s.afterMatch offset length) = copyBytes (copyCount length s.len s.pos)
        { s.afterMatch offset length with cnt := BitVec.ofNat 8 (copyCount length s.len s.pos) } := if_pos hlegal
    rw [hcopy]
    rcases copyBytes_cases (copyCount length s.len s.pos)
      { s.afterMatch offset length with cnt := BitVec.ofNat 8 (copyCount length s.len s.pos) } with
      hgo | ⟨hsome, hcap, r, hstop⟩
    · exact .inl ⟨rfl, by rw [hgo, BitVec.sub_self]; rfl⟩
    · exact .inr (.inr ⟨rfl, hsome, hcap, r, hstop⟩)

/-- Everything `MATCH` can do (R170, R173 to R176, R193). -/
theorem execMatch_cases (offset : BitVec 16) (length : Byte) (s : State) :
    (8 * s.inLen < s.bitpos + 1 ∧ execMatch offset length s = .next (raiseTruncated s)) ∨
    (s.bitpos + 1 ≤ 8 * s.inLen ∧ 8 * s.inLen < s.bitpos + (1 + offWidth s.pos s.mws) ∧
      execMatch offset length s = .next (raiseTruncated s.matchBegin)) ∨
    (s.bitpos + (1 + offWidth s.pos s.mws) ≤ 8 * s.inLen ∧ 8 * s.inLen < s.bitpos + (9 + offWidth s.pos s.mws) ∧
      execMatch offset length s = .next (raiseTruncated (s.afterOffset offset))) ∨
    (s.bitpos + (9 + offWidth s.pos s.mws) ≤ 8 * s.inLen ∧ offsetLegal offset s.pos = false ∧
      execMatch offset length s = .next (raise .invalidBackReference (s.afterMatch offset length))) ∨
    (s.bitpos + (9 + offWidth s.pos s.mws) ≤ 8 * s.inLen ∧ offsetLegal offset s.pos = true ∧
      execMatch offset length s = .next (s.afterCopy offset length)) ∨
    (s.bitpos + (9 + offWidth s.pos s.mws) ≤ 8 * s.inLen ∧ offsetLegal offset s.pos = true ∧
      1 ≤ copyCount length s.len s.pos ∧ s.outCap < s.pos + copyCount length s.len s.pos ∧
      ∃ r, execMatch offset length s = .fault r) := by
  rw [execMatch]
  rcases readFlag_cases 1#1 s with ⟨hflag, hread⟩ | ⟨hflag, hread⟩
  · rw [hread, Flow.go_andThen]
    rcases matchFields_cases offset length s with ⟨hbits, hgo⟩ | ⟨hcut, hstop⟩ | ⟨hbits, hcut, hstop⟩
    · rw [hgo, Flow.go_andThen]
      rcases matchCopy_cases offset length s with
        ⟨hlegal, hcopy⟩ | ⟨hbad, hcopy⟩ | ⟨hlegal, hsome, hcap, r, hcopy⟩
      · exact .inr (.inr (.inr (.inr (.inl ⟨hbits, hlegal, by rw [hcopy]; rfl⟩))))
      · exact .inr (.inr (.inr (.inl ⟨hbits, hbad, by rw [hcopy]; rfl⟩)))
      · exact .inr (.inr (.inr (.inr (.inr ⟨hbits, hlegal, hsome, hcap, r, by rw [hcopy]; rfl⟩))))
    · exact .inr (.inl ⟨hflag, hcut, by rw [hstop]; rfl⟩)
    · exact .inr (.inr (.inl ⟨hbits, hcut, by rw [hstop]; rfl⟩))
  · exact .inl ⟨hflag, by rw [hread]; rfl⟩

/-! ### The dispatch -/

theorem exec_hdr (len : Nat) (s : State) : exec (.hdr len) s = execHdr len s := rfl
theorem exec_lit (b0 b1 b2 : Byte) (s : State) : exec (.lit b0 b1 b2) s = execLit b0 b1 b2 s := rfl
theorem exec_matchTok (offset : BitVec 16) (length : Byte) (s : State) :
    exec (.matchTok offset length) s = execMatch offset length s := rfl

end Sys2Proof.Machine
end

section
/-! SUPPORT. The obligations about one instruction (42_header.md, 43_literal_token.md, 44_match_token.md), read off the cases
of its execution. -/

namespace Sys2Proof.Machine

/-! ### What a cut leaves -/

/-- Losing the cursor forgets the bytes read before (R126). -/
@[simp] theorem State.loseCursor_afterBytes (s : State) (n v : Nat) : (s.afterBytes n v).loseCursor = s.loseCursor := by
  cases n <;> rfl

theorem raiseTruncated_eq (s : State) : raiseTruncated s = raise .truncatedInput s.loseCursor := rfl

/-- Of the bytes of a header only their value is left. -/
theorem raiseTruncated_afterHeader (s : State) (len n : Nat) :
    raiseTruncated (s.afterHeader len n) = raiseTruncated { s with len := len % 2 ^ (8 * n) } := by
  rw [raiseTruncated_eq, State.afterHeader, State.loseCursor_afterBytes]
  rfl

/-- Of the bytes of a literal only what they wrote is left. -/
theorem raiseTruncated_litBegin_afterLiteral (s : State) (bs : List Byte) :
    raiseTruncated (s.litBegin.afterLiteral bs) = raiseTruncated { s with
      flag := 0#1
      cnt := BitVec.ofNat 8 (litCount s.len s.pos) - BitVec.ofNat 8 bs.length
      pos := s.pos + bs.length
      outMem := s.outMem.writeBytes s.pos bs } := by
  rw [raiseTruncated_eq, State.afterLiteral, State.loseCursor_afterBytes]
  rfl

/-- Of a match cut off in its offset its flag and its offset width are left (R173). -/
theorem raiseTruncated_matchBegin (s : State) :
    raiseTruncated s.matchBegin =
      raiseTruncated { s with flag := 1#1, offw := BitVec.ofNat 5 (offWidth s.pos s.mws) } := rfl

/-- Of a match cut off in its length its offset is left too (R173). -/
theorem raiseTruncated_afterOffset (s : State) (offset : BitVec 16) :
    raiseTruncated (s.afterOffset offset) =
      raiseTruncated { s with flag := 1#1, offw := BitVec.ofNat 5 (offWidth s.pos s.mws), offset := offset } := by
  rw [raiseTruncated_eq, State.loseCursor]
  simp [State.afterOffset, State.matchBegin, State.afterFlag]
  rfl

/-! ### HDR -/

/-- The state after a whole header whose value fits it (R150). -/
theorem State.afterHeader_eq (s : State) {len n : Nat} (hn : 1 ≤ n) (hlen : len < 2 ^ (8 * n)) :
    s.afterHeader len n = { s.setBitpos (s.bitpos + 8 * n) with
      len := len
      acc := BitVec.ofNat 16 (headerByte len (n - 1))
      shift := 8#5
      rem := 0#5 } := by
  obtain ⟨n, rfl⟩ := Nat.exists_eq_add_of_le' hn
  rw [State.afterHeader, Nat.mod_eq_of_lt hlen]
  rfl

/-- Settles O13: the bits are there and the value fits, which leaves the case of completion. -/
theorem hdrCompletes : Obligations.HdrCompletes := by
  unfold Obligations.HdrCompletes
  intro s len hn hbits hlen hcap
  have hmod := Nat.mod_eq_of_lt hlen
  rw [← s.afterHeader_eq hn hlen, exec_hdr]
  rcases execHdr_cases len s with ⟨-, -, h⟩ | ⟨-, hlong, -⟩ | ⟨j, hj, -, hcut, -⟩
  · exact h
  · omega
  · omega

/-- Settles O14: the bits are there and the value is too large, which leaves the case of the capacity check. -/
theorem hdrTooLong : Obligations.HdrTooLong := by
  unfold Obligations.HdrTooLong
  intro s len hn hbits hlen hcap
  have hmod := Nat.mod_eq_of_lt hlen
  rw [← s.afterHeader_eq hn hlen, exec_hdr]
  rcases execHdr_cases len s with ⟨-, hfits, -⟩ | ⟨-, -, h⟩ | ⟨j, hj, -, hcut, -⟩
  · omega
  · exact h
  · omega

/-- Settles O15: the header is cut off after as many bytes as are there. -/
theorem hdrTruncated : Obligations.HdrTruncated := by
  unfold Obligations.HdrTruncated
  intro s len hn hshort
  rw [exec_hdr]
  rcases execHdr_cases len s with ⟨hbits, -, -⟩ | ⟨hbits, -, -⟩ | ⟨j, -, hbits, hcut, h⟩
  · rcases hbits with h0 | hbits <;> omega
  · rcases hbits with h0 | hbits <;> omega
  · have hj : (8 * s.inLen - s.bitpos) / 8 = j := by rcases hbits with h0 | hbits <;> omega
    rw [hj, h, raiseTruncated_afterHeader, raiseTruncated_eq]
    exact ⟨_, rfl, rfl⟩

/-! ### LIT -/

/-- The state after at least one literal byte (R162). -/
theorem State.afterLiteral_eq (s : State) {bs : List Byte} (h : bs ≠ []) :
    s.afterLiteral bs = { s.setBitpos (s.bitpos + 8 * bs.length) with
      acc := BitVec.ofNat 16 (bs.getLastD 0).toNat
      shift := 8#5
      rem := 0#5
      pos := s.pos + bs.length
      cnt := s.cnt - BitVec.ofNat 8 bs.length
      outMem := s.outMem.writeBytes s.pos bs } := by
  obtain ⟨b, bs, rfl⟩ := List.exists_cons_of_ne_nil h
  rfl

/-- The last of the bytes of a literal that has `k` of them. -/
theorem getLastD_take {k : Nat} (b0 b1 b2 : Byte) (hk1 : 1 ≤ k) (hk3 : k ≤ 3) :
    ([b0, b1, b2].take k).getLastD 0 = [b0, b1, b2].getD (k - 1) 0 := by
  match k, hk1, hk3 with
  | 1, _, _ => rfl
  | 2, _, _ => rfl
  | 3, _, _ => rfl

/-- With its bits there and room for them a literal is executed to its end. -/
theorem execLit_enough {s : State} (b0 b1 b2 : Byte) (hcap : s.pos + litCount s.len s.pos ≤ s.outCap)
    (hbits : s.bitpos + (1 + 8 * litCount s.len s.pos) ≤ 8 * s.inLen) :
    execLit b0 b1 b2 s = .next (s.litBegin.afterLiteral ([b0, b1, b2].take (litCount s.len s.pos))) := by
  rcases execLit_cases b0 b1 b2 s with ⟨hcut, -⟩ | ⟨-, h⟩ | ⟨j, hj, -, hcut, -⟩ | ⟨hfull, -⟩
  · omega
  · exact h
  · omega
  · omega

theorem pos_add_litCount_le {len pos cap : Nat} (hpos : pos ≤ len) (hcap : len ≤ cap) :
    pos + litCount len pos ≤ cap := by
  rw [litCount]
  omega

theorem litCount_le_three (len pos : Nat) : litCount len pos ≤ 3 := Nat.min_le_left _ _

/-- Settles O17: a token may stand, so it has 1 to 3 bytes, and they fit the buffer. -/
theorem litCompletes : Obligations.LitCompletes := by
  unfold Obligations.LitCompletes
  intro s b0 b1 b2 hpos hcap hbits
  obtain ⟨hk1, hk3⟩ := litCount_bounds hpos
  have hlen := litBytes_length b0 b1 b2 s.len s.pos
  have hne : [b0, b1, b2].take (litCount s.len s.pos) ≠ [] := List.ne_nil_of_length_pos (by omega)
  have hend : s.bitpos + 1 + 8 * litCount s.len s.pos = s.bitpos + (1 + 8 * litCount s.len s.pos) := by omega
  rw [exec_lit, execLit_enough b0 b1 b2 (pos_add_litCount_le hpos.le hcap) hbits, State.afterLiteral_eq _ hne, hlen,
    getLastD_take b0 b1 b2 hk1 hk3, State.bitpos_litBegin, hend, State.litBegin, BitVec.sub_self]
  rfl

/-- Settles O18: a literal that completes has written its bytes from `POS` on. -/
theorem litWritesItsBytes : Obligations.LitWritesItsBytes := by
  unfold Obligations.LitWritesItsBytes
  intro s t b0 b1 b2 hpos hcap hbits hexec a
  have hlen := litBytes_length b0 b1 b2 s.len s.pos
  obtain rfl := Host.Outcome.next.inj ((litCompletes s b0 b1 b2 hpos hcap hbits).symm.trans hexec)
  rw [Memory.read_writeBytes, hlen]
  split
  case isTrue hin => rw [List.getD_eq_getElem?_getD, List.getElem?_take_of_lt (by omega), ← List.getD_eq_getElem?_getD]
  case isFalse => rfl

/-- Settles O19: the flag is there and the bytes are not, so the literal is cut off after as many bytes as are there. -/
theorem litTruncatedPartialState : Obligations.LitTruncatedPartialState := by
  unfold Obligations.LitTruncatedPartialState
  intro s b0 b1 b2 hcap hflag hshort
  rw [exec_lit]
  have hk3 := litCount_le_three s.len s.pos
  rcases execLit_cases b0 b1 b2 s with ⟨hcut, -⟩ | ⟨hbits, -⟩ | ⟨j, hj, hbits, hcut, h⟩ | ⟨hfull, -⟩
  · omega
  · omega
  · have hlen : ([b0, b1, b2].take j).length = j := List.length_take_of_le (hj.le.trans hk3)
    have hcnt : BitVec.ofNat 8 (litCount s.len s.pos) - BitVec.ofNat 8 j = BitVec.ofNat 8 (litCount s.len s.pos - j) :=
      BitVec.ofNat_sub_ofNat_of_le _ _ (by omega) hj.le
    rw [h, raiseTruncated_litBegin_afterLiteral, hlen, hcnt, raiseTruncated_eq]
    exact ⟨_, j, by omega, hj, rfl, rfl⟩
  · rw [litCount] at hfull hshort
    omega

/-! ### MATCH -/

theorem offsetLegal_iff {offset : BitVec 16} {pos : Nat} :
    offsetLegal offset pos = true ↔ 1 ≤ offset.toNat ∧ offset.toNat ≤ pos := by
  simp [offsetLegal]

theorem pos_add_copyCount_le {len pos cap : Nat} (length : Byte) (hpos : pos ≤ len) (hcap : len ≤ cap) :
    pos + copyCount length len pos ≤ cap := by
  rw [copyCount]
  omega

/-- With its bits there, a legal offset and room for the copy a match is executed to its end. -/
theorem execMatch_enough {s : State} {offset : BitVec 16} {length : Byte}
    (hcap : s.pos + copyCount length s.len s.pos ≤ s.outCap) (hlegal : offsetLegal offset s.pos = true)
    (hbits : s.bitpos + (9 + offWidth s.pos s.mws) ≤ 8 * s.inLen) :
    execMatch offset length s = .next (s.afterCopy offset length) := by
  rcases execMatch_cases offset length s with
    ⟨hcut, -⟩ | ⟨-, hcut, -⟩ | ⟨-, hcut, -⟩ | ⟨-, hbad, -⟩ | ⟨-, -, h⟩ | ⟨-, -, hsome, hfull, -⟩
  · omega
  · omega
  · omega
  · exact absurd hlegal (ne_true_of_eq_false hbad)
  · exact h
  · omega

/-- With its bits there and an illegal offset a match raises its error before the copy, whatever its length. -/
theorem execMatch_illegal {s : State} {offset : BitVec 16} {length : Byte} (hbad : offsetLegal offset s.pos = false)
    (hbits : s.bitpos + (9 + offWidth s.pos s.mws) ≤ 8 * s.inLen) :
    execMatch offset length s = .next (raise .invalidBackReference (s.afterMatch offset length)) := by
  rcases execMatch_cases offset length s with
    ⟨hcut, -⟩ | ⟨-, hcut, -⟩ | ⟨-, hcut, -⟩ | ⟨-, -, h⟩ | ⟨-, hlegal, -⟩ | ⟨-, hlegal, -⟩
  · omega
  · omega
  · omega
  · exact h
  · exact absurd hlegal (ne_true_of_eq_false hbad)
  · exact absurd hlegal (ne_true_of_eq_false hbad)

/-- Settles O20: the copy of the whole match, read back byte by byte. -/
theorem matchCompletes : Obligations.MatchCompletes := by
  unfold Obligations.MatchCompletes
  intro s offset length hpos hcap h1 hle hbits
  refine ⟨s.outMem.copyUp offset.toNat s.pos (copyCount length s.len s.pos), ?_, fun j hj => ?_, fun a ha => ?_⟩
  · rw [exec_matchTok, execMatch_enough (pos_add_copyCount_le length hpos hcap) (offsetLegal_iff.mpr ⟨h1, hle⟩) hbits]
    rfl
  · exact Memory.read_copyUp _ h1 hle hj
  · exact Memory.read_copyUp_outside _ _ ha

/-- Settles O21: the check decides, and a legal offset lets the match complete. -/
theorem matchChecksOffset : Obligations.MatchChecksOffset := by
  unfold Obligations.MatchChecksOffset
  intro s offset length hbits
  refine ⟨fun hbad => ?_, fun h1 hle hpos hcap => ⟨by omega, s.afterCopy offset length, ?_, rfl, rfl⟩⟩
  · have hillegal : offsetLegal offset s.pos = false := by
      rw [Bool.eq_false_iff, ne_eq, offsetLegal_iff]
      omega
    rw [exec_matchTok, execMatch_illegal hillegal hbits]
    rfl
  · exact execMatch_enough (pos_add_copyCount_le length hpos hcap) (offsetLegal_iff.mpr ⟨h1, hle⟩) hbits

/-- Settles O22: the match is cut off in its offset or behind it. -/
theorem matchTruncated : Obligations.MatchTruncated := by
  unfold Obligations.MatchTruncated
  intro s offset length hflag hshort
  rw [exec_matchTok]
  rcases execMatch_cases offset length s with
    ⟨hcut, -⟩ | ⟨-, hcut, h⟩ | ⟨hbits, -, h⟩ | ⟨hbits, -⟩ | ⟨hbits, -⟩ | ⟨hbits, -⟩
  · omega
  · rw [if_neg (by omega), h, raiseTruncated_matchBegin, raiseTruncated_eq]
    exact ⟨_, rfl, rfl⟩
  · rw [if_pos hbits, h, raiseTruncated_afterOffset, raiseTruncated_eq]
    exact ⟨_, rfl, rfl⟩
  · omega
  · omega
  · omega

/-- Settles O23: a copy of no bytes is the whole match without its copy. -/
theorem matchOfLengthZero : Obligations.MatchOfLengthZero := by
  unfold Obligations.MatchOfLengthZero
  intro s offset h1 hle hbits
  have hnone : copyCount 0#8 s.len s.pos = 0 := Nat.zero_min _
  rcases execMatch_cases offset 0#8 s with
    ⟨hcut, -⟩ | ⟨-, hcut, -⟩ | ⟨-, hcut, -⟩ | ⟨-, hbad, -⟩ | ⟨-, -, h⟩ | ⟨-, -, hsome, hfull, -⟩
  · omega
  · omega
  · omega
  · exact absurd (offsetLegal_iff.mpr ⟨h1, hle⟩) (ne_true_of_eq_false hbad)
  · rw [exec_matchTok, h, State.afterCopy, hnone]
    rfl
  · omega

theorem offsetLegal_zero (offset : BitVec 16) : offsetLegal offset 0 = false := by
  rw [Bool.eq_false_iff, ne_eq, offsetLegal_iff]
  omega

/-- Settles O24: at `POS = 0` no offset is legal, so the bits there decide which error is raised. -/
theorem matchCannotComeFirst : Obligations.MatchCannotComeFirst := by
  unfold Obligations.MatchCannotComeFirst
  intro s offset length hpos
  have hw : offWidth s.pos s.mws = 1 := by rw [hpos, offWidth_pos_zero]
  have hillegal : offsetLegal offset s.pos = false := by rw [hpos, offsetLegal_zero]
  refine ⟨hw, ?_⟩
  rw [exec_matchTok]
  have hcases := execMatch_cases offset length s
  rw [hw] at hcases
  rcases hcases with ⟨hcut, h⟩ | ⟨-, hcut, h⟩ | ⟨-, hcut, h⟩ | ⟨hbits, -, h⟩ | ⟨-, hlegal, -⟩ | ⟨-, hlegal, -⟩
  · exact ⟨_, h, rfl, rfl, by rw [if_neg (by omega)]; rfl⟩
  · exact ⟨_, h, rfl, rfl, by rw [if_neg (by omega)]; rfl⟩
  · exact ⟨_, h, rfl, s.afterOffset_outMem offset, by rw [if_neg (by omega)]; rfl⟩
  · exact ⟨_, h, rfl, rfl, by rw [if_pos (by omega)]; rfl⟩
  · exact absurd hlegal (ne_true_of_eq_false hillegal)
  · exact absurd hlegal (ne_true_of_eq_false hillegal)

/-! ### The flag and the cursor -/

theorem execLit_flag_cut {s : State} (h : 8 * s.inLen < s.bitpos + 1) (b0 b1 b2 : Byte) :
    execLit b0 b1 b2 s = .next (raiseTruncated s) := by
  rcases readFlag_cases 0#1 s with ⟨hflag, -⟩ | ⟨-, hread⟩
  · omega
  · rw [execLit, hread]
    rfl

theorem execMatch_flag_cut {s : State} (h : 8 * s.inLen < s.bitpos + 1) (offset : BitVec 16) (length : Byte) :
    execMatch offset length s = .next (raiseTruncated s) := by
  rcases readFlag_cases 1#1 s with ⟨hflag, -⟩ | ⟨-, hread⟩
  · omega
  · rw [execMatch, hread]
    rfl

/-- Where a token is due and its flag is cut off the engine raises the error without an instruction (R193). -/
theorem busyStep_flag_cut {s : State} (hcut : 8 * s.inLen < s.bitpos + 1) (hpos : s.bitpos ≠ 0) (hlt : s.pos < s.len) :
    busyStep s = .next (raiseTruncated s) := by
  have hheader : ¬s.atHeader = true := by simpa [State.atHeader] using hpos
  exact (if_neg hheader).trans ((if_pos hlt).trans (if_neg (not_le.mpr hcut)))

/-- Settles O25: both tokens begin with the reading of the flag, and the engine's step tests for it first. -/
theorem flagTruncated : Obligations.FlagTruncated := by
  unfold Obligations.FlagTruncated
  intro s hcut
  refine ⟨execLit_flag_cut hcut, execMatch_flag_cut hcut, fun hqueue hbusy hpos hlt => ?_⟩
  rw [step_eq_busyStep hqueue hbusy, busyStep_flag_cut hcut hpos hlt]

/-- `START` sets the cursor to stream bit 0, whatever the version. -/
theorem start_bitpos (s : State) : (start s).bitpos = 0 := by
  rw [State.bitpos, start_byteIdx, start_bitsAvail]
  rfl

/-- An instruction that raises an error has left `BUSY`. -/
theorem status_ne_busy_of_raise {e : ErrCode} {o : Answer} {u t : State} (hraise : o = .next (raise e u))
    (ho : o = .next t) : t.status ≠ .busy := by
  obtain rfl := Host.Outcome.next.inj (hraise.symm.trans ho)
  simp

theorem execHdr_cursor {len : Nat} {s t : State} (hn : 1 ≤ s.params.hdrBytes) (hexec : execHdr len s = .next t)
    (ht : t.status = .busy) : t.bitpos = s.bitpos + 8 * s.params.hdrBytes ∧ t.bitpos ≤ 8 * s.inLen := by
  rcases execHdr_cases len s with ⟨hbits, -, h⟩ | ⟨-, -, h⟩ | ⟨_, -, -, -, h⟩
  · obtain rfl := Host.Outcome.next.inj (h.symm.trans hexec)
    rw [State.bitpos_afterHeader]
    exact ⟨rfl, by rcases hbits with h0 | hbits <;> omega⟩
  · exact absurd ht (status_ne_busy_of_raise h hexec)
  · exact absurd ht (status_ne_busy_of_raise h hexec)

theorem execLit_cursor {b0 b1 b2 : Byte} {s t : State} (hexec : execLit b0 b1 b2 s = .next t)
    (ht : t.status = .busy) :
    t.bitpos = s.bitpos + (1 + 8 * litCount s.len s.pos) ∧ t.bitpos ≤ 8 * s.inLen := by
  rcases execLit_cases b0 b1 b2 s with ⟨-, h⟩ | ⟨hbits, h⟩ | ⟨_, -, -, -, h⟩ | ⟨-, _, h⟩
  · exact absurd ht (status_ne_busy_of_raise h hexec)
  · obtain rfl := Host.Outcome.next.inj (h.symm.trans hexec)
    rw [State.bitpos_afterLiteral, State.bitpos_litBegin, litBytes_length, Nat.add_assoc]
    exact ⟨rfl, hbits⟩
  · exact absurd ht (status_ne_busy_of_raise h hexec)
  · cases h.symm.trans hexec

theorem execMatch_cursor {offset : BitVec 16} {length : Byte} {s t : State}
    (hexec : execMatch offset length s = .next t) (ht : t.status = .busy) :
    t.bitpos = s.bitpos + (1 + offWidth s.pos s.mws + 8) ∧ t.bitpos ≤ 8 * s.inLen := by
  rcases execMatch_cases offset length s with
    ⟨-, h⟩ | ⟨-, -, h⟩ | ⟨-, -, h⟩ | ⟨-, -, h⟩ | ⟨hbits, -, h⟩ | ⟨-, -, -, -, _, h⟩
  · exact absurd ht (status_ne_busy_of_raise h hexec)
  · exact absurd ht (status_ne_busy_of_raise h hexec)
  · exact absurd ht (status_ne_busy_of_raise h hexec)
  · exact absurd ht (status_ne_busy_of_raise h hexec)
  · obtain rfl := Host.Outcome.next.inj (h.symm.trans hexec)
    rw [State.bitpos_afterCopy]
    exact ⟨by omega, hbits⟩
  · cases h.symm.trans hexec

/-- Settles O30: an instruction that leaves the engine `BUSY` has completed, which moves the cursor by its length. -/
theorem cursorAdvances : Obligations.CursorAdvances := by
  unfold Obligations.CursorAdvances
  refine ⟨fun i s t hn _ hexec ht => ?_, start_bitpos⟩
  cases i with
  | hdr len => exact execHdr_cursor hn hexec ht
  | lit b0 b1 b2 => exact execLit_cursor hexec ht
  | matchTok offset length => exact execMatch_cursor hexec ht

end Sys2Proof.Machine
end

section
/-! SUPPORT. Everything one step of the machine can do: what no instruction touches, the engine's step, and each action of
the host (10_state.md R38, 45_orchestrator.md R190 to R194, 70_reset_and_hazards.md). -/

namespace Sys2Proof.Machine

/-! ### What no instruction touches -/

/-- The state without the registers an instruction may write and without `OUT`: two states with one frame agree on all
else. -/
def State.frame (s : State) : State :=
  { s with
    byteIdx := 0
    bitsAvail := 0#4
    len := 0
    pos := 0
    flag := 0#1
    offw := 0#5
    offset := 0#16
    matchLen := 0#8
    cnt := 0#8
    acc := 0#16
    shift := 0#5
    rem := 0#5
    outMem := [] }

@[simp] theorem State.frame_afterHeader (s : State) (len n : Nat) : (s.afterHeader len n).frame = s.frame := by
  cases n <;> rfl

@[simp] theorem State.frame_afterLiteral (s : State) (bs : List Byte) : (s.afterLiteral bs).frame = s.frame := by
  cases bs <;> rfl

@[simp] theorem State.frame_consume (s : State) (n v : Nat) : (s.consume n v).frame = s.frame := rfl
@[simp] theorem State.frame_litBegin (s : State) : s.litBegin.frame = s.frame := rfl
@[simp] theorem State.frame_matchBegin (s : State) : s.matchBegin.frame = s.frame := rfl
@[simp] theorem State.frame_afterOffset (s : State) (offset : BitVec 16) : (s.afterOffset offset).frame = s.frame :=
  (s.matchBegin.frame_consume (offWidth s.pos s.mws) offset.toNat).trans s.frame_matchBegin

@[simp] theorem State.frame_afterMatch (s : State) (offset : BitVec 16) (length : Byte) :
    (s.afterMatch offset length).frame = s.frame := rfl
@[simp] theorem State.frame_afterCopy (s : State) (offset : BitVec 16) (length : Byte) :
    (s.afterCopy offset length).frame = s.frame := rfl

/-- The errors an instruction can raise, as next states (R222). -/
def State.Raises (s t : State) : Prop :=
  t = raiseTruncated s ∨ t = raise .capacityExceeded s ∨ t = raise .invalidBackReference s

/-- An instruction with a next state has completed inside the frame, or has raised an error in a state with its frame. -/
theorem exec_next {i : Instr} {s t : State} (h : exec i s = .next t) :
    t.frame = s.frame ∨ ∃ u : State, u.frame = s.frame ∧ u.Raises t := by
  cases i with
  | hdr len =>
    rw [exec_hdr] at h
    rcases execHdr_cases len s with ⟨-, -, e⟩ | ⟨-, -, e⟩ | ⟨j, -, -, -, e⟩ <;>
      obtain rfl := Host.Outcome.next.inj (e.symm.trans h)
    · exact .inl (s.frame_afterHeader len _)
    · exact .inr ⟨_, s.frame_afterHeader len _, .inr (.inl rfl)⟩
    · exact .inr ⟨_, s.frame_afterHeader len j, .inl rfl⟩
  | lit b0 b1 b2 =>
    have hframe : ∀ bs, (s.litBegin.afterLiteral bs).frame = s.frame := fun bs => by
      rw [State.frame_afterLiteral, State.frame_litBegin]
    rw [exec_lit] at h
    rcases execLit_cases b0 b1 b2 s with ⟨-, e⟩ | ⟨-, e⟩ | ⟨j, -, -, -, e⟩ | ⟨-, r, e⟩
    · exact .inr ⟨s, rfl, .inl (Host.Outcome.next.inj (h.symm.trans e))⟩
    · exact .inl (Host.Outcome.next.inj (h.symm.trans e) ▸ hframe _)
    · exact .inr ⟨_, hframe _, .inl (Host.Outcome.next.inj (h.symm.trans e))⟩
    · cases e.symm.trans h
  | matchTok offset length =>
    rw [exec_matchTok] at h
    rcases execMatch_cases offset length s with
      ⟨-, e⟩ | ⟨-, -, e⟩ | ⟨-, -, e⟩ | ⟨-, -, e⟩ | ⟨-, -, e⟩ | ⟨-, -, -, -, r, e⟩
    · exact .inr ⟨s, rfl, .inl (Host.Outcome.next.inj (h.symm.trans e))⟩
    · exact .inr ⟨_, s.frame_matchBegin, .inl (Host.Outcome.next.inj (h.symm.trans e))⟩
    · exact .inr ⟨_, s.frame_afterOffset offset, .inl (Host.Outcome.next.inj (h.symm.trans e))⟩
    · exact .inr ⟨_, s.frame_afterMatch offset length, .inr (.inr (Host.Outcome.next.inj (h.symm.trans e)))⟩
    · exact .inl (Host.Outcome.next.inj (h.symm.trans e) ▸ s.frame_afterCopy offset length)
    · cases e.symm.trans h

/-! ### The engine's step -/

theorem State.atHeader_iff (s : State) : s.atHeader = true ↔ s.bitpos = 0 := by simp [State.atHeader]

theorem runFetched_of_fetch {s : State} {i : Instr} {rest : List Bool} (h : s.fetch = .ok (i, rest)) :
    runFetched s = exec i s := by
  simp only [runFetched, h]

theorem busyStep_header {s : State} (h : s.bitpos = 0) : busyStep s = runFetched s :=
  if_pos (s.atHeader_iff.mpr h)

theorem busyStep_token {s : State} (hpos : s.bitpos ≠ 0) (hlt : s.pos < s.len) (hflag : s.bitpos + 1 ≤ 8 * s.inLen) :
    busyStep s = runFetched s :=
  (if_neg (mt s.atHeader_iff.mp hpos)).trans ((if_pos hlt).trans (if_pos hflag))

theorem engineStep_busy {s : State} (h : s.status = .busy) : engineStep s = busyStep s := by
  simp only [engineStep, h]

theorem engineStep_waits {s : State} (h : s.status ≠ .busy) : engineStep s = .next s := by
  cases hs : s.status with
  | busy => exact absurd hs h
  | idle => simp only [engineStep, hs]
  | done => simp only [engineStep, hs]
  | fault => simp only [engineStep, hs]

/-- A step of the `BUSY` engine ends the run, or completes an instruction inside the frame, or raises an error in a state
with its frame. -/
theorem busyStep_next {s t : State} (h : busyStep s = .next t) :
    t = complete s ∨ t.frame = s.frame ∨ ∃ u : State, u.frame = s.frame ∧ u.Raises t := by
  obtain ⟨i, -, -, hexec⟩ := runFetched_eq_exec s
  rw [busyStep] at h
  split at h
  · exact .inr (exec_next (hexec.symm.trans h))
  · split at h
    · split at h
      · exact .inr (exec_next (hexec.symm.trans h))
      · exact .inr (.inr ⟨s, rfl, .inl (Host.Outcome.next.inj h).symm⟩)
    · exact .inl (Host.Outcome.next.inj h).symm

theorem engineStep_next {s t : State} (h : engineStep s = .next t) :
    t = s ∨ s.status = .busy ∧ (t = complete s ∨ t.frame = s.frame ∨ ∃ u : State, u.frame = s.frame ∧ u.Raises t) := by
  by_cases hbusy : s.status = .busy
  · exact .inr ⟨hbusy, busyStep_next ((engineStep_busy hbusy).symm.trans h)⟩
  · exact .inl (Host.Outcome.next.inj ((engineStep_waits hbusy).symm.trans h)).symm

/-- What the engine has no access to: the configuration, the parameters, the stream and the host's part. -/
abbrev State.InputsKept (s t : State) : Prop :=
  t.params = s.params ∧ t.inLen = s.inLen ∧ t.outCap = s.outCap ∧ t.fmtVer = s.fmtVer ∧ t.inMem = s.inMem ∧
  t.hostQueue = s.hostQueue ∧ t.hostRead = s.hostRead

theorem State.inputsKept_of_frame {s t : State} (h : t.frame = s.frame) : s.InputsKept t :=
  ⟨(congrArg State.params h :), (congrArg State.inLen h :), (congrArg State.outCap h :), (congrArg State.fmtVer h :),
    (congrArg State.inMem h :), (congrArg State.hostQueue h :), (congrArg State.hostRead h :)⟩

theorem State.Raises.inputsKept {s t : State} (h : s.Raises t) : s.InputsKept t := by
  rcases h with rfl | rfl | rfl <;> exact ⟨rfl, rfl, rfl, rfl, rfl, rfl, rfl⟩

theorem State.Raises.status {s t : State} (h : s.Raises t) : t.status = .fault := by
  rcases h with rfl | rfl | rfl <;> rfl

/-- Settles O31: an instruction stays inside the frame, and neither an error nor `DONE` touches an input. -/
theorem engineNeverWritesInputs : Obligations.EngineNeverWritesInputs := by
  unfold Obligations.EngineNeverWritesInputs
  intro s t h
  change s.InputsKept t
  rcases engineStep_next h with rfl | ⟨-, rfl | hframe | ⟨u, hframe, hraise⟩⟩
  · exact ⟨rfl, rfl, rfl, rfl, rfl, rfl, rfl⟩
  · exact ⟨rfl, rfl, rfl, rfl, rfl, rfl, rfl⟩
  · exact State.inputsKept_of_frame hframe
  · obtain ⟨h1, h2, h3, h4, h5, h6, h7⟩ := State.inputsKept_of_frame hframe
    obtain ⟨e1, e2, e3, e4, e5, e6, e7⟩ := hraise.inputsKept
    exact ⟨e1.trans h1, e2.trans h2, e3.trans h3, e4.trans h4, e5.trans h5, e6.trans h6, e7.trans h7⟩

/-- Settles O26: at the header and at a token with its flag the step is the execution of what is fetched. -/
theorem stepRunsDecoded : Obligations.StepRunsDecoded := by
  unfold Obligations.StepRunsDecoded
  intro s i rest hqueue hbusy hat hfetch
  rw [step_eq_busyStep hqueue hbusy, ← runFetched_of_fetch hfetch]
  by_cases hpos : s.bitpos = 0
  · exact busyStep_header hpos
  · obtain hzero | ⟨hlt, hflag⟩ := hat
    · exact absurd hzero hpos
    · exact busyStep_token hpos hlt hflag

/-- With no host action pending the machine moves as its engine does. -/
theorem step_engine {s : State} (h : s.hostQueue = []) : step s = engineStep s := by
  simp only [step, nextMove, h]

theorem step_host {s : State} {a : HostAction} {q : List HostAction} (h : s.hostQueue = a :: q) :
    step s = hostStep a { s with hostQueue := q } := by
  simp only [step, nextMove, h]

/-- Settles O29. -/
theorem engineWaits : Obligations.EngineWaits := by
  unfold Obligations.EngineWaits
  intro s hqueue hidle
  rw [step_engine hqueue, engineStep_waits hidle]

/-! ### The host's actions -/

theorem hostWrite_busy {s : State} (h : s.status = .busy) (fits : Bool) (t : State) :
    hostWrite fits s t = .refused .hostWriteWhileBusy := if_pos h

theorem hostWrite_idle {s : State} (h : s.status ≠ .busy) (fits : Bool) (t : State) :
    hostWrite fits s t = if fits then .next t else .refused .hostOutOfRange := if_neg h

theorem hostWrite_next {fits : Bool} {s t u : State} (h : hostWrite fits s t = .next u) :
    s.status ≠ .busy ∧ fits = true ∧ u = t := by
  rw [hostWrite] at h
  split at h
  case isTrue => cases h
  case isFalse hidle =>
    split at h
    case isTrue hfits => exact ⟨hidle, hfits, (Host.Outcome.next.inj h).symm⟩
    case isFalse => cases h

theorem hostReadOut_busy {s : State} (h : s.status = .busy) (a : Nat) :
    hostReadOut a s = .refused .hostReadWhileBusy := if_pos h

theorem hostReadOut_idle {s : State} (h : s.status ≠ .busy) (a : Nat) :
    hostReadOut a s =
      if a < s.outCap then .next { s with hostRead := (s.hostOut a).toNat } else .refused .hostOutOfRange := if_neg h

theorem hostReadOut_next {a : Nat} {s u : State} (h : hostReadOut a s = .next u) :
    u = { s with hostRead := (s.hostOut a).toNat } := by
  rw [hostReadOut] at h
  split at h
  case isTrue => cases h
  case isFalse hidle =>
    split at h
    case isTrue => exact (Host.Outcome.next.inj h).symm
    case isFalse => cases h

theorem hostStart_busy {s : State} (h : s.status = .busy) : hostStart s = .refused .startWhileBusy := if_pos h

theorem hostStart_overlap {s : State} (h : s.status ≠ .busy) (ho : s.buffersOverlap = true) :
    hostStart s = .refused .overlappingBuffers := (if_neg h).trans (if_pos ho)

theorem hostStart_accepted {s : State} (h : s.status ≠ .busy) (ho : s.buffersOverlap = false) :
    hostStart s = .next (start s) := (if_neg h).trans (if_neg (ne_true_of_eq_false ho))

theorem hostStart_next {s u : State} (h : hostStart s = .next u) : s.status ≠ .busy ∧ u = start s := by
  rw [hostStart] at h
  split at h
  case isTrue => cases h
  case isFalse hidle =>
    split at h
    case isTrue => cases h
    case isFalse => exact ⟨hidle, (Host.Outcome.next.inj h).symm⟩

/-- What the host's next action can lead to, one rule per action that is not refused. -/
inductive HostMove (s : State) : HostAction → State → Prop where
  | pass {t : State} (h : engineStep s = .next t) : HostMove s .pass t
  | writeInLen {n : Nat} (hidle : s.status ≠ .busy) (hn : n < 2 ^ s.params.addrW) :
      HostMove s (.writeInLen n) { s with inLen := n }
  | writeOutCap {n : Nat} (hidle : s.status ≠ .busy) (hn : n < 2 ^ s.params.addrW) :
      HostMove s (.writeOutCap n) { s with outCap := n }
  | writeFmtVer {v : Int} (hidle : s.status ≠ .busy)
      (hv : -(2 ^ (s.params.verW - 1) : Int) ≤ v ∧ v < 2 ^ (s.params.verW - 1)) :
      HostMove s (.writeFmtVer v) { s with fmtVer := v }
  | writeIn {x : Nat} {b : Byte} (hidle : s.status ≠ .busy) :
      HostMove s (.writeIn x b) { s with inMem := s.inMem.write x b }
  | writeOut {x : Nat} {b : Byte} (hidle : s.status ≠ .busy) :
      HostMove s (.writeOut x b) { s with outMem := s.outMem.write x b, outLost := recoverAt x s.outLost }
  | readStatus : HostMove s .readStatus { s with hostRead := s.status.code }
  | readErrCode : HostMove s .readErrCode { s with hostRead := s.errCode.code }
  | readResultLen : HostMove s .readResultLen { s with hostRead := s.resultLen }
  | readOut {x : Nat} : HostMove s (.readOut x) { s with hostRead := (s.hostOut x).toNat }
  | start (hidle : s.status ≠ .busy) : HostMove s .start (Machine.start s)
  | reset : HostMove s .reset (hardwareReset s)

theorem hostStep_next {a : HostAction} {s t : State} (h : hostStep a s = .next t) : HostMove s a t := by
  cases a with
  | pass => exact .pass h
  | writeInLen n =>
    obtain ⟨hidle, hn, rfl⟩ := hostWrite_next h
    exact .writeInLen hidle (of_decide_eq_true hn)
  | writeOutCap n =>
    obtain ⟨hidle, hn, rfl⟩ := hostWrite_next h
    exact .writeOutCap hidle (of_decide_eq_true hn)
  | writeFmtVer v =>
    obtain ⟨hidle, hv, rfl⟩ := hostWrite_next h
    exact .writeFmtVer hidle (by simpa using hv)
  | writeIn x b =>
    obtain ⟨hidle, -, rfl⟩ := hostWrite_next h
    exact .writeIn hidle
  | writeOut x b =>
    obtain ⟨hidle, -, rfl⟩ := hostWrite_next h
    exact .writeOut hidle
  | readStatus => exact Host.Outcome.next.inj h ▸ .readStatus
  | readErrCode => exact Host.Outcome.next.inj h ▸ .readErrCode
  | readResultLen => exact Host.Outcome.next.inj h ▸ .readResultLen
  | readOut x => exact hostReadOut_next h ▸ .readOut
  | start =>
    obtain ⟨hidle, rfl⟩ := hostStart_next h
    exact .start hidle
  | reset => exact Host.Outcome.next.inj h ▸ .reset

/-- Everything a step of the machine can do: the engine moves, or the host's next action takes effect. -/
theorem step_next {s t : State} (h : step s = .next t) :
    s.hostQueue = [] ∧ engineStep s = .next t ∨
    ∃ a q, s.hostQueue = a :: q ∧ HostMove { s with hostQueue := q } a t := by
  cases hq : s.hostQueue with
  | nil => exact .inl ⟨rfl, (step_engine hq).symm.trans h⟩
  | cons a q => exact .inr ⟨a, q, rfl, hostStep_next ((step_host hq).symm.trans h)⟩

/-! ### Hardware reset -/

theorem hardwareReset_busy {s : State} (h : s.status = .busy) :
    hardwareReset s =
      { s.loseOut.loseToken.loseRun with status := .idle, errCode := .none, resultLen := 0 } := by
  rw [hardwareReset, if_pos h]

theorem hardwareReset_idle {s : State} (h : s.status ≠ .busy) :
    hardwareReset s = { s.loseToken.loseRun with status := .idle, errCode := .none, resultLen := 0 } := by
  rw [hardwareReset, if_neg h]

@[simp] theorem hardwareReset_params (s : State) : (hardwareReset s).params = s.params := by
  by_cases h : s.status = .busy
  · rw [hardwareReset_busy h]; rfl
  · rw [hardwareReset_idle h]; rfl

@[simp] theorem hardwareReset_inMem (s : State) : (hardwareReset s).inMem = s.inMem := by
  by_cases h : s.status = .busy
  · rw [hardwareReset_busy h]; rfl
  · rw [hardwareReset_idle h]; rfl

@[simp] theorem hardwareReset_status (s : State) : (hardwareReset s).status = .idle := rfl
@[simp] theorem hardwareReset_errCode (s : State) : (hardwareReset s).errCode = .none := rfl
@[simp] theorem hardwareReset_resultLen (s : State) : (hardwareReset s).resultLen = 0 := rfl

theorem hardwareReset_outMem (s : State) :
    (hardwareReset s).outMem = if s.status = .busy then s.outMem.lose s.freeCtr s.outCap else s.outMem := by
  split
  case isTrue h => rw [hardwareReset_busy h]; rfl
  case isFalse h => rw [hardwareReset_idle h]; rfl

theorem hardwareReset_freeCtr (s : State) :
    (hardwareReset s).freeCtr = (if s.status = .busy then s.freeCtr + s.outCap else s.freeCtr) + 16 := by
  split
  case isTrue h => rw [hardwareReset_busy h]; rfl
  case isFalse h => rw [hardwareReset_idle h]; rfl

/-- What the host may rely on after a reset (R251). -/
theorem hardwareReset_hostOut (s : State) (a : Nat) :
    (hardwareReset s).hostOut a =
      if s.status = .busy ∧ a < s.outCap then Config.freeBits 8 (s.freeCtr + a) else s.hostOut a := by
  by_cases h : s.status = .busy
  · simp only [h, true_and]
    rw [hardwareReset_busy h, ← State.hostOut_loseOut]
    exact State.hostOut_congr rfl rfl a
  · rw [if_neg (fun hb => h hb.1), hardwareReset_idle h]
    exact State.hostOut_congr rfl rfl a

/-- Settles O49: the reset draws its free values for the buffer first, and only if a run was going on. -/
theorem hardwareReset_settles : Obligations.HardwareReset := by
  unfold Obligations.HardwareReset
  intro s q hqueue
  have houtMem := hardwareReset_outMem { s with hostQueue := q }
  have hhostOut := hardwareReset_hostOut { s with hostQueue := q }
  refine ⟨hardwareReset { s with hostQueue := q }, step_host hqueue, rfl, rfl, rfl, hardwareReset_params _,
    hardwareReset_inMem _, fun hidle => houtMem.trans (if_neg hidle), fun hbusy a ha => ?_, fun a ha => ?_, fun a ha => ?_⟩
  · refine ⟨s.freeCtr + a, by omega, ?_, ?_, (hhostOut a).trans (if_pos ⟨hbusy, ha⟩)⟩
    · rw [hardwareReset_freeCtr, if_pos hbusy]
      change s.freeCtr + a < s.freeCtr + s.outCap + 16
      omega
    · rw [houtMem, if_pos hbusy, Memory.read_lose, if_pos ha]
  · rw [houtMem]
    split
    · exact Memory.read_lose_above _ _ ha
    · rfl
  · refine (hhostOut a).trans ((if_neg ?_).trans (State.hostOut_congr rfl rfl a))
    rintro ⟨hbusy, hin⟩
    obtain hidle | hout := ha
    · exact hidle hbusy
    · exact absurd hin (not_lt.mpr hout)

/-! ### The obligations about every step -/

/-- Settles O50: neither the engine nor any action of the host has an effect on the parameters. -/
theorem parametersNeverChange : Obligations.ParametersNeverChange := by
  unfold Obligations.ParametersNeverChange
  intro s t h
  rcases step_next h with ⟨-, hengine⟩ | ⟨a, q, -, hmove⟩
  · exact (engineNeverWritesInputs s t hengine).1
  · cases hmove with
    | pass hengine => exact (engineNeverWritesInputs _ t hengine).1
    | start => exact start_params _
    | reset => exact hardwareReset_params _
    | _ => rfl

/-- The engine leaves `STATUS` or ends its run. -/
theorem engineStep_status {s t : State} (h : engineStep s = .next t) :
    t.status = s.status ∨ s.status = .busy ∧ (t.status = .done ∨ t.status = .fault) := by
  rcases engineStep_next h with rfl | ⟨hbusy, rfl | hframe | ⟨u, -, hraise⟩⟩
  · exact .inl rfl
  · exact .inr ⟨hbusy, .inl rfl⟩
  · exact .inl (congrArg State.status hframe :)
  · exact .inr ⟨hbusy, .inr hraise.status⟩

/-- Settles O43: by what moves, the engine or the host, and the host's action. -/
theorem statusTransitions : Obligations.StatusTransitions := by
  unfold Obligations.StatusTransitions
  intro s t h
  rcases step_next h with ⟨hqueue, hengine⟩ | ⟨a, q, hqueue, hmove⟩
  · rcases engineStep_status hengine with hsame | ⟨hbusy, hend⟩
    · exact .inl hsame
    · exact .inr (.inl ⟨hbusy, .inl (by rw [hqueue]; rfl), hend⟩)
  · rw [hqueue, List.head?_cons]
    cases hmove with
    | pass hengine =>
      rcases engineStep_status hengine with hsame | ⟨hbusy, hend⟩
      · exact .inl hsame
      · exact .inr (.inl ⟨hbusy, .inr rfl, hend⟩)
    | start hidle =>
      refine .inr (.inr (.inl ⟨hidle, rfl, ?_⟩))
      rw [start_status]
      split
      case isTrue hneg => exact .inr ⟨hneg, rfl⟩
      case isFalse hpos => exact .inl ⟨not_lt.mp hpos, rfl⟩
    | reset => exact .inr (.inr (.inr ⟨rfl, rfl⟩))
    | _ => exact .inl rfl

/-- Settles O44: only `START` and reset write the result registers of an engine that waits. -/
theorem resultPersists : Obligations.ResultPersists := by
  unfold Obligations.ResultPersists
  intro s t hidle hstart hreset h
  rcases step_next h with ⟨-, hengine⟩ | ⟨a, q, hqueue, hmove⟩
  · obtain rfl := Host.Outcome.next.inj ((engineStep_waits hidle).symm.trans hengine)
    exact ⟨rfl, rfl, rfl⟩
  · rw [hqueue, List.head?_cons] at hstart hreset
    cases hmove with
    | pass hengine =>
      obtain rfl := Host.Outcome.next.inj
        ((engineStep_waits (s := { s with hostQueue := q }) hidle).symm.trans hengine)
      exact ⟨rfl, rfl, rfl⟩
    | start => exact absurd rfl hstart
    | reset => exact absurd rfl hreset
    | _ => exact ⟨rfl, rfl, rfl⟩

/-- What the host may rely on is not changed by a `START` with a recognised version. -/
theorem start_hostOut {s : State} (h : 0 ≤ s.fmtVer) (a : Nat) : (start s).hostOut a = s.hostOut a :=
  State.hostOut_congr (start_outMem s) (by rw [start_outLost, if_neg (not_lt.mpr h)]) a

/-- Settles O41: by the host's action; the engine waits. -/
theorem hostViewPersists : Obligations.HostViewPersists := by
  unfold Obligations.HostViewPersists
  intro s t hidle hwrite hversion h a
  rcases step_next h with ⟨-, hengine⟩ | ⟨act, q, hqueue, hmove⟩
  · obtain rfl := Host.Outcome.next.inj ((engineStep_waits hidle).symm.trans hengine)
    rfl
  · rw [hqueue, List.head?_cons] at hversion
    simp only [hqueue, List.head?_cons] at hwrite
    cases hmove with
    | pass hengine =>
      obtain rfl := Host.Outcome.next.inj
        ((engineStep_waits (s := { s with hostQueue := q }) hidle).symm.trans hengine)
      rfl
    | start => exact start_hostOut (s := { s with hostQueue := q }) (hversion rfl) a
    | reset =>
      rw [hardwareReset_hostOut, if_neg (fun hb => hidle hb.1)]
      rfl
    | writeOut => exact absurd rfl (hwrite _ _)
    | _ => rfl

/-! ### The obligations about errors, `START` and the host -/

/-- What the host may rely on after an error (R222, U1). -/
theorem raise_hostOut (e : ErrCode) (s : State) (a : Nat) :
    (raise e s).hostOut a =
      if a < s.pos then s.outMem.read a
      else if a < s.outCap then Config.freeBits 8 (s.freeCtr + a) else s.hostOut a := by
  simp only [State.hostOut, raise_outLost, raise_outMem, lostByte_append, lostByte_from, lostByte_recoverBelow,
    lostByte_cons, lostByte_nil, Nat.zero_le, true_and]
  by_cases hpos : a < s.pos
  · simp [hpos, Nat.not_le.mpr hpos]
  · by_cases hcap : a < s.outCap <;> simp [hpos, hcap, Nat.not_lt.mp hpos]

/-- Settles O40: the record of lost bytes after an error has one new range, from `POS` up to `OUT_CAP`. -/
theorem faultLosesTail : Obligations.FaultLosesTail := by
  unfold Obligations.FaultLosesTail
  intro e s a
  rw [raise_hostOut]
  refine ⟨fun hlow => if_pos hlow, fun hpos hcap => ?_, fun hpos hcap => ?_⟩
  · refine ⟨s.freeCtr + a, by omega, ?_, ?_⟩
    · rw [raise_freeCtr]
      omega
    · rw [if_neg (not_lt.mpr hpos), if_pos hcap]
  · rw [if_neg (not_lt.mpr hpos), if_neg (not_lt.mpr hcap)]

/-- Settles O39. -/
theorem raiseRecordsTheError : Obligations.RaiseRecordsTheError := by
  unfold Obligations.RaiseRecordsTheError
  exact fun e s => ⟨⟨_, _, raise_eq e s⟩, raiseTruncated_errCode s, raiseTruncated_resultLen s, raiseTruncated_status s,
    raiseTruncated_pos s, raiseTruncated_outMem s⟩

/-- Settles O38: ranges meet exactly where the larger base is below the smaller end. -/
theorem overlapMeansSharedByte : Obligations.OverlapMeansSharedByte := by
  unfold Obligations.OverlapMeansSharedByte
  intro s p hplatform
  have hoverlap : s.buffersOverlap =
      decide (max p.inBase p.outBase < min (p.inBase + s.inLen) (p.outBase + s.outCap)) := by
    simp only [State.buffersOverlap, hplatform]
  rw [hoverlap, decide_eq_true_eq]
  constructor
  · intro hmeet
    exact ⟨max p.inBase p.outBase - p.inBase, max p.inBase p.outBase - p.outBase, by omega, by omega, by omega⟩
  · rintro ⟨i, o, hi, ho, heq⟩
    omega

/-- Settles O12: the two window sizes, and the branch of `START` that raises the error leaves `MWS`. -/
theorem windowSizeByVersion : Obligations.WindowSizeByVersion := by
  unfold Obligations.WindowSizeByVersion
  refine ⟨rfl, fun v hv => if_neg hv.ne', fun s hneg => ?_⟩
  rw [start_status, start_errCode, start_mws, if_pos hneg, if_pos hneg, if_pos hneg]
  exact ⟨rfl, rfl, rfl⟩

/-- Settles O35: field by field. -/
theorem startState : Obligations.StartState := by
  unfold Obligations.StartState
  intro s
  refine ⟨⟨start_params s, start_inLen s, start_outCap s, start_fmtVer s, start_inMem s, start_outMem s,
    start_hostQueue s, start_hostRead s⟩, fun hversion => ?_⟩
  have hneg : ¬s.fmtVer < 0 := not_lt.mpr hversion
  refine ⟨start_byteIdx s, start_bitsAvail s, start_bitpos s, start_pos s, start_len s, ?_, ?_, ?_, start_resultLen s,
    start_hostOut hversion⟩
  · rw [start_mws, if_neg hneg]
  · rw [start_status, if_neg hneg]
  · rw [start_errCode, if_neg hneg]

/-- Settles O37: the three answers of the host's `START`. -/
theorem hostStart_settles : Obligations.HostStart := by
  unfold Obligations.HostStart
  intro s q hqueue
  rw [step_host hqueue]
  exact ⟨fun hidle hfree => hostStart_accepted hidle hfree, fun hbusy => hostStart_busy hbusy,
    fun hidle hover => hostStart_overlap hidle hover⟩

/-- Settles O42. -/
theorem statusAndErrorCodes : Obligations.StatusAndErrorCodes := by
  unfold Obligations.StatusAndErrorCodes
  refine ⟨rfl, rfl, rfl, rfl, rfl, rfl, rfl, rfl, rfl, fun e => ?_⟩
  cases e <;> decide

/-- Settles O45: every write, `OUT` read and `START` tests for `BUSY` first. -/
theorem hostQuiescence : Obligations.HostQuiescence := by
  unfold Obligations.HostQuiescence
  intro s hbusy
  refine ⟨fun _ => hostWrite_busy hbusy _ _, fun _ => hostWrite_busy hbusy _ _, fun _ => hostWrite_busy hbusy _ _,
    fun _ _ => hostWrite_busy hbusy _ _, fun _ _ => hostWrite_busy hbusy _ _, fun _ => hostReadOut_busy hbusy _,
    hostStart_busy hbusy, ?_, rfl, rfl⟩
  rw [hostStep, hbusy]
  rfl

/-- Settles O46. -/
theorem hostReadsResults : Obligations.HostReadsResults := by
  unfold Obligations.HostReadsResults
  exact fun s q => ⟨fun h => step_host h, fun h => step_host h, fun h => step_host h⟩

/-- Settles O48. -/
theorem hostReadsOut : Obligations.HostReadsOut := by
  unfold Obligations.HostReadsOut
  exact fun s a hidle => ⟨fun hin => (hostReadOut_idle hidle a).trans (if_pos hin),
    fun hout => (hostReadOut_idle hidle a).trans (if_neg (not_lt.mpr hout))⟩

/-- What the host may rely on after it has written a byte of `OUT` (R254). -/
theorem hostOut_hostWrite (s : State) (a : Nat) (b : Byte) (x : Nat) :
    { s with outMem := s.outMem.write a b, outLost := recoverAt a s.outLost }.hostOut x =
      if x = a then b else s.hostOut x := by
  simp only [State.hostOut, lostByte_recoverAt, Memory.read_write]
  split <;> rfl

/-- Settles O47: each write takes effect where its value or index fits. -/
theorem hostWritesTakeEffect : Obligations.HostWritesTakeEffect := by
  unfold Obligations.HostWritesTakeEffect
  intro s hidle
  have haccept : ∀ (fits : Bool) (t : State), fits = true → hostWrite fits s t = .next t :=
    fun fits t hfits => (hostWrite_idle hidle fits t).trans (if_pos hfits)
  have hrefuse : ∀ (p : Prop) [Decidable p] (t : State), ¬p → hostWrite p s t = .refused .hostOutOfRange :=
    fun p _ t hp => (hostWrite_idle hidle p t).trans (if_neg (by simpa using hp))
  refine ⟨fun n => ?_, fun n => ?_, fun v => ?_, fun a b ha => ?_, fun a b ha => hrefuse _ _ (not_lt.mpr ha),
    fun a b ha => ?_, fun a b ha => hrefuse _ _ (not_lt.mpr ha)⟩
  · simp [hostStep, hostWrite_idle hidle]
  · simp [hostStep, hostWrite_idle hidle]
  · simp [hostStep, hostWrite_idle hidle]
  · exact ⟨_, haccept _ _ (decide_eq_true ha), fun x => Memory.read_write s.inMem a x b⟩
  · exact ⟨_, _, haccept _ _ (decide_eq_true ha), fun x => Memory.read_write s.outMem a x b, hostOut_hostWrite s a b⟩

end Sys2Proof.Machine
end

section
/-! SUPPORT. A running engine: what it fetches is well-formed, one step of it stays inside its invariant and moves its cursor
on by at least a byte, so the invariant of the machine is kept and every run ends (10_state.md R44, 20_memory.md R79,
45_orchestrator.md R197, R198). -/

namespace Sys2Proof.Machine

/-! ### The fetch -/

theorem one_le_offWidth (pos : Nat) (mws : BitVec 14) : 1 ≤ offWidth pos mws := one_le_bitsReq _
theorem offWidth_le_sixteen (pos : Nat) (mws : BitVec 14) : offWidth pos mws ≤ 16 := bitsReq_le_sixteen _

theorem State.shape_of_bitpos_pos {s : State} (h : s.bitpos ≠ 0) :
    s.shape = .token (litCount s.len s.pos) (offWidth s.pos s.mws) :=
  if_neg (mt s.atHeader_iff.mp h)

/-- Before the end of the output the shape of a token is one the decoder can meet. -/
theorem tokenShape_wf {len pos : Nat} (hlt : pos < len) (mws : BitVec 14) :
    (Shape.token (litCount len pos) (offWidth pos mws)).wf = true := by
  obtain ⟨hk1, hk3⟩ := litCount_bounds hlt
  simp [Shape.wf, hk1, hk3, one_le_offWidth, offWidth_le_sixteen]

/-- Where an instruction may stand its shape is one the decoder can meet. -/
theorem State.shape_wf {s : State} (hlegal : s.params.Legal) (hat : s.bitpos = 0 ∨ s.pos < s.len) :
    s.shape.wf = true := by
  by_cases h0 : s.bitpos = 0
  · rw [State.shape_of_bitpos_zero h0]
    obtain ⟨hn1, hn8, -⟩ := hlegal
    simp [Shape.wf, hn1, hn8]
  · rw [State.shape_of_bitpos_pos h0]
    exact tokenShape_wf (hat.resolve_left h0) s.mws

/-- Settles O27: the fetch always decodes, and what is decoded is well-formed. -/
theorem fetchIsWellFormed : Obligations.FetchIsWellFormed := by
  unfold Obligations.FetchIsWellFormed
  intro s hlegal hat
  have hshape := State.shape_wf hlegal hat
  obtain ⟨i, rest, hfetch⟩ := s.fetch_ok
  exact ⟨i, rest, hfetch, hshape, (encode_of_decode hshape hfetch).1⟩

/-- At stream bit 0 a header is fetched, and its value fits it. -/
theorem State.fetch_at_header {s : State} (h : s.bitpos = 0) :
    ∃ len rest, s.fetch = .ok (.hdr len, rest) ∧ len < 2 ^ (8 * s.params.hdrBytes) := by
  obtain ⟨i, rest, hfetch⟩ := s.fetch_ok
  have hdec := hfetch
  rw [State.fetch, State.shape_of_bitpos_zero h] at hdec
  obtain ⟨hwf, -⟩ := encode_of_decode_header hdec
  cases i with
  | hdr len => exact ⟨len, rest, hfetch, of_decide_eq_true hwf⟩
  | lit b0 b1 b2 => cases hwf
  | matchTok offset length => cases hwf

theorem decode_token_ne_hdr {k offw len : Nat} {bits rest : List Bool} :
    decode (.token k offw) bits ≠ .ok (.hdr len, rest) := by
  intro h
  match bits with
  | [] => cases h
  | false :: bits =>
    rw [decode, decodeLit] at h
    split at h <;> simp at h
  | true :: bits =>
    rw [decode, decodeMatch] at h
    split at h
    · simp at h
    · split at h <;> simp at h

/-- Behind the header a token is fetched. -/
theorem State.fetch_at_token {s : State} (h : s.bitpos ≠ 0) :
    ∃ i rest, s.fetch = .ok (i, rest) ∧
      ((∃ b0 b1 b2, i = .lit b0 b1 b2) ∨ ∃ offset length, i = .matchTok offset length) := by
  obtain ⟨i, rest, hfetch⟩ := s.fetch_ok
  have hdec := hfetch
  rw [State.fetch, State.shape_of_bitpos_pos h] at hdec
  refine ⟨i, rest, hfetch, ?_⟩
  cases i with
  | hdr len => exact absurd hdec decode_token_ne_hdr
  | lit b0 b1 b2 => exact .inl ⟨b0, b1, b2, rfl⟩
  | matchTok offset length => exact .inr ⟨offset, length, rfl⟩

/-! ### The cursor after an instruction -/

theorem State.cursorNormal_setBitpos (s : State) (p : Nat) : (s.setBitpos p).CursorNormal := by
  rw [State.CursorNormal, State.setBitpos_bitsAvail_toNat]
  omega

theorem State.cursorNormal_afterBytes {s : State} (h : s.CursorNormal) (n v : Nat) : (s.afterBytes n v).CursorNormal := by
  cases n with
  | zero => exact h
  | succ n => exact s.cursorNormal_setBitpos (s.bitpos + 8 * (n + 1))

theorem State.cursorNormal_afterHeader {s : State} (h : s.CursorNormal) (len n : Nat) :
    (s.afterHeader len n).CursorNormal :=
  State.cursorNormal_afterBytes (s := { s with len := len % 2 ^ (8 * n) }) h n _

theorem State.cursorNormal_afterLiteral {s : State} (h : s.CursorNormal) (bs : List Byte) :
    (s.afterLiteral bs).CursorNormal := by
  cases bs with
  | nil => rwa [State.afterLiteral_nil]
  | cons b bs => exact s.cursorNormal_setBitpos (s.bitpos + 8 * (bs.length + 1))

theorem State.cursorNormal_litBegin (s : State) : s.litBegin.CursorNormal := s.cursorNormal_consume 1 (0#1).toNat

theorem State.byteIdx_le {s : State} {n : Nat} (h : s.bitpos ≤ 8 * n) : s.byteIdx ≤ n := by
  rw [State.bitpos] at h
  omega

/-! ### The registers after an instruction -/

@[simp] theorem State.afterHeader_pos (s : State) (len n : Nat) : (s.afterHeader len n).pos = s.pos := by
  cases n <;> rfl
@[simp] theorem State.afterHeader_outMem (s : State) (len n : Nat) : (s.afterHeader len n).outMem = s.outMem := by
  cases n <;> rfl
@[simp] theorem State.afterLiteral_pos (s : State) (bs : List Byte) :
    (s.afterLiteral bs).pos = s.pos + bs.length := by cases bs <;> rfl
@[simp] theorem State.afterLiteral_len (s : State) (bs : List Byte) : (s.afterLiteral bs).len = s.len := by
  cases bs <;> rfl
@[simp] theorem State.afterLiteral_outMem (s : State) (bs : List Byte) :
    (s.afterLiteral bs).outMem = s.outMem.writeBytes s.pos bs := by cases bs <;> rfl
@[simp] theorem State.afterOffset_pos (s : State) (offset : BitVec 16) : (s.afterOffset offset).pos = s.pos := by
  simp [State.afterOffset, State.matchBegin, State.afterFlag]
@[simp] theorem State.afterOffset_len (s : State) (offset : BitVec 16) : (s.afterOffset offset).len = s.len := by
  simp [State.afterOffset, State.matchBegin, State.afterFlag]

/-! ### One instruction of a running engine -/

theorem State.Running.normal {s : State} (h : s.Running) : s.CursorNormal := h.1

theorem State.Running.cursor_le {s : State} (h : s.Running) : s.bitpos ≤ 8 * s.inLen := by
  obtain ⟨-, hcursor, -⟩ := h
  exact hcursor

theorem State.Running.pos_le_len {s : State} (h : s.Running) : s.pos ≤ s.len := by
  obtain ⟨-, -, -, -, -, hle, -⟩ := h
  exact hle

theorem State.Running.len_le_outCap {s : State} (h : s.Running) : s.len ≤ s.outCap := by
  obtain ⟨-, -, -, -, -, -, hcap⟩ := h
  exact hcap

/-- What an instruction of a running engine does to the state, whether it completes or is about to raise an error. -/
structure State.Advances (s t : State) : Prop where
  frame : t.frame = s.frame
  pos_ge : s.pos ≤ t.pos
  pos_le : t.pos ≤ t.len
  room : s.pos < t.pos → t.len ≤ s.outCap
  len_lt : s.len < 2 ^ s.params.lenW → t.len < 2 ^ s.params.lenW
  cursor : t.bitpos ≤ 8 * s.inLen
  outside : ∀ a, a < s.pos ∨ t.pos ≤ a → t.outMem.read a = s.outMem.read a
  wf : s.outMem.wf → t.outMem.wf

theorem State.Running.advances_afterHeader {s : State} (h : s.Running) (h0 : s.bitpos = 0) {len n : Nat}
    (hlen : len < 2 ^ (8 * s.params.hdrBytes)) (hbits : s.BytesThere n) : s.Advances (s.afterHeader len n) := by
  obtain ⟨-, -, -, -, hzero, -, -⟩ := h
  obtain ⟨-, hpos⟩ := hzero h0
  exact
    { frame := s.frame_afterHeader len n
      pos_ge := by rw [State.afterHeader_pos]
      pos_le := by rw [State.afterHeader_pos, hpos]; exact Nat.zero_le _
      room := by rw [State.afterHeader_pos]; omega
      len_lt := fun _ => by rw [State.afterHeader_len]; exact (Nat.mod_le _ _).trans_lt hlen
      cursor := by rw [State.bitpos_afterHeader]; rcases hbits with hn | hbits <;> omega
      outside := fun _ _ => by rw [State.afterHeader_outMem]
      wf := fun hwf => by rwa [State.afterHeader_outMem] }

theorem State.Running.advances_afterLiteral {s : State} (h : s.Running) {bs : List Byte}
    (hbs : s.pos + bs.length ≤ s.len) (hbits : s.bitpos + 1 + 8 * bs.length ≤ 8 * s.inLen) :
    s.Advances (s.litBegin.afterLiteral bs) := by
  have hcap := h.len_le_outCap
  have hpos : (s.litBegin.afterLiteral bs).pos = s.pos + bs.length := State.afterLiteral_pos _ _
  have hmem : (s.litBegin.afterLiteral bs).outMem = s.outMem.writeBytes s.pos bs := State.afterLiteral_outMem _ _
  have hlen : (s.litBegin.afterLiteral bs).len = s.len := State.afterLiteral_len _ _
  exact
    { frame := by rw [State.frame_afterLiteral, State.frame_litBegin]
      pos_ge := by omega
      pos_le := by omega
      room := fun _ => by omega
      len_lt := fun hlt => by rwa [hlen]
      cursor := by rwa [State.bitpos_afterLiteral, State.bitpos_litBegin]
      outside := fun a ha => by rw [hmem, Memory.read_writeBytes, if_neg (by omega)]
      wf := fun hwf => hmem ▸ Memory.writeBytes_wf hwf _ _ }

/-- As long as nothing is copied a match writes only its own registers. -/
theorem State.Running.advances_of_same {s t : State} (h : s.Running) (hframe : t.frame = s.frame)
    (hpos : t.pos = s.pos) (hlen : t.len = s.len) (hmem : t.outMem = s.outMem) (hbits : t.bitpos ≤ 8 * s.inLen) :
    s.Advances t := by
  have hle := h.pos_le_len
  have hcap := h.len_le_outCap
  exact
    { frame := hframe
      pos_ge := hpos.ge
      pos_le := by rwa [hpos, hlen]
      room := fun _ => by rwa [hlen]
      len_lt := fun hlt => by rwa [hlen]
      cursor := hbits
      outside := fun _ _ => by rw [hmem]
      wf := fun hwf => by rwa [hmem] }

theorem State.Running.advances_afterCopy {s : State} (h : s.Running) (offset : BitVec 16) (length : Byte)
    (hbits : s.bitpos + (9 + offWidth s.pos s.mws) ≤ 8 * s.inLen) : s.Advances (s.afterCopy offset length) := by
  exact
    { frame := s.frame_afterCopy offset length
      pos_ge := Nat.le_add_right _ _
      pos_le := pos_add_copyCount_le length h.pos_le_len le_rfl
      room := fun _ => h.len_le_outCap
      len_lt := id
      cursor := by rwa [State.bitpos_afterCopy]
      outside := fun a ha => Memory.read_copyUp_outside _ _ ha
      wf := fun hwf => Memory.copyUp_wf hwf _ _ _ }

/-- An instruction of a running engine has completed in `t`: there is room for `L`, and the cursor has moved. -/
structure State.Completes (s t : State) : Prop extends State.Advances s t where
  fits : t.len ≤ s.outCap
  normal : t.CursorNormal
  moves : 1 ≤ s.params.hdrBytes → s.bitpos + 8 ≤ t.bitpos

/-- A running engine executes its instruction to the end, or up to an error that it raises. -/
def State.Executes (s : State) (o : Answer) : Prop :=
  (∃ t, o = .next t ∧ s.Completes t) ∨ ∃ u t, o = .next t ∧ s.Advances u ∧ u.Raises t

theorem State.Running.execHdr {s : State} (h : s.Running) (h0 : s.bitpos = 0) {len : Nat}
    (hlen : len < 2 ^ (8 * s.params.hdrBytes)) : s.Executes (execHdr len s) := by
  rcases execHdr_cases len s with ⟨hbits, hcap, e⟩ | ⟨hbits, -, e⟩ | ⟨j, -, hbits, -, e⟩
  · refine .inl ⟨_, e, ⟨h.advances_afterHeader h0 hlen hbits, ?_, State.cursorNormal_afterHeader h.normal _ _, fun hn => ?_⟩⟩
    · rwa [State.afterHeader_len]
    · rw [State.bitpos_afterHeader]
      omega
  · exact .inr ⟨_, _, e, h.advances_afterHeader h0 hlen hbits, .inr (.inl rfl)⟩
  · exact .inr ⟨_, _, e, h.advances_afterHeader h0 hlen hbits, .inl rfl⟩

theorem State.Running.execLit {s : State} (h : s.Running) (hlt : s.pos < s.len) (hflag : s.bitpos + 1 ≤ 8 * s.inLen)
    (b0 b1 b2 : Byte) : s.Executes (execLit b0 b1 b2 s) := by
  have hcap := h.len_le_outCap
  have hroom := pos_add_litCount_le hlt.le le_rfl
  have hlength := litBytes_length b0 b1 b2 s.len s.pos
  obtain ⟨hk1, hk3⟩ := litCount_bounds hlt
  rcases execLit_cases b0 b1 b2 s with ⟨hcut, -⟩ | ⟨hbits, e⟩ | ⟨j, hj, hbits, -, e⟩ | ⟨hfull, -⟩
  · omega
  · refine .inl ⟨_, e, ⟨h.advances_afterLiteral ?_ ?_, ?_, State.cursorNormal_afterLiteral s.cursorNormal_litBegin _,
      fun _ => ?_⟩⟩
    · omega
    · omega
    · rw [State.afterLiteral_len]
      exact hcap
    · rw [State.bitpos_afterLiteral, State.bitpos_litBegin]
      omega
  · have hj' : ([b0, b1, b2].take j).length = j := List.length_take_of_le (hj.le.trans hk3)
    exact .inr ⟨_, _, e, h.advances_afterLiteral (by omega) (by omega), .inl rfl⟩
  · omega

theorem State.Running.execMatch {s : State} (h : s.Running) (hflag : s.bitpos + 1 ≤ 8 * s.inLen) (offset : BitVec 16)
    (length : Byte) : s.Executes (execMatch offset length s) := by
  have hle := h.pos_le_len
  have hcap := h.len_le_outCap
  have hroom := pos_add_copyCount_le length hle hcap
  rcases execMatch_cases offset length s with
    ⟨hcut, -⟩ | ⟨-, -, e⟩ | ⟨hbits, -, e⟩ | ⟨hbits, -, e⟩ | ⟨hbits, -, e⟩ | ⟨-, -, -, hfull, -⟩
  · omega
  · exact .inr ⟨_, _, e, h.advances_of_same s.frame_matchBegin rfl rfl rfl (by rwa [State.bitpos_matchBegin]), .inl rfl⟩
  · refine .inr ⟨_, _, e, h.advances_of_same (s.frame_afterOffset offset) (s.afterOffset_pos offset)
      (s.afterOffset_len offset) (s.afterOffset_outMem offset) ?_, .inl rfl⟩
    rw [State.bitpos_afterOffset]
    omega
  · refine .inr ⟨_, _, e, h.advances_of_same (s.frame_afterMatch offset length) rfl rfl rfl ?_, .inr (.inr rfl)⟩
    rwa [State.bitpos_afterMatch]
  · refine .inl ⟨_, e, ⟨h.advances_afterCopy offset length hbits, hcap,
      s.cursorNormal_setBitpos (s.bitpos + (9 + offWidth s.pos s.mws)), fun _ => ?_⟩⟩
    rw [State.bitpos_afterCopy]
    omega
  · omega

/-- Everything a step of a running engine can do: it ends the run, or executes an instruction, or finds a flag cut off. -/
theorem State.Running.busyStep {s : State} (h : s.Running) :
    (s.bitpos ≠ 0 ∧ s.pos = s.len ∧ busyStep s = .next (complete s)) ∨ s.Executes (busyStep s) := by
  by_cases h0 : s.bitpos = 0
  · obtain ⟨len, rest, hfetch, hlen⟩ := State.fetch_at_header h0
    rw [busyStep_header h0, runFetched_of_fetch hfetch]
    exact .inr (h.execHdr h0 hlen)
  by_cases hlt : s.pos < s.len
  · by_cases hflag : s.bitpos + 1 ≤ 8 * s.inLen
    · obtain ⟨i, rest, hfetch, hi⟩ := State.fetch_at_token h0
      rw [busyStep_token h0 hlt hflag, runFetched_of_fetch hfetch]
      rcases hi with ⟨b0, b1, b2, rfl⟩ | ⟨offset, length, rfl⟩
      · exact .inr (h.execLit hlt hflag b0 b1 b2)
      · exact .inr (h.execMatch hflag offset length)
    · refine .inr (.inr ⟨s, _, busyStep_flag_cut (by omega) h0 hlt, ?_, .inl rfl⟩)
      exact h.advances_of_same rfl rfl rfl rfl h.cursor_le
  · have hle := h.pos_le_len
    exact .inl ⟨h0, by omega, busyStep_done h0 (by omega)⟩

/-- A state after an error has the position and the bytes of the state that raised it. -/
theorem State.Raises.output {s t : State} (h : s.Raises t) : t.pos = s.pos ∧ t.len = s.len ∧ t.outMem = s.outMem := by
  rcases h with rfl | rfl | rfl <;> exact ⟨rfl, rfl, rfl⟩

/-- Settles O32: an instruction writes from the old `POS` up to the new one, an error and `DONE` write nothing. -/
theorem outWritesBounded : Obligations.OutWritesBounded := by
  unfold Obligations.OutWritesBounded
  intro s t hbusy hrun hstep
  rw [engineStep_busy hbusy] at hstep
  rcases hrun.busyStep with ⟨-, hpos, e⟩ | ⟨u, e, hdone⟩ | ⟨u, v, e, hadv, hraise⟩ <;>
    obtain rfl := Host.Outcome.next.inj (e.symm.trans hstep)
  · exact ⟨le_rfl, hpos.le, fun hlt => absurd hlt (lt_irrefl _), fun _ _ => rfl⟩
  · exact ⟨hdone.pos_ge, hdone.pos_le, hdone.room, hdone.outside⟩
  · obtain ⟨hpos, hlen, hmem⟩ := hraise.output
    rw [hpos, hlen, hmem]
    exact ⟨hadv.pos_ge, hadv.pos_le, hadv.room, hadv.outside⟩

/-! ### The record of lost bytes -/

/-- Ranges that are not empty and whose free values are among the first `n`. -/
def RangesSound (n : Nat) (rs : List LostRange) : Prop := ∀ r ∈ rs, r.lo < r.hi ∧ r.key + r.hi ≤ n

theorem RangesSound.mono {n m : Nat} {rs : List LostRange} (h : RangesSound n rs) (hnm : n ≤ m) : RangesSound m rs :=
  fun r hr => ⟨(h r hr).1, (h r hr).2.trans hnm⟩

theorem RangesSound.append {n : Nat} {rs qs : List LostRange} (hr : RangesSound n rs) (hq : RangesSound n qs) :
    RangesSound n (rs ++ qs) := fun r hmem =>
  (List.mem_append.mp hmem).elim (hr r) (hq r)

theorem RangesSound.flatMap {n : Nat} {rs : List LostRange} {f : LostRange → List LostRange}
    (h : ∀ r ∈ rs, RangesSound n (f r)) : RangesSound n (rs.flatMap f) := fun q hq =>
  let ⟨r, hr, hmem⟩ := List.mem_flatMap.mp hq
  h r hr q hmem

/-- The part of a range from an index on has no new free values. -/
theorem LostRange.sound_from {n : Nat} {r : LostRange} (h : r.key + r.hi ≤ n) (x : Nat) : RangesSound n (r.from x) := by
  intro q hq
  rw [LostRange.from] at hq
  split at hq
  case isTrue hlt =>
    obtain rfl := List.mem_singleton.mp hq
    exact ⟨hlt, h⟩
  case isFalse => cases hq

theorem LostRange.sound_below {n : Nat} {r : LostRange} (h : r.key + r.hi ≤ n) (x : Nat) :
    RangesSound n (r.below x) := by
  intro q hq
  rw [LostRange.below] at hq
  split at hq
  case isTrue hlt =>
    obtain rfl := List.mem_singleton.mp hq
    exact ⟨hlt, (Nat.add_le_add_left (Nat.min_le_left _ _) _).trans h⟩
  case isFalse => cases hq

theorem RangesSound.recoverBelow {n : Nat} {rs : List LostRange} (h : RangesSound n rs) (x : Nat) :
    RangesSound n (recoverBelow x rs) :=
  .flatMap fun r hr => LostRange.sound_from (h r hr).2 x

theorem RangesSound.recoverAt {n : Nat} {rs : List LostRange} (h : RangesSound n rs) (x : Nat) :
    RangesSound n (recoverAt x rs) :=
  .flatMap fun r hr => (LostRange.sound_below (h r hr).2 x).append (LostRange.sound_from (h r hr).2 (x + 1))

/-! ### The invariant -/

/-- The part of the invariant that does not speak of `STATUS`. -/
abbrev State.Sound (s : State) : Prop :=
  s.params.Legal ∧ s.InWidths ∧ s.inMem.wf ∧ s.outMem.wf ∧ s.LostSound

theorem State.Inv.sound {s : State} (h : s.Inv) : s.Sound := by
  obtain ⟨hlegal, hwidths, hinMem, houtMem, hlost, -⟩ := h
  exact ⟨hlegal, hwidths, hinMem, houtMem, hlost⟩

theorem State.Inv.legal {s : State} (h : s.Inv) : s.params.Legal := h.1

theorem State.Inv.one_le_hdrBytes {s : State} (h : s.Inv) : 1 ≤ s.params.hdrBytes := h.legal.1

theorem State.Inv.running {s : State} (h : s.Inv) (hbusy : s.status = .busy) : s.Running := by
  obtain ⟨-, -, -, -, -, -, -, hrun, -⟩ := h
  exact hrun hbusy

/-- An instruction keeps the part that does not speak of `STATUS`. -/
theorem State.Advances.sound {s t : State} (h : s.Advances t) (hs : s.Sound) : t.Sound := by
  obtain ⟨hlegal, ⟨hin, hcap, -, hlen, -, hres, hver⟩, hinMem, houtMem, hlost⟩ := hs
  have hparams : t.params = s.params := (congrArg State.params h.frame :)
  have hinLen : t.inLen = s.inLen := (congrArg State.inLen h.frame :)
  have houtCap : t.outCap = s.outCap := (congrArg State.outCap h.frame :)
  have hfmtVer : t.fmtVer = s.fmtVer := (congrArg State.fmtVer h.frame :)
  have hresult : t.resultLen = s.resultLen := (congrArg State.resultLen h.frame :)
  have hmem : t.inMem = s.inMem := (congrArg State.inMem h.frame :)
  have houtLost : t.outLost = s.outLost := (congrArg State.outLost h.frame :)
  have hfree : t.freeCtr = s.freeCtr := (congrArg State.freeCtr h.frame :)
  have hbyte : t.byteIdx < 2 ^ s.params.addrW := (State.byteIdx_le h.cursor).trans_lt hin
  have hlen' := h.len_lt hlen
  rw [State.Sound, State.InWidths, State.LostSound, hparams, hinLen, houtCap, hfmtVer, hresult, hmem, houtLost, hfree]
  exact ⟨hlegal, ⟨hin, hcap, hbyte, hlen', h.pos_le.trans_lt hlen', hres, hver⟩, hinMem, h.wf houtMem, hlost⟩

/-- The invariant after an error (R222). -/
theorem raise_inv {e : ErrCode} {s : State} (he : e ≠ .none) (h : s.Sound) : (raise e s).Inv := by
  obtain ⟨hlegal, ⟨hin, hcap, hbyte, hlen, hpos, -, hver⟩, hinMem, houtMem, hlost⟩ := h
  refine ⟨hlegal, ⟨hin, hcap, hbyte, hlen, hpos, Nat.two_pow_pos _, hver⟩, hinMem, houtMem, ?_, ?_, fun _ => rfl, ?_, ?_⟩
  · have hnew : RangesSound (s.freeCtr + s.outCap)
        (LostRange.from s.pos { lo := 0, hi := s.outCap, key := s.freeCtr }) := LostRange.sound_from le_rfl _
    have hold := (RangesSound.recoverBelow hlost s.pos).mono (Nat.le_add_right s.freeCtr s.outCap)
    exact hnew.append hold
  · simp [he]
  · simp
  · simp

theorem State.Sound.loseCursor {s : State} (h : s.Sound) : s.loseCursor.Sound := by
  obtain ⟨hlegal, ⟨hin, hcap, -, hrest⟩, hinMem, houtMem, hlost⟩ := h
  exact ⟨hlegal, ⟨hin, hcap, (s.fresh s.params.addrW 0).isLt, hrest⟩, hinMem, houtMem,
    RangesSound.mono hlost (Nat.le_add_right s.freeCtr 5)⟩

theorem State.Raises.inv {s t : State} (h : s.Raises t) (hs : s.Sound) : t.Inv := by
  rcases h with rfl | rfl | rfl
  · exact raise_inv (by decide) hs.loseCursor
  · exact raise_inv (by decide) hs
  · exact raise_inv (by decide) hs

/-- A completed instruction leaves the engine running (R44). -/
theorem State.Completes.running {s t : State} (h : s.Completes t) (hs : s.Running) (hlegal : s.params.Legal) :
    t.Running := by
  obtain ⟨-, -, hver, hmws, -, -, -⟩ := hs
  have hinLen : t.inLen = s.inLen := (congrArg State.inLen h.frame :)
  have houtCap : t.outCap = s.outCap := (congrArg State.outCap h.frame :)
  have hfmtVer : t.fmtVer = s.fmtVer := (congrArg State.fmtVer h.frame :)
  have hmws' : t.mws = s.mws := (congrArg State.mws h.frame :)
  have hmoves := h.moves hlegal.1
  rw [State.Running, hinLen, houtCap, hfmtVer, hmws']
  exact ⟨h.normal, h.cursor, hver, hmws, by omega, h.pos_le, h.fits⟩

theorem State.Completes.inv {s t : State} (h : s.Completes t) (hbusy : s.status = .busy) (hs : s.Inv) : t.Inv := by
  obtain ⟨hlegal, hwidths, hinMem, houtMem, hlost⟩ := h.toAdvances.sound hs.sound
  have hrun := h.running (hs.running hbusy) hs.legal
  obtain ⟨-, -, -, -, -, herr, hres, -, -⟩ := hs
  have hstatus : t.status = s.status := (congrArg State.status h.frame :)
  have herrCode : t.errCode = s.errCode := (congrArg State.errCode h.frame :)
  have hresult : t.resultLen = s.resultLen := (congrArg State.resultLen h.frame :)
  refine ⟨hlegal, hwidths, hinMem, houtMem, hlost, ?_, ?_, fun _ => hrun, fun hdone => ?_⟩
  · rwa [hstatus, herrCode]
  · rwa [hstatus, hresult]
  · rw [hstatus, hbusy] at hdone
    cases hdone

theorem complete_inv {s : State} (hbusy : s.status = .busy) (hdone : s.pos = s.len) (h : s.Inv) : (complete s).Inv := by
  have hrun := h.running hbusy
  obtain ⟨hlegal, ⟨hin, hcap, hbyte, hlen, hpos, -, hver⟩, hinMem, houtMem, hlost, herr, -, -, -⟩ := h
  have hnone : s.errCode = .none := herr.mpr (by rw [hbusy]; simp)
  exact ⟨hlegal, ⟨hin, hcap, hbyte, hlen, hpos, hpos, hver⟩, hinMem, houtMem, RangesSound.recoverBelow hlost s.pos,
    by simp [hnone], by simp, by simp, fun _ => ⟨hrun.normal, hdone, hdone⟩⟩

/-- The engine keeps the invariant. -/
theorem engineStep_inv {s t : State} (h : s.Inv) (hstep : engineStep s = .next t) : t.Inv := by
  by_cases hbusy : s.status = .busy
  · rw [engineStep_busy hbusy] at hstep
    rcases (h.running hbusy).busyStep with ⟨-, hdone, e⟩ | ⟨u, e, hcomp⟩ | ⟨u, v, e, hadv, hraise⟩ <;>
      obtain rfl := Host.Outcome.next.inj (e.symm.trans hstep)
    · exact complete_inv hbusy hdone h
    · exact hcomp.inv hbusy h
    · exact hraise.inv (hadv.sound h.sound)
  · exact Host.Outcome.next.inj ((engineStep_waits hbusy).symm.trans hstep) ▸ h

/-- The invariant of an engine that is not `BUSY` does not depend on the configuration beyond its widths. -/
theorem State.Inv.start {s : State} (h : s.Inv) : (start s).Inv := by
  obtain ⟨hlegal, ⟨hin, hcap, -, -, -, -, hver⟩, hinMem, houtMem, hlost, -, -, -, -⟩ := h
  have hlost' : RangesSound (s.freeCtr + 8) s.outLost := RangesSound.mono hlost (Nat.le_add_right _ _)
  have hzero : ∀ w, 0 < 2 ^ w := Nat.two_pow_pos
  rw [Machine.start]
  split
  case isTrue =>
    exact raise_inv (by decide) ⟨hlegal, ⟨hin, hcap, hzero _, hzero _, hzero _, hzero _, hver⟩, hinMem, houtMem, hlost'⟩
  case isFalse hnonneg =>
    refine ⟨hlegal, ⟨hin, hcap, hzero _, hzero _, hzero _, hzero _, hver⟩, hinMem, houtMem, hlost', ?_, fun _ => rfl,
      fun _ => ⟨s.loseToken.cursorNormal_setBitpos 0, ?_, not_lt.mp hnonneg, rfl, fun _ => ⟨rfl, rfl⟩, le_rfl,
        Nat.zero_le _⟩, ?_⟩
    · simp
    · exact (s.loseToken.bitpos_setBitpos 0).le.trans (Nat.zero_le _)
    · simp

theorem hardwareReset_outLost_sound {s : State} (h : s.LostSound) : (hardwareReset s).LostSound := by
  by_cases hbusy : s.status = .busy
  · rw [hardwareReset_busy hbusy]
    exact (RangesSound.recoverBelow h s.outCap).mono (show s.freeCtr ≤ s.freeCtr + s.outCap + 8 + 8 by omega)
  · rw [hardwareReset_idle hbusy]
    exact RangesSound.mono h (show s.freeCtr ≤ s.freeCtr + 8 + 8 by omega)

/-- After a reset every register is a value of its width. -/
theorem hardwareReset_inWidths (s : State) : (hardwareReset s).InWidths := by
  have hver : ∀ {w : Nat} (v : BitVec w), -(2 ^ (w - 1) : Int) ≤ v.toInt ∧ v.toInt < 2 ^ (w - 1) :=
    fun v => ⟨v.le_toInt, v.toInt_lt⟩
  by_cases hbusy : s.status = .busy
  · rw [hardwareReset_busy hbusy]
    exact ⟨BitVec.isLt _, BitVec.isLt _, BitVec.isLt _, BitVec.isLt _, BitVec.isLt _, Nat.two_pow_pos _, hver _⟩
  · rw [hardwareReset_idle hbusy]
    exact ⟨BitVec.isLt _, BitVec.isLt _, BitVec.isLt _, BitVec.isLt _, BitVec.isLt _, Nat.two_pow_pos _, hver _⟩

theorem State.Inv.hardwareReset {s : State} (h : s.Inv) : (hardwareReset s).Inv := by
  obtain ⟨hlegal, -, hinMem, houtMem, hlost, -, -, -, -⟩ := h
  refine ⟨?_, hardwareReset_inWidths s, ?_, ?_, hardwareReset_outLost_sound hlost, by simp, fun _ => rfl, by simp, by simp⟩
  · rwa [hardwareReset_params]
  · rwa [hardwareReset_inMem]
  · rw [hardwareReset_outMem]
    split
    · exact Memory.lose_wf houtMem _ _
    · exact houtMem

/-- The host keeps the invariant: its writes come only while the engine is not `BUSY`. -/
theorem HostMove.inv {s t : State} {a : HostAction} (h : s.Inv) (hmove : HostMove s a t) : t.Inv := by
  have hwhole := h
  obtain ⟨hlegal, ⟨hin, hcap, hbyte, hlen, hpos, hres, hver⟩, hinMem, houtMem, hlost, herr, hresult, hrun, hfin⟩ := h
  cases hmove with
  | pass hengine => exact engineStep_inv hwhole hengine
  | writeInLen hidle hn =>
    exact ⟨hlegal, ⟨hn, hcap, hbyte, hlen, hpos, hres, hver⟩, hinMem, houtMem, hlost, herr, hresult,
      fun hbusy => absurd hbusy hidle, hfin⟩
  | writeOutCap hidle hn =>
    exact ⟨hlegal, ⟨hin, hn, hbyte, hlen, hpos, hres, hver⟩, hinMem, houtMem, hlost, herr, hresult,
      fun hbusy => absurd hbusy hidle, hfin⟩
  | writeFmtVer hidle hv =>
    exact ⟨hlegal, ⟨hin, hcap, hbyte, hlen, hpos, hres, hv⟩, hinMem, houtMem, hlost, herr, hresult,
      fun hbusy => absurd hbusy hidle, hfin⟩
  | writeIn hidle =>
    exact ⟨hlegal, ⟨hin, hcap, hbyte, hlen, hpos, hres, hver⟩, Memory.write_wf hinMem _ _, houtMem, hlost, herr, hresult,
      fun hbusy => absurd hbusy hidle, hfin⟩
  | writeOut hidle =>
    exact ⟨hlegal, ⟨hin, hcap, hbyte, hlen, hpos, hres, hver⟩, hinMem, Memory.write_wf houtMem _ _,
      RangesSound.recoverAt hlost _, herr, hresult, fun hbusy => absurd hbusy hidle, hfin⟩
  | readStatus | readErrCode | readResultLen | readOut =>
    exact ⟨hlegal, ⟨hin, hcap, hbyte, hlen, hpos, hres, hver⟩, hinMem, houtMem, hlost, herr, hresult, hrun, hfin⟩
  | start => exact hwhole.start
  | reset => exact hwhole.hardwareReset

/-- The invariant does not speak of the host's pending actions. -/
theorem State.Inv.withQueue {s : State} (h : s.Inv) (q : List HostAction) : { s with hostQueue := q }.Inv := h

/-- Settles O52: the engine keeps the invariant, and so does each action of the host. -/
theorem stepKeepsInvariant : Obligations.StepKeepsInvariant := by
  unfold Obligations.StepKeepsInvariant
  intro s t h hstep
  rcases step_next hstep with ⟨-, hengine⟩ | ⟨a, q, -, hmove⟩
  · exact engineStep_inv h hengine
  · exact hmove.inv (h.withQueue q)

/-- Settles O51: at reset all registers are 0 and both memories are empty. -/
theorem resetHasInvariant : Obligations.ResetHasInvariant := by
  unfold Obligations.ResetHasInvariant
  intro p hlegal
  have hzero : ∀ w, 0 < 2 ^ w := Nat.two_pow_pos
  have hver : (0 : Int) < 2 ^ (p.verW - 1) := by positivity
  refine ⟨⟨hlegal, ⟨hzero _, hzero _, hzero _, hzero _, hzero _, hzero _, ?_, hver⟩, ⟨.nil, by simp [State.resetWith]⟩,
    ⟨.nil, by simp [State.resetWith]⟩, fun _ hr => absurd hr List.not_mem_nil, by simp [State.resetWith], fun _ => rfl,
    by simp [State.resetWith], by simp [State.resetWith]⟩, rfl, rfl, rfl⟩
  exact neg_nonpos.mpr hver.le

/-! ### Safety and termination -/

/-- From the invariant the engine always has a next state. -/
theorem engineStep_exists {s : State} (h : s.Inv) : ∃ t, engineStep s = .next t := by
  by_cases hbusy : s.status = .busy
  · rw [engineStep_busy hbusy]
    rcases (h.running hbusy).busyStep with ⟨-, -, e⟩ | ⟨t, e, -⟩ | ⟨-, t, e, -, -⟩ <;> exact ⟨_, e⟩
  · exact ⟨s, engineStep_waits hbusy⟩

/-- No action of the host ends in a fault of the model: all but `pass` answer a next state or are refused. -/
theorem hostStep_ne_fault {a : HostAction} {s : State} (h : s.Inv) (f : Fault) : hostStep a s ≠ .fault f := by
  have hwrite : ∀ fits t, hostWrite fits s t ≠ .fault f := fun fits t => by
    rw [hostWrite]
    split
    · simp
    · split <;> simp
  cases a with
  | pass =>
    obtain ⟨t, e⟩ := engineStep_exists h
    rw [hostStep, e]
    simp
  | writeInLen | writeOutCap | writeFmtVer | writeIn | writeOut => exact hwrite _ _
  | readStatus | readErrCode | readResultLen | reset => simp [hostStep]
  | readOut x =>
    rw [hostStep, hostReadOut]
    split
    · simp
    · split <;> simp
  | start =>
    rw [hostStep, hostStart]
    split
    · simp
    · split <;> simp

/-- Settles O53: the running engine answers with a next state, and no host action faults. -/
theorem engineNeverStops : Obligations.EngineNeverStops := by
  unfold Obligations.EngineNeverStops
  intro s h
  refine ⟨fun f hfault => ?_, fun hqueue => step_engine hqueue ▸ engineStep_exists h⟩
  cases hq : s.hostQueue with
  | nil =>
    obtain ⟨t, e⟩ := engineStep_exists h
    rw [step_engine hq, e] at hfault
    cases hfault
  | cons a q =>
    rw [step_host hq] at hfault
    exact hostStep_ne_fault (h.withQueue q) f hfault

/-- A run with its first step apart, of any machine. -/
theorem coreRun_succ (M : Host.Core) {s t : M.State} (h : M.step s = .next t) (n : Nat) :
    M.run (n + 1) s = M.run n t := by
  rw [Host.Core.run, h]

/-- A run of the machine with its first step apart. -/
theorem run_succ {s t : State} (h : step s = .next t) (n : Nat) :
    Host.Core.run core (n + 1) s = Host.Core.run core n t := coreRun_succ core h n

/-- A run ends within one step for every eight unread bits and one more: each instruction takes at least eight. -/
theorem run_ends {m : Nat} {s : State} (h : s.Inv) (hqueue : s.hostQueue = []) (hm : (8 * s.inLen - s.bitpos) / 8 ≤ m) :
    ∃ n t, n ≤ m + 1 ∧ Host.Core.run core n s = .next t ∧ t.status ≠ .busy := by
  induction m generalizing s with
  | zero =>
    by_cases hbusy : s.status = .busy
    · have hstep := step_eq_busyStep hqueue hbusy
      rcases (h.running hbusy).busyStep with ⟨-, -, e⟩ | ⟨t, e, hcomp⟩ | ⟨u, t, e, -, hraise⟩
      · exact ⟨1, _, le_rfl, run_succ (hstep.trans e) 0, by simp⟩
      · have hmoves := hcomp.moves h.one_le_hdrBytes
        have hcursor := hcomp.cursor
        omega
      · exact ⟨1, t, le_rfl, run_succ (hstep.trans e) 0, by rw [hraise.status]; simp⟩
    · exact ⟨0, s, by omega, rfl, hbusy⟩
  | succ m ih =>
    by_cases hbusy : s.status = .busy
    · have hstep := step_eq_busyStep hqueue hbusy
      rcases (h.running hbusy).busyStep with ⟨-, -, e⟩ | ⟨t, e, hcomp⟩ | ⟨u, t, e, -, hraise⟩
      · exact ⟨1, _, by omega, run_succ (hstep.trans e) 0, by simp⟩
      · have hmoves := hcomp.moves h.one_le_hdrBytes
        have hinLen : t.inLen = s.inLen := (congrArg State.inLen hcomp.frame :)
        have hqueue' : t.hostQueue = [] := (congrArg State.hostQueue hcomp.frame :).trans hqueue
        obtain ⟨n, v, hn, hrun, hend⟩ := ih (hcomp.inv hbusy h) hqueue' (by omega)
        exact ⟨n + 1, v, by omega, (run_succ (hstep.trans e) n).trans hrun, hend⟩
      · exact ⟨1, t, by omega, run_succ (hstep.trans e) 0, by rw [hraise.status]; simp⟩
    · exact ⟨0, s, by omega, rfl, hbusy⟩

/-- Settles O54. -/
theorem runEnds : Obligations.RunEnds := by
  unfold Obligations.RunEnds
  exact fun s h hqueue => run_ends h hqueue le_rfl

end Sys2Proof.Machine
end

section
/-! SUPPORT. Two engines side by side: states that differ in `IN` beyond the stream's end, or in `OUT` where the run has not
written, take the same step (20_memory.md R60, R70, 45_orchestrator.md R199). -/

namespace Sys2Proof.Machine

/-! ### Related answers -/

/-- Two answers of one kind whose next states are related. -/
inductive AnswerRel (R : State → State → Prop) : Answer → Answer → Prop where
  | next {s t : State} (h : R s t) : AnswerRel R (.next s) (.next t)
  | fault (r : Fault) : AnswerRel R (.fault r) (.fault r)
  | refused (r : Refusal) : AnswerRel R (.refused r) (.refused r)

/-- Two instructions in the middle of their execution that go on, or have their answers, in related states. -/
inductive FlowRel (R : State → State → Prop) : Flow → Flow → Prop where
  | go {s t : State} (h : R s t) : FlowRel R (.go s) (.go t)
  | stop {o o' : Answer} (h : AnswerRel R o o') : FlowRel R (.stop o) (.stop o')

theorem FlowRel.andThen {R : State → State → Prop} {f f' : Flow} {g g' : State → Flow} (hf : FlowRel R f f')
    (hg : ∀ s t, R s t → FlowRel R (g s) (g' t)) : FlowRel R (f.andThen g) (f'.andThen g') := by
  cases hf with
  | go h => exact hg _ _ h
  | stop h => exact .stop h

theorem FlowRel.finish {R : State → State → Prop} {f f' : Flow} (hf : FlowRel R f f') :
    AnswerRel R f.finish f'.finish := by
  cases hf with
  | go h => exact .next h
  | stop h => exact h

/-! ### States that differ in their memories -/

/-- Relations between two contents of `OUT`, given `POS`, that a run keeps: they agree below `POS`, and a write of one byte
at `POS` in both keeps them. -/
structure OutRel (Q : Nat → Memory → Memory → Prop) : Prop where
  read : ∀ {p m n a}, Q p m n → a < p → n.read a = m.read a
  write : ∀ {p m n} (b : Byte), Q p m n → Q (p + 1) (m.write p b) (n.write p b)

/-- The state `t` is `s` but for another `IN` and a related `OUT`. -/
def State.Alike (i : Memory) (Q : Nat → Memory → Memory → Prop) (s t : State) : Prop :=
  ∃ o, t = { s with inMem := i, outMem := o } ∧ Q s.pos s.outMem o

section
variable {i : Memory} {Q : Nat → Memory → Memory → Prop} {s t : State}

theorem readField_alike (n v : Nat) (h : s.Alike i Q t) : FlowRel (State.Alike i Q) (readField n v s) (readField n v t) := by
  obtain ⟨o, rfl, hq⟩ := h
  rcases readField_spec n v s with ⟨hbits, e⟩ | ⟨hcut, e⟩
  · rw [e, readField_enough (s := { s with inMem := i, outMem := o }) hbits]
    exact .go ⟨o, rfl, hq⟩
  · rw [e, readField_short (s := { s with inMem := i, outMem := o }) hcut]
    exact .stop (.next ⟨o, rfl, hq⟩)

theorem readFlag_alike (f : BitVec 1) (h : s.Alike i Q t) :
    FlowRel (State.Alike i Q) (readFlag f s) (readFlag f t) := by
  refine (readField_alike flagBits f.toNat h).andThen ?_
  rintro s _ ⟨o, rfl, hq⟩
  exact .go ⟨o, rfl, hq⟩

theorem emitByte_alike (hQ : OutRel Q) (b : Byte) (h : s.Alike i Q t) :
    FlowRel (State.Alike i Q) (emitByte b s) (emitByte b t) := by
  obtain ⟨o, rfl, hq⟩ := h
  by_cases hcap : s.pos < s.outCap
  · rw [emitByte, emitByte, if_pos hcap, if_pos hcap]
    exact .go ⟨_, rfl, hQ.write b hq⟩
  · rw [emitByte, emitByte, if_neg hcap, if_neg hcap]
    exact .stop (.fault _)

theorem headerBytes_alike (len n j : Nat) (h : s.Alike i Q t) :
    FlowRel (State.Alike i Q) (headerBytes len n j s) (headerBytes len n j t) := by
  induction n generalizing j s t with
  | zero => exact .go h
  | succ n ih =>
    refine (readField_alike byteBits (headerByte len j) h).andThen ?_
    rintro s _ ⟨o, rfl, hq⟩
    exact ih (j + 1) ⟨o, rfl, hq⟩

theorem literalBytes_alike (hQ : OutRel Q) (bs : List Byte) (h : s.Alike i Q t) :
    FlowRel (State.Alike i Q) (literalBytes bs s) (literalBytes bs t) := by
  induction bs generalizing s t with
  | nil => exact .go h
  | cons b bs ih =>
    exact ((readField_alike byteBits b.toNat h).andThen fun _ _ => emitByte_alike hQ b).andThen fun _ _ => ih

/-- The copy of one byte reads below `POS` only, if the offset is legal. -/
theorem copyByte_alike (hQ : OutRel Q) (hlegal : offsetLegal s.offset s.pos = true) (h : s.Alike i Q t) :
    FlowRel (State.Alike i Q) (copyByte s) (copyByte t) := by
  obtain ⟨o, rfl, hq⟩ := h
  obtain ⟨h1, hle⟩ := offsetLegal_iff.mp hlegal
  by_cases hcap : s.pos - s.offset.toNat < s.outCap
  · rw [copyByte, copyByte, if_pos hcap, if_pos hcap]
    change FlowRel _ _ (emitByte (o.read (s.pos - s.offset.toNat)) _)
    rw [hQ.read hq (by omega)]
    exact emitByte_alike hQ _ ⟨o, rfl, hq⟩
  · rw [copyByte, copyByte, if_neg hcap, if_neg hcap]
    exact .stop (.fault _)

/-- A copy that goes on has advanced `POS` and kept the offset, so the offset stays legal. -/
theorem offsetLegal_after_copyByte (hlegal : offsetLegal s.offset s.pos = true) {u : State} (h : copyByte s = .go u) :
    offsetLegal u.offset u.pos = true := by
  obtain ⟨h1, hle⟩ := offsetLegal_iff.mp hlegal
  rcases copyByte_spec s with ⟨-, m, e⟩ | ⟨-, r, e⟩
  · obtain rfl := Flow.go.inj (e.symm.trans h)
    exact offsetLegal_iff.mpr ⟨h1, Nat.le_succ_of_le hle⟩
  · cases e.symm.trans h

theorem copyBytes_alike (hQ : OutRel Q) (n : Nat) (hlegal : offsetLegal s.offset s.pos = true) (h : s.Alike i Q t) :
    FlowRel (State.Alike i Q) (copyBytes n s) (copyBytes n t) := by
  induction n generalizing s t with
  | zero => exact .go h
  | succ n ih =>
    have hbyte := copyByte_alike hQ hlegal h
    rw [copyBytes, copyBytes]
    generalize copyByte t = f at hbyte ⊢
    cases hs : copyByte s with
    | go u =>
      rw [hs] at hbyte
      cases hbyte with
      | go h' => exact ih (offsetLegal_after_copyByte hlegal hs) h'
    | stop o =>
      rw [hs] at hbyte
      cases hbyte with
      | stop h' => exact .stop h'

theorem matchFields_alike (offset : BitVec 16) (length : Byte) (h : s.Alike i Q t) :
    FlowRel (State.Alike i Q) (matchFields offset length s) (matchFields offset length t) := by
  obtain ⟨o, rfl, hq⟩ := h
  refine (readField_alike (s := { s with offw := BitVec.ofNat 5 (offWidth s.pos s.mws) }) _ _ ⟨o, rfl, hq⟩).andThen ?_
  rintro u _ ⟨o, rfl, hq⟩
  refine (readField_alike (s := { u with offset := offset }) _ _ ⟨o, rfl, hq⟩).andThen ?_
  rintro u _ ⟨o, rfl, hq⟩
  exact .go ⟨o, rfl, hq⟩

theorem matchCopy_alike (hQ : OutRel Q) (h : s.Alike i Q t) :
    FlowRel (State.Alike i Q) (matchCopy s) (matchCopy t) := by
  obtain ⟨o, rfl, hq⟩ := h
  cases hlegal : offsetLegal s.offset s.pos with
  | true =>
    rw [matchCopy, matchCopy, if_pos hlegal, if_pos hlegal]
    exact copyBytes_alike hQ _ hlegal ⟨o, rfl, hq⟩
  | false =>
    have hbad := ne_true_of_eq_false hlegal
    rw [matchCopy, matchCopy, if_neg hbad, if_neg hbad]
    exact .stop (.next ⟨o, rfl, hq⟩)

/-- One instruction in two states that differ in their memories. -/
theorem exec_alike (hQ : OutRel Q) (ins : Instr) (h : s.Alike i Q t) :
    AnswerRel (State.Alike i Q) (exec ins s) (exec ins t) := by
  cases ins with
  | hdr len =>
    obtain ⟨o, rfl, hq⟩ := h
    have hbytes := headerBytes_alike (i := i) (Q := Q) (s := { s with len := 0 }) len s.params.hdrBytes 0 ⟨o, rfl, hq⟩
    refine (hbytes.andThen ?_).finish
    rintro u _ ⟨o, rfl, hq⟩
    by_cases hcap : u.outCap < u.len
    · rw [if_pos hcap, if_pos hcap]
      exact .stop (.next ⟨o, rfl, hq⟩)
    · rw [if_neg hcap, if_neg hcap]
      exact .go ⟨o, rfl, hq⟩
  | lit b0 b1 b2 =>
    refine ((readFlag_alike 0#1 h).andThen ?_).finish
    rintro u _ ⟨o, rfl, hq⟩
    exact literalBytes_alike hQ _ ⟨o, rfl, hq⟩
  | matchTok offset length =>
    exact (((readFlag_alike 1#1 h).andThen fun _ _ => matchFields_alike offset length).andThen fun _ _ =>
      matchCopy_alike hQ).finish

/-- Bytes of `IN` below `IN_LEN` are all the fetch sees (R60). -/
theorem State.fetch_alike (hin : ∀ a, a < s.inLen → i.read a = s.inMem.read a) (h : s.Alike i Q t) :
    t.fetch = s.fetch := by
  obtain ⟨o, rfl, -⟩ := h
  have hbit : ∀ k, State.fetchBit { s with inMem := i, outMem := o } k = s.fetchBit k := fun k => by
    by_cases hk : k / 8 < s.inLen
    · have hread : i.read (k / 8) = s.inMem.read (k / 8) := hin _ hk
      simp only [State.fetchBit, State.streamBit, hread]
    · simp only [State.fetchBit, if_neg hk]
  have hbits : ∀ n, State.fetchBits { s with inMem := i, outMem := o } n = s.fetchBits n := fun n =>
    List.map_congr_left fun j _ => hbit _
  exact congrArg (decode s.shape) (hbits _)

/-- The engine's step in two states that differ in `IN` beyond the stream and in `OUT` where the relation allows it. -/
theorem engineStep_alike (hQ : OutRel Q) (hin : ∀ a, a < s.inLen → i.read a = s.inMem.read a) (h : s.Alike i Q t) :
    AnswerRel (State.Alike i Q) (engineStep s) (engineStep t) := by
  have hfetch := State.fetch_alike hin h
  obtain ⟨ins, rest, hins⟩ := s.fetch_ok
  have hrun : AnswerRel (State.Alike i Q) (runFetched s) (runFetched t) := by
    rw [runFetched_of_fetch hins, runFetched_of_fetch (hfetch.trans hins)]
    exact exec_alike hQ ins h
  obtain ⟨o, rfl, hq⟩ := h
  by_cases hbusy : s.status = .busy
  · rw [engineStep_busy hbusy, engineStep_busy (s := { s with inMem := i, outMem := o }) hbusy]
    by_cases h0 : s.bitpos = 0
    · rwa [busyStep_header h0, busyStep_header (s := { s with inMem := i, outMem := o }) h0]
    by_cases hlt : s.pos < s.len
    · by_cases hflag : s.bitpos + 1 ≤ 8 * s.inLen
      · rwa [busyStep_token h0 hlt hflag, busyStep_token (s := { s with inMem := i, outMem := o }) h0 hlt hflag]
      · rw [busyStep_flag_cut (by omega) h0 hlt,
          busyStep_flag_cut (s := { s with inMem := i, outMem := o }) (not_le.mp hflag) h0 hlt]
        exact .next ⟨o, rfl, hq⟩
    · rw [busyStep_done h0 (by omega), busyStep_done (s := { s with inMem := i, outMem := o }) h0 (not_lt.mp hlt)]
      exact .next ⟨o, rfl, hq⟩
  · rw [engineStep_waits hbusy, engineStep_waits (s := { s with inMem := i, outMem := o }) hbusy]
    exact .next ⟨o, rfl, hq⟩

end

/-! ### The obligations -/

theorem outRel_eq : OutRel fun _ m n => m = n :=
  { read := fun h _ => by rw [h]
    write := fun b h => by rw [h] }

/-- Contents of `OUT` that agree below `POS`. -/
theorem outRel_below : OutRel fun p m n => ∀ a, a < p → m.read a = n.read a :=
  { read := fun h ha => (h _ ha).symm
    write := fun b h a ha => by
      rw [Memory.read_write, Memory.read_write]
      split
      case isTrue => rfl
      case isFalse hne => exact h a (by omega) }

/-- Settles O33: the fetch and every instruction are the same with another `IN` beyond the stream. -/
theorem streamEndsAtItsLength : Obligations.StreamEndsAtItsLength := by
  unfold Obligations.StreamEndsAtItsLength
  intro s m hm
  have hrel := engineStep_alike outRel_eq hm (t := { s with inMem := m }) ⟨s.outMem, rfl, rfl⟩
  generalize engineStep s = a, engineStep { s with inMem := m } = b at hrel ⊢
  cases hrel with
  | next h =>
    obtain ⟨o, rfl, rfl⟩ := h
    rfl
  | fault r => rfl
  | refused r => rfl

/-- Settles O55: a run reads `OUT` below its `POS` only. -/
theorem oldOutputHasNoInfluence : Obligations.OldOutputHasNoInfluence := by
  unfold Obligations.OldOutputHasNoInfluence
  intro s t s' _ _ hsame hstep
  obtain ⟨ht, hbelow⟩ := hsame
  have hrel := engineStep_alike (s := s) (t := t) (i := s.inMem) outRel_below (fun _ _ => rfl) ⟨t.outMem, ht, hbelow⟩
  rw [hstep] at hrel
  obtain ⟨-, -, -, -, hin, -, -⟩ := engineNeverWritesInputs s s' hstep
  generalize engineStep t = b at hrel ⊢
  cases hrel with
  | next h =>
    obtain ⟨o, rfl, hq⟩ := h
    exact ⟨_, rfl, by rw [← hin], hq⟩

end Sys2Proof.Machine
end

section
/-! SUPPORT. The engine's step against the pseudocode by `READ`s (spec R150, R162, R170, R192 to R194): the fetch has seen the
bits ahead of the cursor, so each field it has decoded is what `READ` returns there, and where the bits run out both raise the
same error. -/

namespace Sys2Proof

theorem natToBits_mod (n v : Nat) : natToBits n (v % 2 ^ n) = natToBits n v := by
  have h := natToBits_bitsToNat (n := n) (bits := natToBits n v) (by simp)
  rwa [bitsToNat_natToBits, natToBits_length, Nat.sub_self, List.replicate_zero, List.append_nil] at h

/-- A field in two parts, the lower one first (R65, R68). -/
theorem natToBits_add (m n v : Nat) : natToBits (m + n) v = natToBits m v ++ natToBits n (v / 2 ^ m) := by
  induction m generalizing v with
  | zero => simp [natToBits]
  | succ m ih =>
    have hdiv : v / 2 ^ (m + 1) = v / 2 / 2 ^ m := by rw [pow_succ', Nat.div_div_eq_div_mul]
    rw [Nat.add_right_comm, natToBits, natToBits, ih, hdiv, List.cons_append]

end Sys2Proof

namespace Sys2Proof.Machine

/-! ### A read that fails -/

theorem readPass_loseCursor (s : State) : (readPass s).loseCursor = s.loseCursor := by
  simp only [readPass]
  split <;> rfl

/-- A `READ` that fails has changed only what the error makes unspecified (R126). -/
theorem loseCursor_of_readLoop {n passes : Nat} {s t : State} (h : readLoop n passes s = .truncated t) :
    t.loseCursor = s.loseCursor := by
  induction passes generalizing s with
  | zero => cases h
  | succ passes ih =>
    rw [readLoop] at h
    split at h
    · exact congrArg State.loseCursor (ReadResult.truncated.inj h).symm
    · split at h
      · cases h
      · exact (ih h).trans (readPass_loseCursor s)

theorem loseCursor_of_readBits {n : Nat} {s t : State} (h : readBits n s = .truncated t) :
    t.loseCursor = s.loseCursor := by
  rw [readBits] at h
  split at h
  · exact (loseCursor_of_readLoop h).trans rfl
  · cases h

/-! ### A read is the taking of a field -/

theorem readThen_short {s : State} (h : s.CursorNormal) {n : Nat} (h1 : 1 ≤ n) (hn : n ≤ 16)
    (hcut : 8 * s.inLen < s.bitpos + n) (k : Nat → State → Flow) :
    readThen n s k = .stop (.next (raiseTruncated s)) := by
  obtain ⟨t, ht⟩ := readBits_short h h1 hn hcut
  rw [readThen, ht]
  simp only [raiseTruncated_eq, loseCursor_of_readBits ht]

/-- `READ(n)` and the rest, where the next `n` bits, if they are there, make the value `v`. -/
theorem readThen_eq {s : State} (h : s.CursorNormal) {n v : Nat} (h1 : 1 ≤ n) (hn : n ≤ 16)
    (hv : s.bitpos + n ≤ 8 * s.inLen → s.fieldAt s.bitpos n = v) (k : Nat → State → Flow) :
    readThen n s k = (readField n v s).andThen (k v) := by
  rcases readField_spec n v s with ⟨hbits, e⟩ | ⟨hcut, e⟩
  · rw [e, readThen, readBits_enough h h1 hn hbits, hv hbits]
    rfl
  · rw [e, readThen_short h h1 hn hcut]
    rfl

/-! ### The bits ahead of the cursor -/

/-- The bits of the fetch from a stream bit on. -/
def State.fetchFrom (s : State) (p n : Nat) : List Bool := (List.range n).map fun j => s.fetchBit (p + j)

@[simp] theorem State.fetchFrom_length (s : State) (p n : Nat) : (s.fetchFrom p n).length = n := by
  simp [State.fetchFrom]

theorem State.fetchBits_eq_fetchFrom (s : State) (n : Nat) : s.fetchBits n = s.fetchFrom s.bitpos n := rfl

theorem State.fetchFrom_add (s : State) (p m n : Nat) :
    s.fetchFrom p (m + n) = s.fetchFrom p m ++ s.fetchFrom (p + m) n := by
  simp [State.fetchFrom, List.range_add, Function.comp_def, Nat.add_assoc]

/-- Inside the stream the fetch sees the field that `READ` returns. -/
theorem State.bitsToNat_fetchFrom {s : State} {p n : Nat} (h : p + n ≤ 8 * s.inLen) :
    bitsToNat (s.fetchFrom p n) = s.fieldAt p n := by
  rw [← State.bitsToNat_streamBits]
  refine congrArg bitsToNat (List.map_congr_left fun j hj => if_pos ?_)
  have hlt := List.mem_range.mp hj
  omega

/-- The fetch sees these bits at the cursor. -/
def State.Ahead (s : State) (bits : List Bool) : Prop := s.fetchFrom s.bitpos bits.length = bits

theorem State.Ahead.of_fetchBits {s : State} {n : Nat} {bits : List Bool} (h : s.fetchBits n = bits) : s.Ahead bits := by
  have hlen : bits.length = n := by rw [← h, State.fetchBits_length]
  rw [State.Ahead, hlen, ← h, State.fetchBits_eq_fetchFrom]

theorem State.Ahead.append {s : State} {as bs : List Bool} (h : s.Ahead (as ++ bs)) :
    s.Ahead as ∧ s.fetchFrom (s.bitpos + as.length) bs.length = bs := by
  rw [State.Ahead, List.length_append, State.fetchFrom_add] at h
  exact List.append_inj h (s.fetchFrom_length _ _)

/-- What is ahead of the cursor after a field has been taken. -/
theorem State.Ahead.consume {s : State} {n v : Nat} {bits : List Bool} (h : s.Ahead (natToBits n v ++ bits)) (w : Nat) :
    (s.consume n w).Ahead bits := by
  have hrest := h.append.2
  rw [natToBits_length] at hrest
  rw [State.Ahead, State.bitpos_consume]
  exact hrest

/-- A field ahead of the cursor is the one `READ` returns, if its bits are there. -/
theorem State.Ahead.fieldAt {s : State} {n v : Nat} {bits : List Bool} (h : s.Ahead (natToBits n v ++ bits))
    (hv : v < 2 ^ n) (hbits : s.bitpos + n ≤ 8 * s.inLen) : s.fieldAt s.bitpos n = v := by
  have hfield := h.append.1
  rw [State.Ahead, natToBits_length] at hfield
  rw [← State.bitsToNat_fetchFrom hbits, hfield, bitsToNat_natToBits, Nat.mod_eq_of_lt hv]

/-- `READ(n)` and the rest, where the fetch sees a field of value `v` ahead. -/
theorem readThen_ahead {s : State} (h : s.CursorNormal) {n v : Nat} {bits : List Bool} (h1 : 1 ≤ n) (hn : n ≤ 16)
    (hv : v < 2 ^ n) (hahead : s.Ahead (natToBits n v ++ bits)) (k : Nat → State → Flow) :
    readThen n s k = (readField n v s).andThen (k v) := readThen_eq h h1 hn (hahead.fieldAt hv) k

/-- Two ways to go on after a field agree if they agree in the state after it. -/
theorem readField_andThen_congr {n v : Nat} {s : State} {g g' : State → Flow} (h : g (s.consume n v) = g' (s.consume n v)) :
    (readField n v s).andThen g = (readField n v s).andThen g' := by
  rcases readField_spec n v s with ⟨-, e⟩ | ⟨-, e⟩
  · rw [e]
    exact h
  · rw [e]
    rfl

/-! ### HDR -/

theorem headerLoopByReads_eq {len n i : Nat} {s : State} {bits : List Bool} (h : s.CursorNormal)
    (hahead : s.Ahead (natToBits (8 * n) (len / 2 ^ (8 * i)) ++ bits)) :
    headerLoopByReads n i s = headerBytes len n i s := by
  induction n generalizing i s with
  | zero => rfl
  | succ n ih =>
    have hdiv : len / 2 ^ (8 * i) / 2 ^ 8 = len / 2 ^ (8 * (i + 1)) := by
      rw [Nat.div_div_eq_div_mul, ← pow_add, Nat.mul_succ]
    have hbyte : natToBits 8 (len / 2 ^ (8 * i)) = natToBits 8 (headerByte len i) := by
      rw [headerByte_eq, natToBits_mod]
    rw [Nat.mul_succ, Nat.add_comm (8 * n) 8, natToBits_add, hdiv, hbyte, List.append_assoc] at hahead
    have hlt : headerByte len i < 2 ^ 8 := by
      rw [headerByte_eq]
      exact Nat.mod_lt _ (by decide)
    rw [headerLoopByReads, headerBytes, readThen_ahead h (by decide) (by decide) hlt hahead]
    refine readField_andThen_congr ?_
    have hnormal : (s.consume 8 (headerByte len i)).CursorNormal := s.cursorNormal_consume 8 (headerByte len i)
    have hrest := hahead.consume (headerByte len i)
    exact ih (s := { s.consume 8 (headerByte len i) with
      len := (s.consume 8 (headerByte len i)).len ||| (headerByte len i <<< (8 * i)) }) hnormal hrest

/-- At stream bit 0 the engine's step is `HDR` by `READ`s. -/
theorem busyStep_eq_headerByReads {s : State} (h : s.CursorNormal) (h0 : s.bitpos = 0) : busyStep s = headerByReads s := by
  obtain ⟨len, rest, hfetch, -⟩ := State.fetch_at_header h0
  have hdec := hfetch
  rw [State.fetch, State.shape_of_bitpos_zero h0] at hdec
  have hahead : s.Ahead (natToBits (8 * s.params.hdrBytes) (len / 2 ^ (8 * 0)) ++ rest) := by
    rw [Nat.mul_zero, pow_zero, Nat.div_one]
    exact .of_fetchBits (encode_of_decode_header hdec).2.symm
  have hloop := headerLoopByReads_eq (s := { s with len := 0 }) h hahead
  rw [busyStep_header h0, runFetched_of_fetch hfetch, exec_hdr, execHdr, headerByReads, hloop]

/-! ### LIT -/

theorem literalLoopByReads_eq {bs : List Byte} {s : State} {bits : List Bool} (h : s.CursorNormal)
    (hahead : s.Ahead (literalBits bs ++ bits)) : literalLoopByReads bs.length s = literalBytes bs s := by
  induction bs generalizing s with
  | nil => rfl
  | cons b bs ih =>
    rw [literalBits_cons, List.append_assoc] at hahead
    have hrest := hahead.consume b.toNat
    rw [List.length_cons, literalLoopByReads, literalBytes, readThen_ahead h (by decide) (by decide) b.isLt hahead,
      BitVec.ofNat_toNat, BitVec.setWidth_eq]
    rcases readField_spec byteBits b.toNat s with ⟨-, e⟩ | ⟨-, e⟩
    · change ((readField byteBits b.toNat s).andThen _) = _
      rw [e, Flow.go_andThen, Flow.go_andThen]
      rcases emitByte_spec b (s.consume byteBits b.toNat) with ⟨-, e⟩ | ⟨-, e⟩
      · rw [e, Flow.go_andThen, Flow.go_andThen]
        exact ih (s.cursorNormal_consume byteBits b.toNat) hrest
      · rw [e]
        rfl
    · change ((readField byteBits b.toNat s).andThen _) = _
      rw [e]
      rfl

theorem literalByReads_eq {s : State} {b0 b1 b2 : Byte} {bits : List Bool}
    (hahead : (s.afterFlag 0#1).Ahead (literalBits ([b0, b1, b2].take (litCount s.len s.pos)) ++ bits)) :
    literalByReads (s.afterFlag 0#1) = literalBytes ([b0, b1, b2].take (litCount s.len s.pos)) s.litBegin := by
  have hloop := literalLoopByReads_eq (s := s.litBegin) s.cursorNormal_litBegin hahead
  rw [litBytes_length] at hloop
  exact hloop

/-! ### MATCH -/

/-- The check as the pseudocode writes it (R174). -/
theorem offsetLegal_eq_false_iff {offset : BitVec 16} {pos : Nat} :
    offsetLegal offset pos = false ↔ offset.toNat = 0 ∨ offset.toNat > pos := by
  rw [Bool.eq_false_iff, ne_eq, offsetLegal_iff]
  omega

/-- The check and the copy of the pseudocode (R174 to R176), in the state after both fields. -/
def matchCopyByReads (x : State) : Flow :=
  if x.offset.toNat = 0 ∨ x.offset.toNat > x.pos then .stop (.next (raise .invalidBackReference x))
  else
    copyBytes (min x.matchLen.toNat (x.len - x.pos))
      { x with cnt := BitVec.ofNat 8 (min x.matchLen.toNat (x.len - x.pos)) }

theorem matchCopyByReads_eq (x : State) : matchCopyByReads x = matchCopy x := by
  cases hlegal : offsetLegal x.offset x.pos with
  | true =>
    have hgood : ¬(x.offset.toNat = 0 ∨ x.offset.toNat > x.pos) := fun hbad =>
      absurd (offsetLegal_eq_false_iff.mpr hbad) (ne_false_of_eq_true hlegal)
    rw [matchCopyByReads, matchCopy, if_neg hgood, if_pos hlegal]
    rfl
  | false =>
    rw [matchCopyByReads, matchCopy, if_pos (offsetLegal_eq_false_iff.mp hlegal), if_neg (ne_true_of_eq_false hlegal)]

/-- The pseudocode of `MATCH` behind its flag: two reads, then the check and the copy (R170). -/
theorem matchByReads_afterFlag (s : State) :
    matchByReads (s.afterFlag 1#1) =
      readThen (offWidth s.pos s.mws) s.matchBegin fun o t =>
        readThen 8 { t with offset := BitVec.ofNat 16 o } fun l u =>
          matchCopyByReads { u with matchLen := BitVec.ofNat 8 l } := rfl

theorem cursorNormal_afterOffset (s : State) (offset : BitVec 16) : (s.afterOffset offset).CursorNormal :=
  s.matchBegin.cursorNormal_consume (offWidth s.pos s.mws) offset.toNat

theorem matchByReads_eq {s : State} {offset : BitVec 16} {length : Byte} {bits : List Bool}
    (hoffset : offset.toNat < 2 ^ offWidth s.pos s.mws)
    (hahead : s.matchBegin.Ahead (natToBits (offWidth s.pos s.mws) offset.toNat ++ (natToBits 8 length.toNat ++ bits))) :
    matchByReads (s.afterFlag 1#1) = (matchFields offset length (s.afterFlag 1#1)).andThen matchCopy := by
  have hnormal : s.matchBegin.CursorNormal := s.cursorNormal_consume 1 (1#1).toNat
  have hnext : (s.afterOffset offset).Ahead (natToBits 8 length.toNat ++ bits) := hahead.consume offset.toNat
  have hfields : matchFields offset length (s.afterFlag 1#1) =
      (readField (offWidth s.pos s.mws) offset.toNat s.matchBegin).andThen fun t =>
        (readField lenBits length.toNat { t with offset := offset }).andThen fun u =>
          .go { u with matchLen := length } := rfl
  rw [matchByReads_afterFlag, hfields,
    readThen_ahead hnormal (one_le_offWidth _ _) (offWidth_le_sixteen _ _) hoffset hahead]
  rcases readField_spec (offWidth s.pos s.mws) offset.toNat s.matchBegin with ⟨-, e⟩ | ⟨-, e⟩
  · rw [e, Flow.go_andThen, Flow.go_andThen, BitVec.ofNat_toNat, BitVec.setWidth_eq]
    change readThen 8 (s.afterOffset offset) _ = ((readField lenBits length.toNat (s.afterOffset offset)).andThen _).andThen _
    rw [readThen_ahead (cursorNormal_afterOffset s offset) (by decide) (by decide) length.isLt hnext, BitVec.ofNat_toNat,
      BitVec.setWidth_eq]
    change (readField lenBits length.toNat (s.afterOffset offset)).andThen _ = _
    rcases readField_spec lenBits length.toNat (s.afterOffset offset) with ⟨-, e⟩ | ⟨-, e⟩
    · rw [e]
      exact matchCopyByReads_eq _
    · rw [e]
      rfl
  · rw [e]
    rfl

/-! ### One token -/

/-- The rest of a token by `READ`s, its flag read (R193). -/
theorem tokenByReads_flag {s : State} (h : s.CursorNormal) {f : BitVec 1} {bits : List Bool}
    (hahead : s.Ahead (natToBits 1 f.toNat ++ bits)) :
    tokenByReads s = ((readFlag f s).andThen fun x => if f.toNat = 0 then literalByReads x else matchByReads x).finish := by
  rw [tokenByReads, readThen_ahead h le_rfl (by decide) f.isLt hahead, readFlag]
  rcases readField_spec 1 f.toNat s with ⟨-, e⟩ | ⟨-, e⟩
  · change ((readField 1 f.toNat s).andThen _).finish = (((readField 1 f.toNat s).andThen _).andThen _).finish
    rw [e, Flow.go_andThen, Flow.go_andThen, Flow.go_andThen, BitVec.ofNat_toNat, BitVec.setWidth_eq]
  · change ((readField 1 f.toNat s).andThen _).finish = (((readField 1 f.toNat s).andThen _).andThen _).finish
    rw [e]
    rfl

theorem tokenByReads_lit {s : State} (h : s.CursorNormal) {b0 b1 b2 : Byte} {bits : List Bool}
    (hahead : s.Ahead (false :: literalBits ([b0, b1, b2].take (litCount s.len s.pos)) ++ bits)) :
    tokenByReads s = execLit b0 b1 b2 s := by
  have hflag : s.Ahead (natToBits 1 (0#1).toNat ++ (literalBits ([b0, b1, b2].take (litCount s.len s.pos)) ++ bits)) := hahead
  have hrest : (s.afterFlag 0#1).Ahead (literalBits ([b0, b1, b2].take (litCount s.len s.pos)) ++ bits) := hflag.consume 0
  rw [tokenByReads_flag h hflag, execLit]
  rcases readFlag_cases 0#1 s with ⟨-, e⟩ | ⟨-, e⟩
  · rw [e, Flow.go_andThen, Flow.go_andThen]
    exact congrArg Flow.finish (literalByReads_eq hrest)
  · rw [e]
    rfl

theorem tokenByReads_match {s : State} (h : s.CursorNormal) {offset : BitVec 16} {length : Byte} {bits : List Bool}
    (hoffset : offset.toNat < 2 ^ offWidth s.pos s.mws)
    (hahead : s.Ahead (true :: (natToBits (offWidth s.pos s.mws) offset.toNat ++ natToBits 8 length.toNat) ++ bits)) :
    tokenByReads s = execMatch offset length s := by
  rw [List.cons_append, List.append_assoc] at hahead
  have hflag : s.Ahead (natToBits 1 (1#1).toNat ++
      (natToBits (offWidth s.pos s.mws) offset.toNat ++ (natToBits 8 length.toNat ++ bits))) := hahead
  have hrest : s.matchBegin.Ahead
      (natToBits (offWidth s.pos s.mws) offset.toNat ++ (natToBits 8 length.toNat ++ bits)) := hflag.consume 1
  rw [tokenByReads_flag h hflag, execMatch]
  rcases readFlag_cases 1#1 s with ⟨-, e⟩ | ⟨-, e⟩
  · rw [e, Flow.go_andThen, Flow.go_andThen]
    exact congrArg Flow.finish (matchByReads_eq hoffset hrest)
  · rw [e]
    rfl

/-- Where a token is due the engine's step is the token by `READ`s. -/
theorem busyStep_eq_tokenByReads {s : State} (h : s.CursorNormal) (h0 : s.bitpos ≠ 0) (hlt : s.pos < s.len) :
    busyStep s = tokenByReads s := by
  by_cases hflag : s.bitpos + 1 ≤ 8 * s.inLen
  · obtain ⟨i, rest, hfetch, hi⟩ := State.fetch_at_token h0
    have hdec := hfetch
    rw [State.fetch, State.shape_of_bitpos_pos h0] at hdec
    obtain ⟨hwf, hbits⟩ := encode_of_decode (tokenShape_wf hlt s.mws) hdec
    have hahead := State.Ahead.of_fetchBits hbits.symm
    rw [busyStep_token h0 hlt hflag, runFetched_of_fetch hfetch]
    rcases hi with ⟨b0, b1, b2, rfl⟩ | ⟨offset, length, rfl⟩
    · exact (tokenByReads_lit h hahead).symm
    · exact (tokenByReads_match h (of_decide_eq_true hwf) hahead).symm
  · rw [busyStep_flag_cut (by omega) h0 hlt, tokenByReads, readThen_short h le_rfl (by decide) (by omega)]
    rfl

/-- Settles O34: the header at stream bit 0, then tokens, then `DONE`. -/
theorem stepIsPseudocode : Obligations.StepIsPseudocode := by
  unfold Obligations.StepIsPseudocode
  intro s h
  rw [busyByReads]
  by_cases h0 : s.bitpos = 0
  · rw [if_pos h0, busyStep_eq_headerByReads h h0]
  by_cases hlt : s.pos < s.len
  · rw [if_neg h0, if_pos hlt, busyStep_eq_tokenByReads h h0 hlt]
  · rw [if_neg h0, if_neg hlt, busyStep_done h0 (not_lt.mp hlt)]

end Sys2Proof.Machine
end

section
/-! SUPPORT. The reference function of R196 with bits added or cut off (20_memory.md R70, 95_test_vectors.md section 4): what
the decoder answers on the first bits it answers on all of them. -/

namespace Sys2Proof.Machine

/-! ### One token of the reference function -/

/-- The bytes produced after one token, or its error (R196). -/
def tokenOutput (len : Nat) (out : List Byte) : Instr → Except ErrCode (List Byte)
  | .hdr _ => .error .truncatedInput
  | .lit b0 b1 b2 => .ok (out ++ [b0, b1, b2].take (litCount len out.length))
  | .matchTok offset length =>
    if offsetLegal offset out.length then .ok (copyFrom offset.toNat (copyCount length len out.length) out)
    else .error .invalidBackReference

/-- The token loop of R196 where a token decodes. -/
theorem decompressTokens_succ {len n : Nat} {mws : BitVec 14} {bits rest : List Bool} {out : List Byte} {i : Instr}
    (hlt : out.length < len)
    (hdec : decode (.token (litCount len out.length) (offWidth out.length mws)) bits = .ok (i, rest)) :
    decompressTokens len mws (n + 1) bits out = (tokenOutput len out i).bind (decompressTokens len mws n rest) := by
  cases i with
  | hdr l => exact absurd hdec decode_token_ne_hdr
  | lit b0 b1 b2 => exact decompressTokens_lit hlt hdec
  | matchTok offset length =>
    cases hlegal : offsetLegal offset out.length with
    | true =>
      rw [decompressTokens_match hlt hlegal hdec, tokenOutput, if_pos hlegal]
      rfl
    | false =>
      simp only [decompressTokens, if_pos hlt, hdec, tokenOutput, hlegal]
      rfl

/-- The token loop where no token decodes: the stream is truncated. -/
theorem decompressTokens_cut {len : Nat} {mws : BitVec 14} {bits : List Bool} {out : List Byte} {e : DecodeError}
    (hlt : out.length < len)
    (hdec : decode (.token (litCount len out.length) (offWidth out.length mws)) bits = .error e) (n : Nat) :
    decompressTokens len mws n bits out = .error .truncatedInput := by
  cases n with
  | zero => exact if_pos hlt
  | succ n => simp only [decompressTokens, if_pos hlt, hdec]

/-- The token loop with bytes still missing has decoded one more token. -/
theorem decompressTokens_ok {len n : Nat} {mws : BitVec 14} {bits : List Bool} {out res : List Byte}
    (h : decompressTokens len mws n bits out = .ok res) (hlt : out.length < len) :
    ∃ m i rest out', n = m + 1 ∧
      decode (.token (litCount len out.length) (offWidth out.length mws)) bits = .ok (i, rest) ∧
      tokenOutput len out i = .ok out' ∧ decompressTokens len mws m rest out' = .ok res := by
  cases n with
  | zero => cases (if_pos hlt).symm.trans h
  | succ n =>
    cases hdec : decode (.token (litCount len out.length) (offWidth out.length mws)) bits with
    | error e => cases (decompressTokens_cut hlt hdec (n + 1)).symm.trans h
    | ok p =>
      obtain ⟨i, rest⟩ := p
      rw [decompressTokens_succ hlt hdec] at h
      cases hout : tokenOutput len out i with
      | error e =>
        rw [hout] at h
        cases h
      | ok out' =>
        rw [hout] at h
        exact ⟨n, i, rest, out', rfl, rfl, hout, h⟩

/-! ### The token loop with other bits behind -/

/-- More bits, and more tokens allowed, change nothing (R70). -/
theorem decompressTokens_more {len n n' : Nat} {mws : BitVec 14} {bits : List Bool} {out res : List Byte}
    (h : decompressTokens len mws n bits out = .ok res) (hn : n ≤ n') (more : List Bool) :
    decompressTokens len mws n' (bits ++ more) out = .ok res := by
  induction n generalizing n' bits out with
  | zero =>
    by_cases hlt : out.length < len
    · cases (if_pos hlt).symm.trans h
    · rw [← h, decompressTokens_done (not_lt.mp hlt), decompressTokens_done (not_lt.mp hlt)]
  | succ n ih =>
    by_cases hlt : out.length < len
    · obtain ⟨m, i, rest, out', hm, hdec, hout, hrest⟩ := decompressTokens_ok h hlt
      obtain rfl : n = m := Nat.succ.inj hm
      obtain ⟨n', rfl⟩ := Nat.exists_eq_add_one_of_ne_zero (n := n') (by omega)
      rw [decompressTokens_succ hlt (decode_append (tokenShape_wf hlt mws) hdec more), hout]
      exact ih hrest (by omega)
    · rw [← h, decompressTokens_done (not_lt.mp hlt), decompressTokens_done (not_lt.mp hlt)]

/-- Fewer bits give the same bytes or run out, however many tokens are allowed. -/
theorem decompressTokens_fewer {len n m : Nat} {mws : BitVec 14} {bits more : List Bool} {out res : List Byte}
    (h : decompressTokens len mws n (bits ++ more) out = .ok res) :
    decompressTokens len mws m bits out = .ok res ∨ decompressTokens len mws m bits out = .error .truncatedInput := by
  induction m generalizing n bits out with
  | zero =>
    by_cases hlt : out.length < len
    · exact .inr (if_pos hlt)
    · rw [decompressTokens_done (not_lt.mp hlt)] at h ⊢
      exact .inl h
  | succ m ih =>
    by_cases hlt : out.length < len
    · cases hdec : decode (.token (litCount len out.length) (offWidth out.length mws)) bits with
      | error e => exact .inr (decompressTokens_cut hlt hdec (m + 1))
      | ok p =>
        obtain ⟨i, rest⟩ := p
        obtain ⟨n, i', rest', out', -, hdec', hout, hrest⟩ := decompressTokens_ok h hlt
        have hsame := hdec'.symm.trans (decode_append (tokenShape_wf hlt mws) hdec more)
        obtain ⟨rfl, rfl⟩ : i' = i ∧ rest' = rest ++ more := by simpa using hsame
        rw [decompressTokens_succ hlt hdec, hout]
        exact ih hrest
    · rw [decompressTokens_done (not_lt.mp hlt)] at h ⊢
      exact .inl h

/-! ### The header -/

/-- A header of any width is decoded with any bits behind it. -/
theorem decode_header_append {n : Nat} {i : Instr} {bits rest : List Bool} (h : decode (.header n) bits = .ok (i, rest))
    (more : List Bool) :
    ∃ len, i = .hdr len ∧ decode (.header n) (bits ++ more) = .ok (.hdr len, rest ++ more) := by
  obtain ⟨hwf, hbits⟩ := encode_of_decode_header h
  cases i with
  | hdr len =>
    refine ⟨len, rfl, ?_⟩
    rw [← hbits, List.append_assoc]
    exact decode_encode_header (of_decide_eq_true hwf) _
  | lit b0 b1 b2 => cases hwf
  | matchTok offset length => cases hwf

theorem decompress_negative {v : Int} (hv : v < 0) (hdrBytes outCap : Nat) (bits : List Bool) :
    decompress hdrBytes bits outCap v = .error .formatVersionUnsupported := if_pos hv

theorem decompress_cut {hdrBytes outCap : Nat} {v : Int} {bits : List Bool} {e : DecodeError} (hv : 0 ≤ v)
    (hdec : decode (.header hdrBytes) bits = .error e) : decompress hdrBytes bits outCap v = .error .truncatedInput := by
  simp only [decompress, if_neg (not_lt.mpr hv), hdec]

theorem decompress_tooLong {hdrBytes outCap len : Nat} {v : Int} {bits rest : List Bool} (hv : 0 ≤ v) (hcap : outCap < len)
    (hdec : decode (.header hdrBytes) bits = .ok (.hdr len, rest)) :
    decompress hdrBytes bits outCap v = .error .capacityExceeded := by
  simp only [decompress, if_neg (not_lt.mpr hv), hdec, gt_iff_lt, if_pos hcap]

/-- A stream that decodes has a recognised version, a whole header and room for its output. -/
theorem decompress_ok {hdrBytes outCap : Nat} {v : Int} {bits : List Bool} {out : List Byte}
    (h : decompress hdrBytes bits outCap v = .ok out) :
    0 ≤ v ∧ ∃ len rest, decode (.header hdrBytes) bits = .ok (.hdr len, rest) ∧ len ≤ outCap ∧
      decompressTokens len (matchWindowSize v) rest.length rest [] = .ok out := by
  by_cases hv : v < 0
  · cases (decompress_negative hv hdrBytes outCap bits).symm.trans h
  · have hv' := not_lt.mp hv
    refine ⟨hv', ?_⟩
    cases hdec : decode (.header hdrBytes) bits with
    | error e => cases (decompress_cut hv' hdec).symm.trans h
    | ok p =>
      obtain ⟨i, rest⟩ := p
      obtain ⟨len, rfl, -⟩ := decode_header_append hdec []
      by_cases hcap : len ≤ outCap
      · exact ⟨len, rest, rfl, hcap, (decompress_of_header hv' hcap hdec).symm.trans h⟩
      · cases (decompress_tooLong hv' (not_le.mp hcap) hdec).symm.trans h

/-! ### The obligations -/

/-- Settles O57: the header and each token decode with the new bits behind them. -/
theorem trailingInputIgnored : Obligations.TrailingInputIgnored := by
  unfold Obligations.TrailingInputIgnored
  intro hdrBytes outCap v bits more out h
  obtain ⟨hv, len, rest, hdec, hcap, htokens⟩ := decompress_ok h
  obtain ⟨len', hlen, hdec'⟩ := decode_header_append hdec more
  obtain rfl := Instr.hdr.inj hlen
  rw [decompress_of_header hv hcap hdec']
  exact decompressTokens_more htokens (by simp) more

/-- Settles O58: what the cut stream still decodes is what the whole stream decodes. -/
theorem cutStreamIsTruncated : Obligations.CutStreamIsTruncated := by
  unfold Obligations.CutStreamIsTruncated
  intro hdrBytes outCap v bits n out h
  obtain ⟨hv, len, rest, hdec, hcap, htokens⟩ := decompress_ok h
  cases hcut : decode (.header hdrBytes) (bits.take n) with
  | error e => exact .inr (decompress_cut hv hcut)
  | ok p =>
    obtain ⟨i, rest'⟩ := p
    obtain ⟨len', rfl, hwhole⟩ := decode_header_append hcut (bits.drop n)
    rw [List.take_append_drop, hdec] at hwhole
    obtain ⟨rfl, rfl⟩ : len = len' ∧ rest = rest' ++ bits.drop n := by simpa using hwhole
    rw [decompress_of_header hv hcap hcut]
    exact decompressTokens_fewer htokens

end Sys2Proof.Machine
end

section
/-! SUPPORT. A run of the machine against `decompress` (45_orchestrator.md R196): the unread bits of the machine are the bits
the reference function has left, the bytes below `POS` are the bytes it has produced, and each step of the machine is one turn
of its loop. -/

namespace Sys2Proof.Machine

/-! ### The unread bits -/

/-- The stream bits from the cursor to the end. -/
def State.unread (s : State) : List Bool := s.fetchFrom s.bitpos (8 * s.inLen - s.bitpos)

@[simp] theorem State.unread_length (s : State) : s.unread.length = 8 * s.inLen - s.bitpos := s.fetchFrom_length _ _

/-- At stream bit 0 all of the stream is unread. -/
theorem State.unread_of_bitpos_zero {s : State} (h : s.bitpos = 0) : s.unread = s.streamBits := by
  rw [State.unread, h, Nat.sub_zero]
  refine List.map_congr_left fun k hk => ?_
  have hlt := List.mem_range.mp hk
  rw [Nat.zero_add]
  exact if_pos (by omega)

theorem State.fetchFrom_congr {s t : State} (hmem : t.inMem = s.inMem) (hlen : t.inLen = s.inLen) (p n : Nat) :
    t.fetchFrom p n = s.fetchFrom p n := by
  simp only [State.fetchFrom, State.fetchBit, State.streamBit, hmem, hlen]

/-- The unread bits of a state further on in the same stream. -/
theorem State.unread_of_frame {s t : State} (hframe : t.frame = s.frame) {n : Nat} (hpos : t.bitpos = s.bitpos + n) :
    t.unread = s.fetchFrom (s.bitpos + n) (8 * s.inLen - s.bitpos - n) := by
  have hmem : t.inMem = s.inMem := (congrArg State.inMem hframe :)
  have hlen : t.inLen = s.inLen := (congrArg State.inLen hframe :)
  rw [State.unread, State.fetchFrom_congr hmem hlen, hlen, hpos, Nat.sub_add_eq]

theorem encode_length {sh : Shape} {i : Instr} (h : i.wf sh = true) : (encode sh i).length = i.bitLength sh := by
  cases i with
  | hdr len => exact Laws.EncodeLength.hdr len sh h
  | lit b0 b1 b2 => exact Laws.EncodeLength.lit b0 b1 b2 sh h
  | matchTok offset length => exact Laws.EncodeLength.matchTok offset length sh h

/-- What the fetch decodes is what the unread bits decode to, if they hold all of it, and else they decode to nothing: the
bits the fetch adds behind the stream are never part of an instruction that completes (log entry 10). -/
theorem State.decode_unread {s : State} {sh : Shape} {i : Instr} {n : Nat} {rest : List Bool} (hsh : sh.wf = true)
    (hin : s.bitpos ≤ 8 * s.inLen) (h : decode sh (s.fetchBits n) = .ok (i, rest)) :
    (s.bitpos + i.bitLength sh ≤ 8 * s.inLen ∧
      decode sh s.unread =
        .ok (i, s.fetchFrom (s.bitpos + i.bitLength sh) (8 * s.inLen - s.bitpos - i.bitLength sh))) ∨
    (8 * s.inLen < s.bitpos + i.bitLength sh ∧ ∃ e, decode sh s.unread = .error e) := by
  obtain ⟨hwf, hbits⟩ := encode_of_decode hsh h
  have hlen := encode_length hwf
  have hn : i.bitLength sh ≤ n := by
    have htotal := congrArg List.length hbits
    rw [List.length_append, hlen, State.fetchBits_length] at htotal
    omega
  by_cases henough : s.bitpos + i.bitLength sh ≤ 8 * s.inLen
  · have hencode := (State.Ahead.of_fetchBits hbits.symm).append.1
    rw [State.Ahead, hlen] at hencode
    have hunread : s.unread =
        encode sh i ++ s.fetchFrom (s.bitpos + i.bitLength sh) (8 * s.inLen - s.bitpos - i.bitLength sh) := by
      rw [← hencode, ← State.fetchFrom_add, State.unread]
      congr 1
      omega
    exact .inl ⟨henough, by rw [hunread, decode_encode hsh hwf]⟩
  · refine .inr ⟨by omega, ?_⟩
    cases hdec : decode sh s.unread with
    | error e => exact ⟨e, rfl⟩
    | ok p =>
      obtain ⟨i', rest'⟩ := p
      have hsplit : s.fetchBits n =
          s.unread ++ s.fetchFrom (s.bitpos + (8 * s.inLen - s.bitpos)) (n - (8 * s.inLen - s.bitpos)) := by
        rw [State.unread, ← State.fetchFrom_add, State.fetchBits_eq_fetchFrom]
        congr 1
        omega
      have hmore := decode_append hsh hdec (s.fetchFrom (s.bitpos + (8 * s.inLen - s.bitpos)) (n - (8 * s.inLen - s.bitpos)))
      rw [← hsplit, h] at hmore
      obtain ⟨rfl, -⟩ : i = i' ∧ _ := by simpa using hmore
      obtain ⟨-, hbits'⟩ := encode_of_decode hsh hdec
      have htotal := congrArg List.length hbits'
      rw [List.length_append, hlen, State.unread_length] at htotal
      omega

/-! ### The bytes produced -/

/-- `OUT` holds the bytes produced so far, and behind them what it held in `base`. -/
def Memory.Shows (m base : Memory) (out : List Byte) : Prop :=
  ∀ a, m.read a = if a < out.length then out.getD a 0 else base.read a

theorem Memory.Shows.nil (base : Memory) : base.Shows base [] := fun _ => rfl

theorem Memory.Shows.snoc {m base : Memory} {out : List Byte} (h : m.Shows base out) (b : Byte) :
    (m.write out.length b).Shows base (out ++ [b]) := fun a => by
  rw [Memory.read_write, List.length_append, List.length_singleton]
  by_cases hlast : a = out.length
  · subst hlast
    simp
  · rw [if_neg hlast, h a]
    by_cases hold : a < out.length
    · rw [if_pos hold, if_pos (by omega), List.getD_append _ _ _ _ hold]
    · rw [if_neg hold, if_neg (by omega)]

theorem Memory.Shows.writeBytes {m base : Memory} {out : List Byte} (h : m.Shows base out) (bs : List Byte) :
    (m.writeBytes out.length bs).Shows base (out ++ bs) := by
  induction bs generalizing m out with
  | nil => rwa [List.append_nil]
  | cons b bs ih =>
    have hnext := ih (h.snoc b)
    rwa [List.length_append, List.length_singleton, List.append_assoc, List.singleton_append] at hnext

theorem copyFrom_succ (offset n : Nat) (out : List Byte) :
    copyFrom offset (n + 1) out =
      copyFrom offset n out ++ [(copyFrom offset n out).getD ((copyFrom offset n out).length - offset) 0] := by
  induction n generalizing out with
  | zero => rfl
  | succ n ih => rw [copyFrom, ih, copyFrom]

/-- The copy in the buffer is the copy on the bytes produced (R176). -/
theorem Memory.Shows.copyUp {m base : Memory} {out : List Byte} (h : m.Shows base out) {offset : Nat} (h1 : 1 ≤ offset)
    (hle : offset ≤ out.length) (n : Nat) :
    (m.copyUp offset out.length n).Shows base (copyFrom offset n out) := by
  induction n with
  | zero => exact h
  | succ n ih =>
    have hlen := copyFrom_length offset n out
    have hsource := ih (out.length + n - offset)
    rw [if_pos (by omega), ← hlen] at hsource
    rw [Memory.copyUp, copyFrom_succ, ← hlen, hsource]
    exact ih.snoc _

/-! ### A run in progress -/

/-- What the run of a machine and the reference function have in common between two steps: `base` is the state at `START`,
`out` the bytes produced so far. -/
structure State.Produced (base s : State) (out : List Byte) : Prop where
  inv : s.Inv
  busy : s.status = .busy
  queue : s.hostQueue = []
  pos : s.pos = out.length
  shows : s.outMem.Shows base.outMem out
  lost : s.outLost = base.outLost

/-- What the host finds after a run that ends with the given result. -/
def State.EndsWith (base t : State) : Except ErrCode (List Byte) → Prop
  | .ok out =>
    t.status = .done ∧ t.errCode = .none ∧ t.resultLen = out.length ∧
      ∀ a, t.outMem.read a = (if a < out.length then out.getD a 0 else base.outMem.read a) ∧
        t.hostOut a = if a < out.length then out.getD a 0 else base.hostOut a
  | .error e => t.status = .fault ∧ t.errCode = e ∧ t.resultLen = 0

/-- The run of the machine from `s` ends, with no host action left, with the given result. -/
def State.RunsTo (base s : State) (r : Except ErrCode (List Byte)) : Prop :=
  ∃ n t, Host.Core.run core n s = .next t ∧ t.hostQueue = [] ∧ base.EndsWith t r

theorem State.RunsTo.of_step {base s t : State} {r : Except ErrCode (List Byte)} (h : base.RunsTo t r)
    (hstep : step s = .next t) : base.RunsTo s r := by
  obtain ⟨n, u, hrun, hqueue, hend⟩ := h
  exact ⟨n + 1, u, (run_succ hstep n).trans hrun, hqueue, hend⟩

theorem State.RunsTo.of_last_step {base s t : State} {r : Except ErrCode (List Byte)} (hstep : step s = .next t)
    (hqueue : t.hostQueue = []) (hend : base.EndsWith t r) : base.RunsTo s r :=
  State.RunsTo.of_step ⟨0, t, rfl, hqueue, hend⟩ hstep

/-- A step that raises an error ends the run with it. -/
theorem State.RunsTo.of_raise {base s u : State} {e : ErrCode} (hqueue : s.hostQueue = []) (hframe : u.frame = s.frame)
    (hstep : step s = .next (raise e u)) : base.RunsTo s (.error e) :=
  .of_last_step hstep ((congrArg State.hostQueue hframe :).trans hqueue) ⟨rfl, rfl, rfl⟩

theorem State.RunsTo.of_raiseTruncated {base s u : State} (hqueue : s.hostQueue = []) (hframe : u.frame = s.frame)
    (hstep : step s = .next (raiseTruncated u)) : base.RunsTo s (.error .truncatedInput) :=
  .of_last_step hstep ((congrArg State.hostQueue hframe :).trans hqueue) ⟨rfl, rfl, rfl⟩

/-- A completed instruction leaves the run in progress. -/
theorem State.Produced.completes {base s t : State} {out out' : List Byte} (h : base.Produced s out) (ht : s.Completes t)
    (hpos : t.pos = out'.length) (hshows : t.outMem.Shows base.outMem out') : base.Produced t out' :=
  { inv := ht.inv h.busy h.inv
    busy := (congrArg State.status ht.frame :).trans h.busy
    queue := (congrArg State.hostQueue ht.frame :).trans h.queue
    pos := hpos
    shows := hshows
    lost := (congrArg State.outLost ht.frame :).trans h.lost }

/-- When the loop test ends the run, the bytes produced are the result (R194, R197). -/
theorem State.Produced.done {base s : State} {out : List Byte} (h : base.Produced s out) (h0 : s.bitpos ≠ 0)
    (hdone : s.len ≤ s.pos) : base.RunsTo s (.ok out) := by
  have hstep : step s = .next (complete s) := (step_eq_busyStep h.queue h.busy).trans (busyStep_done h0 hdone)
  refine .of_last_step hstep h.queue ⟨rfl, ?_, h.pos, fun a => ⟨h.shows a, ?_⟩⟩
  · obtain ⟨-, -, -, -, -, herr, -⟩ := h.inv
    exact herr.mpr (by rw [h.busy]; simp)
  · rw [State.hostOut, complete_outLost, complete_outMem, lostByte_recoverBelow, h.pos, h.lost, h.shows a, State.hostOut]
    by_cases ha : a < out.length
    · rw [if_neg (not_le.mpr ha), if_pos ha, if_pos ha]
      rfl
    · rw [if_pos (not_lt.mp ha), if_neg ha, if_neg ha]

/-! ### One token -/

theorem bitLength_lit {k : Nat} (hk : k ≤ 3) (offw : Nat) (b0 b1 b2 : Byte) :
    (Instr.lit b0 b1 b2).bitLength (.token k offw) = 1 + 8 * k := by
  rw [Instr.bitLength, litMax, Nat.min_eq_right hk]
  rfl

theorem bitLength_match (k offw : Nat) (offset : BitVec 16) (length : Byte) :
    (Instr.matchTok offset length).bitLength (.token k offw) = 9 + offw := by
  rw [Instr.bitLength, flagBits, lenBits]
  omega

/-- A literal with its bits there is one turn of the loop of R196. -/
theorem State.Produced.lit {base s : State} {out : List Byte} (h : base.Produced s out) (hlt : s.pos < s.len)
    (b0 b1 b2 : Byte) (hbits : s.bitpos + (1 + 8 * litCount s.len s.pos) ≤ 8 * s.inLen) :
    ∃ t, execLit b0 b1 b2 s = .next t ∧ s.Completes t ∧ t.len = s.len ∧
      t.bitpos = s.bitpos + (1 + 8 * litCount s.len s.pos) ∧
      base.Produced t (out ++ [b0, b1, b2].take (litCount s.len s.pos)) := by
  have hrun := h.inv.running h.busy
  have hlength := litBytes_length b0 b1 b2 s.len s.pos
  have hroom := pos_add_litCount_le hlt.le hrun.len_le_outCap
  have hexec := execLit_enough b0 b1 b2 hroom hbits
  have hcomp : s.Completes (s.litBegin.afterLiteral ([b0, b1, b2].take (litCount s.len s.pos))) := by
    rcases hrun.execLit hlt (by omega) b0 b1 b2 with ⟨t, e, hcomp⟩ | ⟨u, t, e, -, hraise⟩
    · exact Host.Outcome.next.inj (e.symm.trans hexec) ▸ hcomp
    · obtain rfl := Host.Outcome.next.inj (e.symm.trans hexec)
      have hframe := (State.frame_afterLiteral s.litBegin ([b0, b1, b2].take (litCount s.len s.pos))).trans s.frame_litBegin
      cases hraise.status.symm.trans ((congrArg State.status hframe :).trans h.busy)
  refine ⟨_, hexec, hcomp, State.afterLiteral_len _ _, ?_, h.completes hcomp ?_ ?_⟩
  · rw [State.bitpos_afterLiteral, State.bitpos_litBegin, hlength, Nat.add_assoc]
  · rw [State.afterLiteral_pos, List.length_append, ← h.pos]
    rfl
  · rw [State.afterLiteral_outMem]
    change (s.outMem.writeBytes s.pos _).Shows _ _
    rw [h.pos]
    exact h.shows.writeBytes _

/-- A match with its bits there and a legal offset is one turn of the loop of R196. -/
theorem State.Produced.matchTok {base s : State} {out : List Byte} (h : base.Produced s out) {offset : BitVec 16}
    (length : Byte) (hlegal : offsetLegal offset s.pos = true)
    (hbits : s.bitpos + (9 + offWidth s.pos s.mws) ≤ 8 * s.inLen) :
    ∃ t, execMatch offset length s = .next t ∧ s.Completes t ∧ t.len = s.len ∧
      t.bitpos = s.bitpos + (9 + offWidth s.pos s.mws) ∧
      base.Produced t (copyFrom offset.toNat (copyCount length s.len s.pos) out) := by
  have hrun := h.inv.running h.busy
  have hroom := pos_add_copyCount_le length hrun.pos_le_len hrun.len_le_outCap
  have hexec := execMatch_enough hroom hlegal hbits
  have hcomp : s.Completes (s.afterCopy offset length) := by
    rcases hrun.execMatch (by omega) offset length with ⟨t, e, hcomp⟩ | ⟨u, t, e, -, hraise⟩
    · exact Host.Outcome.next.inj (e.symm.trans hexec) ▸ hcomp
    · obtain rfl := Host.Outcome.next.inj (e.symm.trans hexec)
      cases hraise.status.symm.trans h.busy
  obtain ⟨h1, hle⟩ := offsetLegal_iff.mp hlegal
  refine ⟨_, hexec, hcomp, rfl, s.bitpos_afterCopy offset length, h.completes hcomp ?_ ?_⟩
  · rw [copyFrom_length, ← h.pos]
    rfl
  · change (s.outMem.copyUp offset.toNat s.pos _).Shows _ _
    rw [h.pos]
    exact h.shows.copyUp h1 (h.pos ▸ hle) _

/-- A literal with bits missing raises the error of a cut stream. -/
theorem execLit_short {s : State} (hlt : s.pos < s.len) (hcap : s.len ≤ s.outCap) (b0 b1 b2 : Byte)
    (hcut : 8 * s.inLen < s.bitpos + (1 + 8 * litCount s.len s.pos)) :
    ∃ u, u.frame = s.frame ∧ execLit b0 b1 b2 s = .next (raiseTruncated u) := by
  have hroom := pos_add_litCount_le hlt.le hcap
  rcases execLit_cases b0 b1 b2 s with ⟨-, e⟩ | ⟨hbits, -⟩ | ⟨j, -, -, -, e⟩ | ⟨hfull, -⟩
  · exact ⟨s, rfl, e⟩
  · omega
  · exact ⟨_, (State.frame_afterLiteral _ _).trans s.frame_litBegin, e⟩
  · omega

/-- A match with bits missing raises the error of a cut stream. -/
theorem execMatch_short {s : State} (offset : BitVec 16) (length : Byte)
    (hcut : 8 * s.inLen < s.bitpos + (9 + offWidth s.pos s.mws)) :
    ∃ u, u.frame = s.frame ∧ execMatch offset length s = .next (raiseTruncated u) := by
  rcases execMatch_cases offset length s with
    ⟨-, e⟩ | ⟨-, -, e⟩ | ⟨-, -, e⟩ | ⟨hbits, -⟩ | ⟨hbits, -⟩ | ⟨hbits, -⟩
  · exact ⟨s, rfl, e⟩
  · exact ⟨_, s.frame_matchBegin, e⟩
  · exact ⟨_, s.frame_afterOffset offset, e⟩
  · omega
  · omega
  · omega

/-- A step of a run in progress at a token: either it ends the run as the loop of R196 ends, or it is one turn of it. -/
theorem State.Produced.token {base s : State} {out : List Byte} (h : base.Produced s out) (h0 : s.bitpos ≠ 0)
    (hlt : s.pos < s.len) :
    (∃ e, base.RunsTo s (.error e) ∧
      ∀ n, s.unread.length ≤ n → decompressTokens s.len s.mws n s.unread out = .error e) ∨
    ∃ t out', step s = .next t ∧ s.Completes t ∧ t.len = s.len ∧ base.Produced t out' ∧
      ∀ n, decompressTokens s.len s.mws (n + 1) s.unread out = decompressTokens s.len s.mws n t.unread out' := by
  have hrun := h.inv.running h.busy
  have hlt' : out.length < s.len := h.pos ▸ hlt
  have hsh := tokenShape_wf hlt s.mws
  by_cases hflag : s.bitpos + 1 ≤ 8 * s.inLen
  case neg =>
    have hnone : s.unread = [] := List.length_eq_zero_iff.mp (by rw [State.unread_length]; omega)
    refine .inl ⟨.truncatedInput, .of_raiseTruncated h.queue rfl
      ((step_eq_busyStep h.queue h.busy).trans (busyStep_flag_cut (by omega) h0 hlt)), fun n _ => ?_⟩
    rw [hnone]
    exact decompressTokens_cut hlt' rfl n
  obtain ⟨i, rest, hfetch, hi⟩ := State.fetch_at_token h0
  have hstep : step s = exec i s := by
    rw [step_eq_busyStep h.queue h.busy, busyStep_token h0 hlt hflag, runFetched_of_fetch hfetch]
  rw [State.fetch, State.shape_of_bitpos_pos h0] at hfetch
  rcases State.decode_unread hsh hrun.cursor_le hfetch with ⟨hbits, hdec⟩ | ⟨hcut, e, hdec⟩
  · have hsome : ∀ n, s.unread.length ≤ n → ∃ m, n = m + 1 := fun n hn => by
      rw [State.unread_length] at hn
      exact Nat.exists_eq_add_one_of_ne_zero (by omega)
    rw [h.pos] at hdec
    rcases hi with ⟨b0, b1, b2, rfl⟩ | ⟨offset, length, rfl⟩
    · rw [← h.pos, bitLength_lit (litCount_le_three _ _)] at hdec
      rw [bitLength_lit (litCount_le_three _ _)] at hbits
      obtain ⟨t, hexec, hcomp, hlen, hend, hprod⟩ := h.lit hlt b0 b1 b2 hbits
      refine .inr ⟨t, _, hstep.trans hexec, hcomp, hlen, hprod, fun n => ?_⟩
      rw [State.unread_of_frame hcomp.frame hend]
      rw [h.pos] at hdec ⊢
      exact decompressTokens_lit hlt' hdec
    · rw [← h.pos, bitLength_match] at hdec
      rw [bitLength_match] at hbits
      cases hlegal : offsetLegal offset s.pos with
      | true =>
        obtain ⟨t, hexec, hcomp, hlen, hend, hprod⟩ := h.matchTok length hlegal hbits
        refine .inr ⟨t, _, hstep.trans hexec, hcomp, hlen, hprod, fun n => ?_⟩
        rw [State.unread_of_frame hcomp.frame hend]
        rw [h.pos] at hdec hlegal ⊢
        exact decompressTokens_match hlt' hlegal hdec
      | false =>
        refine .inl ⟨.invalidBackReference, .of_raise h.queue (s.frame_afterMatch offset length)
          (hstep.trans (execMatch_illegal hlegal hbits)), fun n hn => ?_⟩
        obtain ⟨m, rfl⟩ := hsome n hn
        rw [h.pos] at hdec hlegal
        rw [decompressTokens_succ hlt' hdec, tokenOutput, hlegal]
        rfl
  · rw [h.pos] at hdec
    refine .inl ⟨.truncatedInput, ?_, fun n _ => decompressTokens_cut hlt' hdec n⟩
    rcases hi with ⟨b0, b1, b2, rfl⟩ | ⟨offset, length, rfl⟩
    · rw [bitLength_lit (litCount_le_three _ _)] at hcut
      obtain ⟨u, hframe, hexec⟩ := execLit_short hlt hrun.len_le_outCap b0 b1 b2 hcut
      exact .of_raiseTruncated h.queue hframe (hstep.trans hexec)
    · rw [bitLength_match] at hcut
      obtain ⟨u, hframe, hexec⟩ := execMatch_short offset length hcut
      exact .of_raiseTruncated h.queue hframe (hstep.trans hexec)

/-- A run in progress ends as the token loop of R196 does, with as many tokens allowed as there are bits. -/
theorem State.Produced.runsTo {base s : State} {out : List Byte} {n : Nat} (h : base.Produced s out) (h0 : s.bitpos ≠ 0)
    (hn : s.unread.length ≤ n) : base.RunsTo s (decompressTokens s.len s.mws n s.unread out) := by
  induction n generalizing s out with
  | zero =>
    by_cases hlt : s.pos < s.len
    · rcases h.token h0 hlt with ⟨e, hruns, herror⟩ | ⟨t, out', -, hcomp, -⟩
      · rwa [herror 0 hn]
      · have hmoves := hcomp.moves h.inv.one_le_hdrBytes
        have hcursor := hcomp.cursor
        rw [State.unread_length] at hn
        omega
    · rw [decompressTokens_done (h.pos ▸ not_lt.mp hlt)]
      exact h.done h0 (not_lt.mp hlt)
  | succ n ih =>
    by_cases hlt : s.pos < s.len
    · rcases h.token h0 hlt with ⟨e, hruns, herror⟩ | ⟨t, out', hstep, hcomp, hlen, hprod, hturn⟩
      · rwa [herror (n + 1) hn]
      · have hmoves := hcomp.moves h.inv.one_le_hdrBytes
        have hinLen : t.inLen = s.inLen := (congrArg State.inLen hcomp.frame :)
        have hmws : t.mws = s.mws := (congrArg State.mws hcomp.frame :)
        rw [hturn n, ← hlen, ← hmws]
        refine (ih hprod (by omega) ?_).of_step hstep
        rw [State.unread_length] at hn ⊢
        omega
    · rw [decompressTokens_done (h.pos ▸ not_lt.mp hlt)]
      exact h.done h0 (not_lt.mp hlt)

/-! ### The whole run -/

/-- A run at its header ends as `decompress` does (R196). -/
theorem State.Produced.runsTo_decompress {base s : State} (h : base.Produced s []) (h0 : s.bitpos = 0) :
    base.RunsTo s (decompress s.params.hdrBytes s.streamBits s.outCap s.fmtVer) := by
  have hrun := h.inv.running h.busy
  obtain ⟨-, -, hver, hmws, -, -, -⟩ := hrun
  have hsh : (Shape.header s.params.hdrBytes).wf = true := by
    rw [← State.shape_of_bitpos_zero h0]
    exact State.shape_wf h.inv.legal (.inl h0)
  obtain ⟨len, rest, hfetch, hlen⟩ := State.fetch_at_header h0
  have hstep : step s = execHdr len s := by
    rw [step_eq_busyStep h.queue h.busy, busyStep_header h0, runFetched_of_fetch hfetch, exec_hdr]
  have hmod := Nat.mod_eq_of_lt hlen
  have hdecode := hfetch
  rw [State.fetch, State.shape_of_bitpos_zero h0] at hdecode
  have hunread := State.decode_unread hsh (h.inv.running h.busy).cursor_le hdecode
  rw [State.unread_of_bitpos_zero h0] at hunread
  have hbl : (Instr.hdr len).bitLength (.header s.params.hdrBytes) = 8 * s.params.hdrBytes := rfl
  have hn1 := h.inv.one_le_hdrBytes
  rcases execHdr_cases len s with ⟨hbits, hcap, e⟩ | ⟨hbits, hcap, e⟩ | ⟨j, hj, hbits, hcut, e⟩
  · obtain ⟨-, hdec⟩ | ⟨hcut, -⟩ := hunread
    · have hcomp : s.Completes (s.afterHeader len s.params.hdrBytes) := by
        refine ⟨(h.inv.running h.busy).advances_afterHeader h0 hlen hbits, ?_,
          State.cursorNormal_afterHeader (h.inv.running h.busy).normal _ _, fun _ => ?_⟩
        · rwa [State.afterHeader_len]
        · rw [State.bitpos_afterHeader]
          omega
      have hprod : base.Produced (s.afterHeader len s.params.hdrBytes) [] := by
        refine h.completes hcomp ?_ ?_
        · rw [State.afterHeader_pos, h.pos]
        · rw [State.afterHeader_outMem]
          exact h.shows
      have hunread' := State.unread_of_frame hcomp.frame (s.bitpos_afterHeader len s.params.hdrBytes)
      have hmws' : (s.afterHeader len s.params.hdrBytes).mws = matchWindowSize s.fmtVer :=
        (congrArg State.mws hcomp.frame :).trans hmws
      rw [hmod] at hcap
      rw [decompress_of_header hver hcap hdec, hbl, ← hunread', ← hmws']
      have hend := (hprod.runsTo (by rw [State.bitpos_afterHeader]; omega) le_rfl).of_step (hstep.trans e)
      rwa [State.afterHeader_len, hmod] at hend
    · rw [hbl] at hcut
      rcases hbits with hzero | hbits <;> omega
  · obtain ⟨-, hdec⟩ | ⟨hcut, -⟩ := hunread
    · rw [decompress_tooLong hver (hmod ▸ hcap) hdec]
      exact .of_raise h.queue (s.frame_afterHeader len _) (hstep.trans e)
    · rw [hbl] at hcut
      rcases hbits with hzero | hbits <;> omega
  · obtain ⟨henough, -⟩ | ⟨-, _, hdec⟩ := hunread
    · rw [hbl] at henough
      omega
    · rw [decompress_cut hver hdec]
      exact .of_raiseTruncated h.queue (s.frame_afterHeader len j) (hstep.trans e)

/-- The stream bits depend on `IN` alone. -/
theorem State.streamBits_congr {s t : State} (hmem : t.inMem = s.inMem) (hlen : t.inLen = s.inLen) :
    t.streamBits = s.streamBits := by
  have hbit : t.streamBit = s.streamBit := funext fun k => by rw [State.streamBit, State.streamBit, hmem]
  rw [State.streamBits, State.streamBits, hbit, hlen]

/-- Settles O56: `START` raises the version's error or begins a run, whose header and tokens are those of `decompress`. -/
theorem runIsDecompress : Obligations.RunIsDecompress := by
  unfold Obligations.RunIsDecompress
  intro s hinv hidle hqueue hdisjoint
  have hstep : step s = .next (start { s with hostQueue := [] }) :=
    (step_host hqueue).trans (hostStart_accepted hidle hdisjoint)
  have hruns : s.RunsTo s (decompress s.params.hdrBytes s.streamBits s.outCap s.fmtVer) := by
    by_cases hneg : s.fmtVer < 0
    · have hneg' : { s with hostQueue := [] }.fmtVer < 0 := hneg
      rw [decompress_negative hneg]
      refine .of_last_step hstep (start_hostQueue _) ⟨?_, ?_, start_resultLen _⟩
      · rw [start_status, if_pos hneg']
      · rw [start_errCode, if_pos hneg']
    · have hneg' : ¬{ s with hostQueue := [] }.fmtVer < 0 := hneg
      have hprod : s.Produced (start { s with hostQueue := [] }) [] :=
        { inv := (hinv.withQueue []).start
          busy := by rw [start_status, if_neg hneg']
          queue := start_hostQueue _
          pos := start_pos _
          shows := by
            rw [start_outMem]
            exact .nil _
          lost := by rw [start_outLost, if_neg hneg'] }
      have hend := hprod.runsTo_decompress (start_bitpos _)
      rw [State.streamBits_congr (start_inMem _) (start_inLen _), start_params, start_outCap, start_fmtVer] at hend
      exact hend.of_step hstep
  obtain ⟨n, t, hrun, hempty, hend⟩ := hruns
  refine ⟨n, t, hrun, hempty, ?_⟩
  cases hres : decompress s.params.hdrBytes s.streamBits s.outCap s.fmtVer with
  | ok out =>
    rw [hres] at hend
    exact hend
  | error e =>
    rw [hres] at hend
    exact hend

end Sys2Proof.Machine
end

section
/-! SUPPORT. A word of the opcode table placed in the stream (log entries 18 and 19): the fetch sees the first bits of the
word's bytes, and those decode to the instruction that all of the bytes decode to. -/

namespace Sys2Proof

@[simp] theorem packBytes_length (n : Nat) (bits : List Bool) : (packBytes n bits).length = n := by
  induction n generalizing bits with
  | zero => rfl
  | succ n ih => rw [packBytes, List.length_cons, ih]

theorem tableBytes_length (nbits w : Nat) : (tableBytes nbits w).length = max 4 ((nbits + 7) / 8) := packBytes_length _ _

theorem bytesToBits_append (bs cs : List Byte) : bytesToBits (bs ++ cs) = bytesToBits bs ++ bytesToBits cs := by
  simp [bytesToBits]

/-- The three kinds of words the table has (log entry 19). -/
theorem tableShape_cases {nbits : Nat} (h : nbits ≤ 64) :
    tableShape nbits = some (.token 3 14) ∧ nbits ≤ 32 ∨
    ∃ n, tableShape nbits = some (.header n) ∧ (Shape.header n).wf = true ∧ n ≤ max 4 ((nbits + 7) / 8) := by
  unfold tableShape
  split_ifs with h0 h32
  · exact .inr ⟨4, rfl, rfl, Nat.le_max_left _ _⟩
  · exact .inl ⟨rfl, h32⟩
  · refine .inr ⟨(nbits + 7) / 8, rfl, ?_, Nat.le_max_right _ _⟩
    simp only [Shape.wf, Bool.and_eq_true, decide_eq_true_eq]
    omega

end Sys2Proof

namespace Sys2Proof.Machine

/-! ### Bytes in the stream -/

/-- The fetch sees a byte of the stream as its bits, bit 0 first (R64). -/
theorem State.fetchFrom_byte {s : State} {a : Nat} (h : a < s.inLen) :
    s.fetchFrom (8 * a) 8 = byteToBits (s.inMem.read a) := by
  have hvalue : bitsToNat (s.fetchFrom (8 * a) 8) = (s.inMem.read a).toNat := by
    rw [State.bitsToNat_fetchFrom (by omega), State.fieldAt_byte]
  have hbits := natToBits_bitsToNat (n := 8) (bits := s.fetchFrom (8 * a) 8) (by simp)
  rw [hvalue, State.fetchFrom_length, Nat.sub_self, List.replicate_zero, List.append_nil] at hbits
  exact hbits.symm

/-- The fetch sees bytes that lie in the stream as their bits. -/
theorem State.fetchFrom_bytes {s : State} {a : Nat} {bs : List Byte} (hin : a + bs.length ≤ s.inLen)
    (hread : ∀ j, j < bs.length → s.inMem.read (a + j) = bs.getD j 0) :
    s.fetchFrom (8 * a) (8 * bs.length) = bytesToBits bs := by
  induction bs generalizing a with
  | nil => rfl
  | cons b bs ih =>
    rw [List.length_cons] at hin
    have hfirst : s.inMem.read a = b := hread 0 (by simp)
    have hrest := ih (a := a + 1) (by omega) fun j hj => by
      have hnext := hread (j + 1) (by simpa using hj)
      rwa [List.getD_cons_succ, ← Nat.add_assoc, Nat.add_right_comm] at hnext
    rw [List.length_cons, Nat.mul_succ, Nat.add_comm (8 * bs.length) 8, State.fetchFrom_add,
      State.fetchFrom_byte (by omega), hfirst, ← Nat.mul_succ, hrest, bytesToBits_cons]

/-- Where bytes were put into the stream and the cursor stands at the first of them, the fetch sees their first bits. -/
theorem State.fetchBits_of_bytes {s : State} {m : Memory} {a n : Nat} {bs : List Byte} (hpos : s.bitpos = 8 * a)
    (hlen : s.inLen = a + bs.length) (hmem : s.inMem = m.writeBytes a bs) (hn : n ≤ 8 * bs.length) :
    ∃ more, s.fetchBits n ++ more = bytesToBits bs := by
  have hbytes := State.fetchFrom_bytes (s := s) hlen.ge fun j hj => by
    rw [hmem, Memory.read_writeBytes, if_pos (by omega), Nat.add_sub_cancel_left]
  refine ⟨s.fetchFrom (8 * a + n) (8 * bs.length - n), ?_⟩
  rw [State.fetchBits_eq_fetchFrom, hpos, ← State.fetchFrom_add, Nat.add_sub_cancel' hn, hbytes]

/-! ### The next instruction -/

/-- The engine runs what all of the bits decode to, if the fetch sees their first ones. -/
theorem step_of_fetchBits {s : State} {sh : Shape} {bits more : List Bool} (hshape : s.shape = sh) (hsh : sh.wf = true)
    (hbits : s.fetchBits (fetchLength sh) ++ more = bits) (hqueue : s.hostQueue = []) (hbusy : s.status = .busy)
    (hat : s.bitpos = 0 ∨ (s.pos < s.len ∧ s.bitpos + 1 ≤ 8 * s.inLen)) :
    ∃ i rest, decode sh bits = .ok (i, rest) ∧ step s = exec i s := by
  subst hshape
  obtain ⟨i, rest, hfetch⟩ := s.fetch_ok
  exact ⟨i, rest ++ more, hbits ▸ decode_append hsh hfetch more, stepRunsDecoded s i rest hqueue hbusy hat hfetch⟩

theorem State.placeTableWord_header {nbits n : Nat} (h : tableShape nbits = some (.header n)) (s : State) (w : Nat) :
    s.placeTableWord nbits w =
      { s.withStreamAt 0 ((tableBytes nbits w).take n) with params := { s.params with hdrBytes := n } } := by
  simp only [State.placeTableWord, h]

theorem State.placeTableWord_token {nbits k offw : Nat} (h : tableShape nbits = some (.token k offw)) (s : State) (w : Nat) :
    s.placeTableWord nbits w =
      { s.withStreamAt (max 1 s.params.hdrBytes) (tableBytes nbits w) with
        pos := 8192
        mws := 8192#14
        len := 8192 + 3
        outCap := max s.outCap (8192 + 3) } := by
  simp only [State.placeTableWord, h]

theorem decodeTableWord_eq {nbits w : Nat} {sh : Shape} {i : Instr} {rest : List Bool} (hsh : tableShape nbits = some sh)
    (hdec : decode sh (bytesToBits (tableBytes nbits w)) = .ok (i, rest)) : decodeTableWord nbits w = some i := by
  simp only [decodeTableWord, hsh, hdec]

/-- A header placed at the first byte of the stream runs next. -/
theorem step_placed_header {nbits n : Nat} (hsh : tableShape nbits = some (.header n)) (hwf : (Shape.header n).wf = true)
    (hn : n ≤ max 4 ((nbits + 7) / 8)) (s : State) (w : Nat) :
    ∃ i, decodeTableWord nbits w = some i ∧ step (s.placeTableWord nbits w) = exec i (s.placeTableWord nbits w) := by
  rw [State.placeTableWord_header hsh]
  generalize ht : { s.withStreamAt 0 ((tableBytes nbits w).take n) with
    params := { s.params with hdrBytes := n } } = t
  have hlen : ((tableBytes nbits w).take n).length = n := List.length_take_of_le (by rwa [tableBytes_length])
  have hpos : t.bitpos = 8 * 0 := by
    rw [← ht]
    exact s.bitpos_setBitpos (8 * 0)
  have hshape : t.shape = .header n := by
    rw [State.shape_of_bitpos_zero hpos, ← ht]
  obtain ⟨more, hbits⟩ := State.fetchBits_of_bytes (n := 8 * n) (m := s.inMem) hpos (by rw [← ht]; rfl) (by rw [← ht]; rfl)
    (by rw [hlen])
  obtain ⟨i, rest, hdec, hstep⟩ := step_of_fetchBits hshape hwf hbits (by rw [← ht]; rfl) (by rw [← ht]; rfl)
    (.inl hpos)
  have hwhole := decode_append hwf hdec (bytesToBits ((tableBytes nbits w).drop n))
  rw [← bytesToBits_append, List.take_append_drop] at hwhole
  exact ⟨i, decodeTableWord_eq hsh hwhole, hstep⟩

/-- A token placed behind a header, at the position of the window's end, runs next. -/
theorem step_placed_token {nbits : Nat} (hsh : tableShape nbits = some (.token 3 14)) (s : State) (w : Nat) :
    ∃ i, decodeTableWord nbits w = some i ∧ step (s.placeTableWord nbits w) = exec i (s.placeTableWord nbits w) := by
  rw [State.placeTableWord_token hsh]
  generalize ht : { s.withStreamAt (max 1 s.params.hdrBytes) (tableBytes nbits w) with
    pos := 8192
    mws := 8192#14
    len := 8192 + 3
    outCap := max s.outCap (8192 + 3) } = t
  have hlen : 4 ≤ (tableBytes nbits w).length := by
    rw [tableBytes_length]
    exact Nat.le_max_left _ _
  have hpos : t.bitpos = 8 * max 1 s.params.hdrBytes := by
    rw [← ht]
    exact s.bitpos_setBitpos (8 * max 1 s.params.hdrBytes)
  have hinLen : t.inLen = max 1 s.params.hdrBytes + (tableBytes nbits w).length := by rw [← ht]; rfl
  have hwidth : offWidth 8192 8192#14 = 14 := offWidth_of_window_le le_rfl
  have hshape : t.shape = .token 3 14 := by
    rw [State.shape_of_bitpos_pos (by omega), ← ht]
    simp only [litCount, litMax, hwidth]
    rfl
  have hlt : t.pos < t.len := by
    rw [← ht]
    exact Nat.lt_add_of_pos_right (by decide)
  obtain ⟨more, hbits⟩ := State.fetchBits_of_bytes (n := 25) (m := s.inMem) hpos hinLen (by rw [← ht]; rfl) (by omega)
  obtain ⟨i, rest, hdec, hstep⟩ := step_of_fetchBits hshape rfl hbits (by rw [← ht]; rfl) (by rw [← ht]; rfl)
    (.inr ⟨hlt, by omega⟩)
  exact ⟨i, decodeTableWord_eq hsh hdec, hstep⟩

/-- Settles O6: by the kind of the word. -/
theorem tableWordRuns : Obligations.TableWordRuns := by
  unfold Obligations.TableWordRuns
  intro nbits w h
  obtain ⟨hsh, -⟩ | ⟨n, hsh, hwf, hn⟩ := tableShape_cases h
  · exact step_placed_token hsh State.reset w
  · exact step_placed_header hsh hwf hn State.reset w

end Sys2Proof.Machine
end
